-- ==== Sys2Proof/Word.lean ====
section
/-! DEFINITION. The words of the block: bytes, frame ids, times, counters (rule R11). Plain abbreviations, so that the
library's lemmas on bit vectors apply. -/

namespace Sys2Proof

/-- One byte on a byte port or in a slot's storage. -/
abbrev Byte := BitVec 8

/-- A frame id, `FrameId = u11`, arithmetic modulo 2048 (R7, R110). -/
abbrev FrameId := BitVec 11

/-- A 64-bit word: a command word (R80), a link-control word (R35), a counter (R39). -/
abbrev Word64 := BitVec 64

/-- A time in ticks, `i64`: the bits of a register, read as two's complement (R11, D8). -/
abbrev Time := BitVec 64

/-- The 16-bit metadata of a data frame (R8 `METADATA_BITS`). -/
abbrev Metadata := BitVec 16

end Sys2Proof
end

