-- ==== Sys2Proof/Config.lean ====
section
/-! DEFINITION. What an implementation fixes: the protocol's constants (R7, R8), the implementation parameters (R9) as plain
data, the framer's functions (R10), and the free values of the outside world. The parameters stand in the machine's state as
constants that no command changes (log entry 1), so that a statement about every state is a statement about every allowed
parameter. -/

namespace Sys2Proof

namespace Config

/-- `RETRY_MAX`: 25 transmissions of one frame (R8, R141). -/
def retryMax : Nat := 25

/-- `RESET_RESEND_FACTOR`: a RESET request is resent every `16 × cfg_tx_timeout` (R8, R207). -/
def resetResendFactor : Nat := 16

/-- `OUTSTANDING_LIMIT`: at most 1023 frames outstanding (R8, C3). -/
def outstandingLimit : Nat := 1023

/-- `LINK_WORD_BYTES`: a link-control word is 8 bytes (R8). -/
def linkWordBytes : Nat := 8

/-- `TX_SLOTS` (R9, D10). -/
def txSlots : Nat := 1024

/-- `RX_SLOTS` (R9, D10). -/
def rxSlots : Nat := 1024

/-- `RESET_REQUEST_ID` (R8, R93). -/
def resetRequestId : FrameId := 0

/-- `RESET_RESPONSE_ID` (R8, R93). -/
def resetResponseId : FrameId := 1

end Config

/-- The five link-control types the source names (R92). -/
inductive LinkType where
  | ackAll | ackOne | nackFrameId | nackFramingError | reset
deriving DecidableEq, Repr

/-- `LINK_TYPE_CODE`, the 5-bit code of each link-control type: a parameter (R9, R92, D6). -/
structure LinkCodes where
  ackAll : BitVec 5
  ackOne : BitVec 5
  nackFrameId : BitVec 5
  nackFramingError : BitVec 5
  reset : BitVec 5
deriving DecidableEq, Repr

/-- The default codes of R92 and of opcode_table.json. PRESUMED (the spec marks them as general knowledge, G1; log entry 2). -/
def LinkCodes.default : LinkCodes := ⟨0x0F, 0x17, 0x1B, 0x1D, 0x1E⟩

/-- The code of a type. -/
def LinkCodes.code (c : LinkCodes) : LinkType → BitVec 5
  | .ackAll => c.ackAll
  | .ackOne => c.ackOne
  | .nackFrameId => c.nackFrameId
  | .nackFramingError => c.nackFramingError
  | .reset => c.reset

/-- All five codes, in the order R238 tests them. -/
def LinkCodes.all (c : LinkCodes) : List (BitVec 5) :=
  [c.ackAll, c.ackOne, c.nackFrameId, c.nackFramingError, c.reset]

/-- R92: the codes are injective on the five types and none is 0. -/
def LinkCodes.legal (c : LinkCodes) : Bool := decide c.all.Nodup && !c.all.contains 0

/-- The eight bytes of an encoded link-control frame, `b0` first on the wire (R10, R63). -/
structure LinkBytes where
  b0 : Byte
  b1 : Byte
  b2 : Byte
  b3 : Byte
  b4 : Byte
  b5 : Byte
  b6 : Byte
  b7 : Byte
deriving DecidableEq, Repr, Inhabited

/-- What `FramerParse` yields (R10). The link event carries the raw 5-bit type code. -/
inductive FramerEvent where
  | data (frameId : FrameId) (metadata : Metadata) (payload : List Byte)
  | link (typeCode : BitVec 5) (frameId : FrameId)
  | framingError
deriving DecidableEq, Repr

/-- The framer's counters, as `FramerStatus` reports them (R10). -/
structure FramerCounts where
  totalBytes : Word64
  ignoredBytes : Word64
  resyncCount : Word64
deriving DecidableEq, Repr, Inhabited

/-- The framer's internal state: opaque to the block (R40), so a token that only the framer's own functions read. -/
abbrev FramerState := Nat

/-- The framer's functions (R10), as far as they are written out: finite tables from arguments to results. Where a table has no entry the
result is a free value (`Config.dataEncode` and the others below). A table can hold every call of any one run, so no framer is left out,
and a run whose calls are all in the tables can be evaluated (log entry 4). -/
structure FramerTables where
  dataEncode : List ((FrameId × Metadata × List Byte) × List Byte) := []
  linkEncode : List ((LinkType × FrameId) × LinkBytes) := []
  parse : List ((FramerState × List Byte) × (FramerState × List FramerEvent)) := []
  status : List (FramerState × FramerCounts) := []
  statusClear : List (FramerState × FramerState) := []
  initial : FramerState := 0
deriving DecidableEq, Repr

/-- The implementation parameters of R9. The defaults that the spec states are PRESUMED (log entry 2); the values of the parameters that
the spec leaves OPEN are DESIGN CHOICE (log entry 3). No statement rests on any of them. -/
structure Params where
  /-- `PAYLOAD_MAX` (D9). -/
  payloadMax : Nat := 256
  /-- `FRAME_OVERHEAD_MAX`, so that `FRAME_BYTES_MAX = PAYLOAD_MAX + FRAME_OVERHEAD_MAX` (D12). OPEN. -/
  frameOverheadMax : Nat := 16
  /-- `LINK_DEPTH_MAX`, at least 1024 (D28). OPEN. -/
  linkDepthMax : Nat := 1024
  /-- `TICKS_PER_SECOND` (D8). -/
  ticksPerSecond : Nat := 1073741824
  /-- `MIN_INTERVAL`, default `TICKS_PER_SECOND div 10000` (D55). -/
  minInterval : Nat := 107374
  /-- `SEND_POLL`, at least 1 tick (D34, I10). OPEN. -/
  sendPoll : Nat := 1
  /-- `SOF_BYTE` (D30). -/
  sofByte : Byte := 0x55
  /-- `STATUS_VERSION`, zero-extended to 64 bits (D31). OPEN. -/
  statusVersion : Word64 := 0
  /-- `LINK_TYPE_CODE` (D6). -/
  codes : LinkCodes := LinkCodes.default
  /-- The framer's functions (R10). -/
  framer : FramerTables := {}
deriving DecidableEq, Repr

/-- `FRAME_BYTES_MAX` (R9, D12). -/
def Params.frameBytesMax (p : Params) : Nat := p.payloadMax + p.frameOverheadMax

/-- What R9, R92 and I10, I12 require of the parameters. They bound `LINK_DEPTH_MAX` below only; the bound above, `2^32`, is the model's: a depth
that the u32 registers of R21 and R35 can hold (DESIGN CHOICE, log entry 3). No meaning and no statement uses this predicate. -/
def Params.legal (p : Params) : Bool :=
  decide (1024 ≤ p.linkDepthMax) && decide (p.linkDepthMax < 2 ^ 32) && decide (1 ≤ p.sendPoll) && p.codes.legal

namespace Config

/-- `DataEncode` where the table says nothing: a free value (R10, D50; log entry 4). -/
opaque dataEncode : FrameId → Metadata → List Byte → List Byte

/-- `LinkEncode` where the table says nothing: a free value (R10, D7; log entry 4). -/
opaque linkEncode : LinkType → FrameId → LinkBytes

/-- `FramerParse` where the table says nothing: a free value (R10; log entry 4). -/
opaque framerParse : FramerState → List Byte → FramerState × List FramerEvent

/-- `FramerStatus` where the table says nothing: a free value (R10, D56; log entry 4). -/
opaque framerStatus : FramerState → FramerCounts

/-- `FramerStatusClear` where the table says nothing: a free value (R10, D56; log entry 4). -/
opaque framerStatusClear : FramerState → FramerState

/-- The driver's answer to an `LLAvail()` call for which the command carries none: a free value, a fresh one for each count
(R13, I3; log entry 6). -/
opaque llAvail : Nat → BitVec 32

/-- What an i64 register holds after a sum of times that i64 cannot represent is written to it: a free value, for each exact sum
(R11, D52; log entry 17). -/
opaque timeOverflow : Int → Time

end Config

end Sys2Proof
end

