-- ==== Sys2Proof/Syntax.lean ====
section
/-! DEFINITION. The instructions: one constructor per row of opcode_table.json (R80, R81). A command carries its operand
(R80: the triple of word, operand and time, less the time, which is an input of the machine). -/

namespace Sys2Proof

/-- INIT's configuration record (R86). -/
structure CfgRecord where
  txWindowSize : BitVec 32
  rxWindowSize : BitVec 32
  txLinkSize : BitVec 32
  txBufferSize : BitVec 32
  txTimeout : Time
deriving DecidableEq, Repr

/-- What a command carries beside its word (R80): bytes (a payload, raw bytes, or none), or INIT's configuration record, which crosses the
port as values and is never laid out in bytes (R64, R86). -/
inductive Operand where
  | bytes (data : List Byte)
  | record (config : CfgRecord)
deriving DecidableEq, Repr

/-- A command. -/
inductive Instr where
  /-- INIT, format I (R86, R250). -/
  | init (config : CfgRecord)
  /-- SEND, format S (R84, R131): `timeout_ms`, metadata, payload. -/
  | send (tmo : BitVec 28) (metadata : Metadata) (payload : List Byte)
  /-- TX_WINDOW_SET, format W (R85, R136). -/
  | txWindowSet (n : BitVec 32)
  /-- PROCESS, format N (R260). -/
  | process
  /-- LL_RECV, format B (R87, R253). -/
  | llRecv (data : List Byte)
  /-- STATUS_GET, format N (R266). -/
  | statusGet
  /-- STATUS_CLEAR, format N (R267). -/
  | statusClear
  /-- RX_DATA, format D (R88, R171). -/
  | rxData (frameId : FrameId) (metadata : Metadata) (payload : List Byte)
  /-- RX_LINK, format L (R89, R238), of a type that is none of the five codes (R239). -/
  | rxLink (typeCode : BitVec 5) (frameId : FrameId)
  /-- RX_LINK.ACK_ALL (R148). -/
  | rxLinkAckAll (frameId : FrameId)
  /-- RX_LINK.ACK_ONE (R146). -/
  | rxLinkAckOne (frameId : FrameId)
  /-- RX_LINK.NACK_FRAME_ID (R150). -/
  | rxLinkNackFrameId (frameId : FrameId)
  /-- RX_LINK.NACK_FRAMING_ERROR (R151). -/
  | rxLinkNackFramingError (frameId : FrameId)
  /-- RX_LINK.RESET_REQ: RESET with id 0 (R203). -/
  | rxLinkResetReq
  /-- RX_LINK.RESET_RSP: RESET with id 1 (R205). -/
  | rxLinkResetRsp
  /-- RX_LINK.RESET_OTHER: RESET with any other id (R208). -/
  | rxLinkResetOther (frameId : FrameId)
  /-- RX_FRAMING_ERROR, format N (R182). -/
  | rxFramingError
  /-- RESET_TX_FROM_EVENT, format N (R209). -/
  | resetTxFromEvent
  /-- SERVICE_INTERVAL, format N (R268). -/
  | serviceInterval
  /-- FINALIZE, format N (R269). -/
  | finalize
deriving DecidableEq, Repr

/-- The eight refusal reasons, in the order R305 checks them. -/
inductive RefuseReason where
  | reservedOpcode | reservedField | operandLength | notInitialized
  | alreadyInitialized | finalized | nestedCommand | timeRegression
deriving DecidableEq, Repr

end Sys2Proof
end

