-- ==== Sys2Proof/WellFormed.lean ====
section
/-! DEFINITION. Which instructions an encoding exists for: the operand lengths that the word's length fields can state
(R84, R87, R88), and the split of RX_LINK into the rows of opcode_table.json (R92, R93). -/

namespace Sys2Proof

/-- `i` is what some command word, with its operand, encodes under the link type codes `c`. -/
def Instr.wellFormed (c : LinkCodes) : Instr → Bool
  | .init _ => true
  | .send _ _ payload => decide (payload.length < 2 ^ 16)
  | .txWindowSet _ => true
  | .process => true
  | .llRecv data => decide (data.length < 2 ^ 32)
  | .statusGet => true
  | .statusClear => true
  | .rxData _ _ payload => decide (payload.length < 2 ^ 16)
  | .rxLink typeCode _ => !c.all.contains typeCode
  | .rxLinkAckAll _ => true
  | .rxLinkAckOne _ => true
  | .rxLinkNackFrameId _ => true
  | .rxLinkNackFramingError _ => true
  | .rxLinkResetReq => true
  | .rxLinkResetRsp => true
  | .rxLinkResetOther frameId =>
      decide (frameId ≠ Config.resetRequestId) && decide (frameId ≠ Config.resetResponseId)
  | .rxFramingError => true
  | .resetTxFromEvent => true
  | .serviceInterval => true
  | .finalize => true

end Sys2Proof
end

