-- ==== Sys2Proof/Decode.lean ====
section
/-! DEFINITION. The decoder, total on every word and operand and refusing by name (R82, R91), and after it the encoder, both
written from the format tables R83 to R89. -/

namespace Sys2Proof

/-! ### Fields of a command word (R84 to R90) -/

/-- Bits 63:60 (R81). -/
def opField (w : Word64) : BitVec 4 := w.extractLsb' 60 4

/-- Bits 59:32: SEND's `tmo`, an i28 (R84). -/
def tmoField (w : Word64) : BitVec 28 := w.extractLsb' 32 28

/-- Bits 31:16: `len` (R84, R88). -/
def lenField (w : Word64) : BitVec 16 := w.extractLsb' 16 16

/-- Bits 15:0: `meta` (R84, R88). -/
def metaField (w : Word64) : Metadata := w.extractLsb' 0 16

/-- Bits 42:32: `fid` (R88, R89). -/
def fidField (w : Word64) : FrameId := w.extractLsb' 32 11

/-- Bits 20:16: `type` (R89). -/
def typeField (w : Word64) : BitVec 5 := w.extractLsb' 16 5

/-- Bits 31:0: `n` (R85, R87). -/
def nField (w : Word64) : BitVec 32 := w.extractLsb' 0 32

/-! ### Opcodes and formats (R81, R83 to R89) -/

/-- The thirteen opcodes of R81. -/
inductive Opcode where
  | init | send | txWindowSet | process | llRecv | statusGet | statusClear | rxData | rxLink
  | rxFramingError | resetTxFromEvent | serviceInterval | finalize
deriving DecidableEq, Repr

/-- The opcode table R81; 0x0, 0xE and 0xF are reserved (R91). -/
def opcodeOf (b : BitVec 4) : Option Opcode :=
  match b.toNat with
  | 0x1 => some .init
  | 0x2 => some .send
  | 0x3 => some .txWindowSet
  | 0x4 => some .process
  | 0x5 => some .llRecv
  | 0x6 => some .statusGet
  | 0x7 => some .statusClear
  | 0x8 => some .rxData
  | 0x9 => some .rxLink
  | 0xA => some .rxFramingError
  | 0xB => some .resetTxFromEvent
  | 0xC => some .serviceInterval
  | 0xD => some .finalize
  | _ => none

/-- The bits of R81's opcode column. -/
def opcodeBits : Opcode → BitVec 4
  | .init => 0x1
  | .send => 0x2
  | .txWindowSet => 0x3
  | .process => 0x4
  | .llRecv => 0x5
  | .statusGet => 0x6
  | .statusClear => 0x7
  | .rxData => 0x8
  | .rxLink => 0x9
  | .rxFramingError => 0xA
  | .resetTxFromEvent => 0xB
  | .serviceInterval => 0xC
  | .finalize => 0xD

/-- The seven formats. -/
inductive Format where
  | n | s | w | i | b | d | l
deriving DecidableEq, Repr

/-- The format column of R81. -/
def formatOf : Opcode → Format
  | .init => .i
  | .send => .s
  | .txWindowSet => .w
  | .process => .n
  | .llRecv => .b
  | .statusGet => .n
  | .statusClear => .n
  | .rxData => .d
  | .rxLink => .l
  | .rxFramingError => .n
  | .resetTxFromEvent => .n
  | .serviceInterval => .n
  | .finalize => .n

/-- Every bit the format marks reserved is 0 (R82 to R89). -/
def reservedClear (f : Format) (w : Word64) : Bool :=
  match f with
  | .n => w.extractLsb' 0 60 == 0
  | .s => true
  | .w => w.extractLsb' 32 28 == 0
  | .i => w.extractLsb' 0 60 == 0
  | .b => w.extractLsb' 32 28 == 0
  | .d => w.extractLsb' 43 17 == 0
  | .l => w.extractLsb' 43 17 == 0 && w.extractLsb' 21 11 == 0 && w.extractLsb' 0 16 == 0

/-- How many operand bytes the word states (R82, R90): `len` for S and D, `n` for B, none otherwise. INIT's operand is its record. -/
def operandLength (f : Format) (w : Word64) : Nat :=
  match f with
  | .n => 0
  | .s => (lenField w).toNat
  | .w => 0
  | .i => 0
  | .b => (nField w).toNat
  | .d => (lenField w).toNat
  | .l => 0

/-- The operand is the one the word names (R80, R90): the record for INIT, as many bytes as the word states for every other format. An operand
of another kind than the format names is none that the port carries; it is refused like one of another length (log entry 14). -/
def operandFits (f : Format) (w : Word64) (x : Operand) : Bool :=
  match x with
  | .record _ => decide (f = .i)
  | .bytes data => decide (f ≠ .i) && decide (data.length = operandLength f w)

/-- The bytes of an operand; none of a record. -/
def operandBytes : Operand → List Byte
  | .bytes data => data
  | .record _ => []

/-- The configuration record of zeros. -/
def CfgRecord.zero : CfgRecord := ⟨0, 0, 0, 0, 0⟩

/-- The configuration record of an operand; zeros for one that holds none. -/
def operandRecord : Operand → CfgRecord
  | .bytes _ => CfgRecord.zero
  | .record config => config

/-! ### The decoder -/

/-- The rows of RX_LINK: the type codes in the order of R238, and the RESET sub-forms of R93. -/
def decodeRxLink (c : LinkCodes) (t : BitVec 5) (f : FrameId) : Instr :=
  if t = c.ackAll then .rxLinkAckAll f
  else if t = c.ackOne then .rxLinkAckOne f
  else if t = c.nackFrameId then .rxLinkNackFrameId f
  else if t = c.nackFramingError then .rxLinkNackFramingError f
  else if t = c.reset then
    if f = Config.resetRequestId then .rxLinkResetReq
    else if f = Config.resetResponseId then .rxLinkResetRsp
    else .rxLinkResetOther f
  else .rxLink t f

/-- The instruction of a word whose opcode is `o` and whose operand is the one it names (R90). -/
def assemble (c : LinkCodes) (o : Opcode) (w : Word64) (operand : Operand) : Instr :=
  match o with
  | .init => .init (operandRecord operand)
  | .send => .send (tmoField w) (metaField w) (operandBytes operand)
  | .txWindowSet => .txWindowSet (nField w)
  | .process => .process
  | .llRecv => .llRecv (operandBytes operand)
  | .statusGet => .statusGet
  | .statusClear => .statusClear
  | .rxData => .rxData (fidField w) (metaField w) (operandBytes operand)
  | .rxLink => decodeRxLink c (typeField w) (fidField w)
  | .rxFramingError => .rxFramingError
  | .resetTxFromEvent => .resetTxFromEvent
  | .serviceInterval => .serviceInterval
  | .finalize => .finalize

/-- The decoder: opcode, reserved bits, operand length, in the order of R305 (orders 1 to 3), then the fields (R82, R90, R91). -/
def decode (c : LinkCodes) (w : Word64) (operand : Operand) : Except RefuseReason Instr :=
  match opcodeOf (opField w) with
  | none => .error .reservedOpcode
  | some o =>
    if reservedClear (formatOf o) w = false then .error .reservedField
    else if operandFits (formatOf o) w operand = false then .error .operandLength
    else .ok (assemble c o w operand)

/-! ### The encoder -/

/-- Format N and I: opcode and 60 zeros (R83, R86). -/
def wordN (o : Opcode) : Word64 := opcodeBits o ++ (0 : BitVec 60)

/-- Format S (R84). -/
def wordS (tmo : BitVec 28) (len : BitVec 16) (m : Metadata) : Word64 := opcodeBits .send ++ tmo ++ len ++ m

/-- Formats W and B (R85, R87). -/
def wordW (o : Opcode) (n : BitVec 32) : Word64 := opcodeBits o ++ (0 : BitVec 28) ++ n

/-- Format D (R88). -/
def wordD (f : FrameId) (len : BitVec 16) (m : Metadata) : Word64 :=
  opcodeBits .rxData ++ (0 : BitVec 17) ++ f ++ len ++ m

/-- Format L (R89). -/
def wordL (t : BitVec 5) (f : FrameId) : Word64 :=
  opcodeBits .rxLink ++ (0 : BitVec 17) ++ f ++ (0 : BitVec 11) ++ t ++ (0 : BitVec 16)

/-- The encoder: the command word and the operand of an instruction (R83 to R89). -/
def encode (c : LinkCodes) : Instr → Word64 × Operand
  | .init config => (wordN .init, .record config)
  | .send tmo m payload => (wordS tmo (BitVec.ofNat 16 payload.length) m, .bytes payload)
  | .txWindowSet n => (wordW .txWindowSet n, .bytes [])
  | .process => (wordN .process, .bytes [])
  | .llRecv data => (wordW .llRecv (BitVec.ofNat 32 data.length), .bytes data)
  | .statusGet => (wordN .statusGet, .bytes [])
  | .statusClear => (wordN .statusClear, .bytes [])
  | .rxData f m payload => (wordD f (BitVec.ofNat 16 payload.length) m, .bytes payload)
  | .rxLink t f => (wordL t f, .bytes [])
  | .rxLinkAckAll f => (wordL c.ackAll f, .bytes [])
  | .rxLinkAckOne f => (wordL c.ackOne f, .bytes [])
  | .rxLinkNackFrameId f => (wordL c.nackFrameId f, .bytes [])
  | .rxLinkNackFramingError f => (wordL c.nackFramingError f, .bytes [])
  | .rxLinkResetReq => (wordL c.reset Config.resetRequestId, .bytes [])
  | .rxLinkResetRsp => (wordL c.reset Config.resetResponseId, .bytes [])
  | .rxLinkResetOther f => (wordL c.reset f, .bytes [])
  | .rxFramingError => (wordN .rxFramingError, .bytes [])
  | .resetTxFromEvent => (wordN .resetTxFromEvent, .bytes [])
  | .serviceInterval => (wordN .serviceInterval, .bytes [])
  | .finalize => (wordN .finalize, .bytes [])

/-! ### The opcode table's numbering -/

/-- The command word whose low `nbits` bits are those of `w`, every bit above them 0. -/
def tableWord (nbits w : Nat) : Word64 := BitVec.ofNat 64 (w % 2 ^ nbits)

/-- The operand of zeros that the word names: the record of zeros for INIT, as many zero bytes as the word states otherwise. -/
def zeroOperand (w : Word64) : Operand :=
  match opcodeOf (opField w) with
  | none => .bytes []
  | some .init => .record CfgRecord.zero
  | some o => .bytes (List.replicate (operandLength (formatOf o) w) 0)

/-- What the decoder reads from a row's word, under the table's own (default) link type codes, with an operand of zeros of the stated
length; none where it refuses. A command word is 64 bits (R82), so a longer one is none. -/
def decodeTableWord (nbits w : Nat) : Option Instr :=
  if nbits ≤ 64 then (decode LinkCodes.default (tableWord nbits w) (zeroOperand (tableWord nbits w))).toOption else none

end Sys2Proof
end

