-- ==== Sys2Proof/Machine/State.lean ====
section
/-! DEFINITION. The architectural state of one block (R20 to R42) as plain data, grouped by the spec's own units, with the
model's own fields beside it: the parameters (log entry 1), the command port (log entry 5) and the record of the output ports (log
entry 8). -/

namespace Sys2Proof.Machine

/-- `life` (R22): Uninit 0, Active 1, Finalized 2. -/
inductive Life where
  | uninit | active | finalized
deriving DecidableEq, Repr

/-- `conn_state` (R23): Disconnected 0, Connected 1. -/
inductive ConnState where
  | disconnected | connected
deriving DecidableEq, Repr

/-- The state of a TX slot (R29): Idle 0, PendingSend 1, Sent 2, Acked 3. -/
inductive TxState where
  | idle | pendingSend | sent | acked
deriving DecidableEq, Repr

/-- The state of an RX slot (R33): Idle 0, Stored 1, Nacked 2. -/
inductive RxState where
  | idle | stored | nacked
deriving DecidableEq, Repr

/-- Status codes (R94). -/
inductive Status where
  | success | parameterInvalid | full | timedOut | unavailable
deriving DecidableEq, Repr

/-- Upper-layer event kinds (R95). `unknown` is never emitted. -/
inductive EventKind where
  | unknown | rxResetRequest | txDisconnected | txConnected
deriving DecidableEq, Repr

/-- The bytes of one slot (R60, R65): (offset, byte) pairs, offsets strictly rising, no entry 0, an unlisted byte reads 0
(log entry 15). -/
abbrev Memory := List Host.Cell

/-- A TX slot (R29). -/
structure TxSlot where
  state : TxState
  sendCount : BitVec 8
  lastSendTime : Time
  len : BitVec 16
  bytes : Memory
deriving DecidableEq, Repr

/-- An RX slot (R33). -/
structure RxSlot where
  state : RxState
  frameId : FrameId
  metadata : Metadata
  len : BitVec 16
  payload : Memory
deriving DecidableEq, Repr

/-- A TX slot as INIT's zero fill leaves it (R43). -/
def TxSlot.zero : TxSlot := ⟨.idle, 0, 0, 0, []⟩

/-- An RX slot as INIT's zero fill leaves it (R43). -/
def RxSlot.zero : RxSlot := ⟨.idle, 0, 0, 0, []⟩

/-- Configuration registers (R21). -/
structure Cfg where
  txFrameCountMax : BitVec 11
  rxWindowSize : BitVec 11
  txLinkSize : BitVec 32
  txBufferSize : BitVec 32
  txTimeout : Time
deriving DecidableEq, Repr

/-- The connection unit (R23 to R25). -/
structure Conn where
  state : ConnState
  activity : Bool
  resetTime : Time
deriving DecidableEq, Repr

/-- The TX unit (R26 to R29). Slots by index; an unlisted slot is `TxSlot.zero`. -/
structure TxUnit where
  lastId : FrameId
  nextId : FrameId
  count : BitVec 11
  slots : List (Nat × TxSlot)
deriving DecidableEq, Repr

/-- The RX unit (R31 to R33). Slots by index; an unlisted slot is `RxSlot.zero`. -/
structure RxUnit where
  nextId : FrameId
  maxId : FrameId
  slots : List (Nat × RxSlot)
deriving DecidableEq, Repr

/-- The link unit (R35). Ring entries by index; an unlisted entry is 0. -/
structure LinkUnit where
  ring : List (Nat × Word64)
  head : BitVec 32
  count : BitVec 32
  drops : Word64
deriving DecidableEq, Repr

/-- Context registers (R38). -/
structure Ctx where
  inProcess : Bool
  cbDepth : BitVec 8
  resetEpoch : BitVec 32
  lastNow : Time
deriving DecidableEq, Repr

/-- Statistics counters 1, 2 and 6 to 9 (R39). -/
structure Stats where
  rxMsgBytes : Word64
  rxDataFrames : Word64
  txBytes : Word64
  txMsgBytes : Word64
  txDataFrames : Word64
  txRetransmissions : Word64
deriving DecidableEq, Repr

/-- A blocking-send record (R42), one per caller. `nextTry` is the model's own: when the caller's wait ends (log entry 12). -/
structure BSend where
  caller : Nat
  active : Bool
  start : Time
  deadline : Time
  metadata : Metadata
  payload : List Byte
  nextTry : Time
deriving DecidableEq, Repr

/-- A command that a callback handler issues: word and operand; its time is the enclosing command's (R309). -/
structure NestedCommand where
  word : Word64
  operand : Operand
deriving DecidableEq, Repr

/-- What travels with an input: its time (R14), who issued it (R42), the driver's answers to its `LLAvail()` calls in call order (R13), and
what each callback it makes does, in call order (R309). -/
structure Env where
  now : Time
  caller : Nat
  avail : List (BitVec 32)
  handlers : List (List NestedCommand)
deriving DecidableEq, Repr

/-- One input at the command port: a command (R80), or the next attempt of a caller's blocking SEND (R270). -/
inductive Input where
  | command (word : Word64) (operand : Operand) (env : Env)
  | attempt (env : Env)
deriving DecidableEq, Repr

/-- What travels with an input. -/
def Input.env : Input → Env
  | .command _ _ e => e
  | .attempt e => e

/-- The inputs latched for the command in progress, and the count of free values drawn so far (log entries 5 to 7). -/
structure Port where
  now : Time
  caller : Nat
  avail : List (BitVec 32)
  handlers : List (List NestedCommand)
  freeCtr : Nat
deriving DecidableEq, Repr

/-- One activity of an output port (R97), a status (R94), a result (R96), or a refusal (R305). -/
inductive Output where
  | llSend (bytes : List Byte)
  | upRecv (metadata : Metadata) (payload : List Byte)
  | upEvent (kind : EventKind)
  | wake
  | status (s : Status)
  | snapshot (values : List Word64)
  | interval (ticks : Time)
  | refused (reason : RefuseReason)
deriving DecidableEq, Repr

/-- The state of one block. -/
structure State where
  /-- The implementation parameters (R9, R45); no command changes them. -/
  par : Params
  /-- The command port's queue. -/
  inq : List Input
  /-- The latched inputs. -/
  port : Port
  /-- Everything on the output ports so far, in order. -/
  out : List Output
  cfg : Cfg
  life : Life
  conn : Conn
  tx : TxUnit
  rx : RxUnit
  link : LinkUnit
  /-- `eof_pending` (R36). -/
  eofPending : Bool
  /-- `tick_at` (R37). -/
  tickAt : Time
  ctx : Ctx
  stats : Stats
  /-- `fs` (R40). -/
  fs : FramerState
  /-- `fault` (R41, R305): bit `code - 1` for each reason recorded. -/
  fault : BitVec 8
  /-- `bsend` (R42), at most one record per caller. -/
  bsend : List BSend
deriving DecidableEq, Repr

/-- Why the model stops: for no reason. The block has no traps (60_exceptions.md): what it turns away is recorded in `fault` and the block goes on
(R305), so no step ends in a fault and the type has no constructor. -/
inductive Fault where
deriving DecidableEq, Repr

/-- Why an instruction has no meaning. -/
inductive Refusal where
  /-- An instruction without a meaning: raised by no arm, since every instruction has one. Safe. -/
  | notModelled (mnemonic : String)
deriving DecidableEq, Repr

/-- Power-on (R330, R43): `life = Uninit` and `fault` empty are the spec's; every other register is unspecified there and holds the value
that log entry 9 names. Nothing is queued at the command port (log entry 5). -/
def State.reset : State where
  par := {}
  inq := []
  port := ⟨0, 0, [], [], 0⟩
  out := []
  cfg := ⟨0, 0, 0, 0, 0⟩
  life := .uninit
  conn := ⟨.disconnected, false, 0⟩
  tx := ⟨0, 0, 0, []⟩
  rx := ⟨0, 0, []⟩
  link := ⟨[], 0, 0, 0⟩
  eofPending := false
  tickAt := 0
  ctx := ⟨false, 0, 0, 0⟩
  stats := ⟨0, 0, 0, 0, 0, 0⟩
  fs := 0
  fault := 0
  bsend := []

end Sys2Proof.Machine
end

