-- ==== Sys2Proof/Machine/Memory.lean ====
section
/-! DEFINITION. The block's three memories (R60) as sparse tables in one canonical form: keys strictly rising, no entry equal to
what an unlisted key reads as. A slot's bytes, the slot arrays and the link ring are such tables. -/

namespace Sys2Proof.Machine

/-- What `key` reads as; `d` where the table lists nothing. -/
def tableGet {α : Type} (d : α) : List (Nat × α) → Nat → α
  | [], _ => d
  | (k, v) :: rest, key => if key = k then v else tableGet d rest key

/-- Insert an entry in key order. -/
def tableInsert {α : Type} (key : Nat) (v : α) : List (Nat × α) → List (Nat × α)
  | [] => [(key, v)]
  | (k, w) :: rest => if key < k then (key, v) :: (k, w) :: rest else (k, w) :: tableInsert key v rest

/-- Drop every entry of `key`. -/
def tableErase {α : Type} (key : Nat) (t : List (Nat × α)) : List (Nat × α) := t.filter fun e => decide (e.1 ≠ key)

/-- Write `v` at `key`, keeping the canonical form: writing what an unlisted key reads as removes the entry. -/
def tablePut {α : Type} [DecidableEq α] (d : α) (t : List (Nat × α)) (key : Nat) (v : α) : List (Nat × α) :=
  if v = d then tableErase key t else tableInsert key v (tableErase key t)

/-- Apply `f` to what every key reads as, for an `f` that keeps `d`. -/
def tableMap {α : Type} [DecidableEq α] (d : α) (f : α → α) : List (Nat × α) → List (Nat × α)
  | [] => []
  | (k, v) :: rest => tablePut d (tableMap d f rest) k (f v)

/-- The canonical form. -/
def tableWf {α : Type} [DecidableEq α] (d : α) (t : List (Nat × α)) : Bool :=
  decide ((t.map Prod.fst).Pairwise (· < ·)) && t.all fun e => decide (e.2 ≠ d)

/-! ### The bytes of one slot (R12, R61, R62, R65) -/

/-- What a byte of a slot that nothing has written reads as: 0, INIT's zero fill (R43; log entry 15). -/
def unwrittenByte : Byte := 0

/-- One byte at an offset. -/
def Memory.read (m : Memory) (offset : Nat) : Byte := tableGet unwrittenByte m offset

/-- Write one byte at an offset. -/
def Memory.write (m : Memory) (offset : Nat) (b : Byte) : Memory := tablePut unwrittenByte m offset b

/-- The canonical form of a slot's bytes. -/
def Memory.wf (m : Memory) : Bool := tableWf unwrittenByte m

/-- The first `n` bytes from an offset on. -/
def memReadFrom (m : Memory) (offset : Nat) : Nat → List Byte
  | 0 => []
  | n + 1 => Memory.read m offset :: memReadFrom m (offset + 1) n

/-- Write a list of bytes from an offset on. -/
def memWriteFrom (m : Memory) (offset : Nat) : List Byte → Memory
  | [] => m
  | b :: bs => memWriteFrom (Memory.write m offset b) (offset + 1) bs

/-- `MemRead(bytes, n)`: the first `n` stored bytes (R12). -/
def memRead (m : Memory) (n : Nat) : List Byte := memReadFrom m 0 n

/-- `MemWrite(bytes, len(v), v)`: the bytes after the written ones keep what they held (R12, I15). -/
def memWrite (m : Memory) (v : List Byte) : Memory := memWriteFrom m 0 v

end Sys2Proof.Machine
end

