-- ==== Sys2Proof/Machine/Operands.lean ====
section
/-! DEFINITION. Operand forms: frame-id arithmetic (40_frame_id.md), the conversions of the command fields (R90, R272), link-word packing (R63)
and the framer's functions (R10). -/

namespace Sys2Proof.Machine

/-! ### Frame ids (R110 to R117) -/

/-- `add(a, k) = (a + k) mod 2048` (R111). -/
def idAdd (a : FrameId) (k : Int) : FrameId := a + BitVec.ofInt 11 k

/-- `inc(a) = add(a, 1)` (R111). -/
def idInc (a : FrameId) : FrameId := a + 1

/-- `dec(a) = add(a, -1)` (R111). -/
def idDec (a : FrameId) : FrameId := a - 1

/-- `subtract(a, b)`: the two's-complement 11-bit difference, -1024 to 1023 (R112). -/
def idSubtract (a b : FrameId) : Int := (a - b).toInt

/-- `is_past(f, b)` (R114). -/
def idIsPast (f b : FrameId) : Bool := decide (idSubtract f b < 0)

/-- `is_future(f, b)` (R114). -/
def idIsFuture (f b : FrameId) : Bool := decide (0 < idSubtract f b)

/-- `in_range(f, b, n)`: `f` is one of `b, inc(b), ..., add(b, n-1)` (R114). -/
def idInRange (f b : FrameId) (n : Nat) : Bool := decide (0 ≤ idSubtract f b) && decide (idSubtract f b < n)

/-- `n` ids from `a` on: `a, inc(a), ...`. -/
def idsFrom : FrameId → Nat → List FrameId
  | _, 0 => []
  | a, n + 1 => a :: idsFrom (idInc a) n

/-- `a ..< b`: `a, inc(a), ...` up to but excluding `b` (R15). -/
def idRange (a b : FrameId) : List FrameId := idsFrom a (b - a).toNat

/-- `f mod count`, the slot of a frame id (R116). -/
def slotIndex (f : FrameId) (count : BitVec 11) : Nat := f.toNat % count.toNat

/-- The least power of two from `p` on that is at least `n`, looking at `fuel` doublings. -/
def pow2CeilFrom : Nat → Nat → Nat → Nat
  | 0, p, _ => p
  | fuel + 1, p, n => if n ≤ p then p else pow2CeilFrom fuel (2 * p) n

/-- `pow2_ceil(n)`: the least power of two at least `n`, for `n ≤ 2^31` (R117). -/
def pow2Ceil (n : Nat) : Nat := pow2CeilFrom 31 1 n

/-! ### Command fields (R90) and time (R272) -/

/-- `timeout_ms = sext_64(word[59:32])` (R90), as a number. -/
def timeoutMs (tmo : BitVec 28) : Int := tmo.toInt

/-- `ms_to_ticks(ms) = (ms × TICKS_PER_SECOND) div 1000`, for `ms ≥ 0` (R272). -/
def msToTicks (p : Params) (ms : Int) : Int := ms * p.ticksPerSecond / 1000

/-- The i64 register that an exact number of ticks is written to (R11). The spec keeps every sum inside i64 (D52) and states no value for
one outside it, so that one is free (log entry 17). -/
def timeOf (t : Int) : Time :=
  if -2 ^ 63 ≤ t ∧ t < 2 ^ 63 then BitVec.ofInt 64 t else Config.timeOverflow t

/-- The smaller of two times (R13, R263). -/
def timeMin (a b : Time) : Time := if a.toInt ≤ b.toInt then a else b

/-! ### Link-control words (R63) -/

/-- `w = b0 + b1·2^8 + ... + b7·2^56` (R63, R230). -/
def packWord (b : LinkBytes) : Word64 := b.b7 ++ b.b6 ++ b.b5 ++ b.b4 ++ b.b3 ++ b.b2 ++ b.b1 ++ b.b0

/-- `Bytes(w) = [w[7:0], w[15:8], ..., w[63:56]]` (R234). -/
def wordBytes (w : Word64) : List Byte :=
  [w.extractLsb' 0 8, w.extractLsb' 8 8, w.extractLsb' 16 8, w.extractLsb' 24 8,
   w.extractLsb' 32 8, w.extractLsb' 40 8, w.extractLsb' 48 8, w.extractLsb' 56 8]

/-! ### The framer's functions (R10; log entry 4) -/

/-- `DataEncode(frame_id, metadata, payload)`. -/
def dataEncode (p : Params) (f : FrameId) (m : Metadata) (payload : List Byte) : List Byte :=
  (p.framer.dataEncode.lookup (f, m, payload)).getD (Config.dataEncode f m payload)

/-- `LinkEncode(type, frame_id)`. -/
def linkEncode (p : Params) (t : LinkType) (f : FrameId) : LinkBytes :=
  (p.framer.linkEncode.lookup (t, f)).getD (Config.linkEncode t f)

/-- `FramerParse(fs, data)`. -/
def framerParse (p : Params) (fs : FramerState) (data : List Byte) : FramerState × List FramerEvent :=
  (p.framer.parse.lookup (fs, data)).getD (Config.framerParse fs data)

/-- `FramerStatus(fs)`. -/
def framerStatus (p : Params) (fs : FramerState) : FramerCounts :=
  (p.framer.status.lookup fs).getD (Config.framerStatus fs)

/-- `FramerStatusClear(fs)`. -/
def framerStatusClear (p : Params) (fs : FramerState) : FramerState :=
  (p.framer.statusClear.lookup fs).getD (Config.framerStatusClear fs)

end Sys2Proof.Machine
end

