-- ==== Sys2Proof/Machine/Flags.lean ====
section
/-! DEFINITION. Numeric codes of statuses, events, reasons and states, and the conditions the rules test: the refusal conditions of R305,
the window predicates of R115, SEND's FULL condition, the wake condition of R263. The block has no arithmetic flags. -/

namespace Sys2Proof.Machine

/-! ### Codes -/

/-- R94. -/
def statusCode : Status → Nat
  | .success => 0
  | .parameterInvalid => 1
  | .full => 2
  | .timedOut => 3
  | .unavailable => 4

/-- R95. -/
def eventCode : EventKind → BitVec 2
  | .unknown => 0
  | .rxResetRequest => 1
  | .txDisconnected => 2
  | .txConnected => 3

/-- R305's code column, 1 to 8. -/
def reasonCode : RefuseReason → Nat
  | .reservedOpcode => 1
  | .reservedField => 2
  | .operandLength => 3
  | .notInitialized => 4
  | .alreadyInitialized => 5
  | .finalized => 6
  | .nestedCommand => 7
  | .timeRegression => 8

/-- The bit of `fault` for a reason: bit `code - 1` (R305). -/
def reasonBit (r : RefuseReason) : BitVec 8 := BitVec.ofNat 8 (2 ^ (reasonCode r - 1))

/-- R22. -/
def lifeCode : Life → BitVec 2
  | .uninit => 0
  | .active => 1
  | .finalized => 2

/-- R23. -/
def connCode : ConnState → BitVec 1
  | .disconnected => 0
  | .connected => 1

/-- R29. -/
def txStateCode : TxState → BitVec 2
  | .idle => 0
  | .pendingSend => 1
  | .sent => 2
  | .acked => 3

/-- R33. -/
def rxStateCode : RxState → BitVec 2
  | .idle => 0
  | .stored => 1
  | .nacked => 2

/-! ### Refusal conditions (R305, orders 4 to 8; orders 1 to 3 are the decoder's) -/

/-- The opcode is INIT. -/
def isInit : Instr → Bool
  | .init _ => true
  | .send _ _ _ => false
  | .txWindowSet _ => false
  | .process => false
  | .llRecv _ => false
  | .statusGet => false
  | .statusClear => false
  | .rxData _ _ _ => false
  | .rxLink _ _ => false
  | .rxLinkAckAll _ => false
  | .rxLinkAckOne _ => false
  | .rxLinkNackFrameId _ => false
  | .rxLinkNackFramingError _ => false
  | .rxLinkResetReq => false
  | .rxLinkResetRsp => false
  | .rxLinkResetOther _ => false
  | .rxFramingError => false
  | .resetTxFromEvent => false
  | .serviceInterval => false
  | .finalize => false

/-- The commands a callback handler may issue: SEND, TX_WINDOW_SET, STATUS_GET, STATUS_CLEAR, RESET_TX_FROM_EVENT and SERVICE_INTERVAL
(R309). -/
def mayNest : Instr → Bool
  | .init _ => false
  | .send _ _ _ => true
  | .txWindowSet _ => true
  | .process => false
  | .llRecv _ => false
  | .statusGet => true
  | .statusClear => true
  | .rxData _ _ _ => false
  | .rxLink _ _ => false
  | .rxLinkAckAll _ => false
  | .rxLinkAckOne _ => false
  | .rxLinkNackFrameId _ => false
  | .rxLinkNackFramingError _ => false
  | .rxLinkResetReq => false
  | .rxLinkResetRsp => false
  | .rxLinkResetOther _ => false
  | .rxFramingError => false
  | .resetTxFromEvent => true
  | .serviceInterval => true
  | .finalize => false

/-- The first condition of R305's orders 4 to 8 that refuses the command, if one does. -/
def refusalOf (i : Instr) (s : State) : Option RefuseReason :=
  if s.life = .uninit ∧ isInit i = false then some .notInitialized
  else if isInit i = true ∧ s.life ≠ .uninit then some .alreadyInitialized
  else if s.life = .finalized ∧ isInit i = false then some .finalized
  else if s.ctx.cbDepth ≠ 0 ∧ mayNest i = false then some .nestedCommand
  else if s.life = .active ∧ s.ctx.cbDepth = 0 ∧ s.port.now.toInt < s.ctx.lastNow.toInt then some .timeRegression
  else none

/-! ### Window conditions -/

/-- `tx_outstanding = subtract(tx_frame_next_id, tx_frame_last_id)` (R115). -/
def txOutstanding (t : TxUnit) : Int := idSubtract t.nextId t.lastId

/-- `tx_in_window(f)` (R115). -/
def txInWindow (t : TxUnit) (f : FrameId) : Bool :=
  decide (0 ≤ idSubtract f t.lastId) && decide (idSubtract f t.lastId < txOutstanding t)

/-- SEND's FULL condition: `out ≥ tx_frame_count or out ≥ OUTSTANDING_LIMIT` (R132, R303). -/
def txWindowFull (t : TxUnit) : Bool :=
  decide ((t.count.toNat : Int) ≤ txOutstanding t) || decide ((Config.outstandingLimit : Int) ≤ txOutstanding t)

/-- A payload length that SEND and RX_DATA accept: 1 to `PAYLOAD_MAX` (R132, R172, D9). -/
def payloadSizeOk (p : Params) (payload : List Byte) : Bool :=
  decide (payload.length ≠ 0) && decide (payload.length ≤ p.payloadMax)

/-- INIT's `Valid(cfg)`, the five tests in order (R251). -/
def cfgValid (p : Params) (c : CfgRecord) : Bool :=
  (decide (1 ≤ c.txWindowSize.toNat) && decide (1 ≤ c.rxWindowSize.toNat)) &&
  (decide (c.txWindowSize.toNat ≤ Config.txSlots) && decide (c.rxWindowSize.toNat ≤ Config.rxSlots)) &&
  (decide (c.txLinkSize.toNat ≤ p.linkDepthMax) &&
    (decide (c.txLinkSize.toNat ≠ 0) || decide (pow2Ceil c.rxWindowSize.toNat ≤ p.linkDepthMax))) &&
  decide (p.frameBytesMax ≤ c.txBufferSize.toNat) &&
  (decide (1 ≤ c.txTimeout.toInt) && decide (c.txTimeout.toInt ≤ 2 ^ 58))

/-- The times that a host keeps to: `[0, 2^62)` (R315, D52). The block does not test it (log entry 13). -/
def timeInRange (t : Time) : Bool := decide (0 ≤ t.toInt) && decide (t.toInt < 2 ^ 62)

end Sys2Proof.Machine
end

