-- ==== Sys2Proof/Machine/Ops.lean ====
section
/-! DEFINITION. The shared operations: the ports (R13), tick requests (R263), the link ring's push (R230), slot access (R116), refusals
(R305), the admission of a command, and the entry into an upper-layer callback and the return from it (R309, R310), which are the
block's trap entry and return (60_exceptions.md). -/

namespace Sys2Proof.Machine

/-! ### Output ports -/

/-- Record one port activity. -/
def emit (o : Output) (s : State) : State := { s with out := s.out ++ [o] }

/-- The command ends with a status code (R14 `return S`, R94). -/
def answer (st : Status) (s : State) : State := emit (.status st) s

/-- `LLSend(b)` for a transmission: adds to `tx_bytes` and sets `eof_pending` (R13, R36, R39). -/
def llSend (b : List Byte) (s : State) : State :=
  emit (.llSend b)
    { s with stats := { s.stats with txBytes := s.stats.txBytes + BitVec.ofNat 64 b.length }, eofPending := true }

/-- `LLSend([SOF_BYTE])`, the EOF marker: adds to `tx_bytes` and does not set `eof_pending` (R13, R237). -/
def llSendMarker (s : State) : State :=
  emit (.llSend [s.par.sofByte]) { s with stats := { s.stats with txBytes := s.stats.txBytes + 1 } }

/-- `LLAvail()`: the next answer that travels with the command, or a fresh free value where it carries none (R13, I3; log entry 6). -/
def llAvail (s : State) : Nat × State :=
  match s.port.avail with
  | a :: rest => (a.toNat, { s with port := { s.port with avail := rest } })
  | [] => ((Config.llAvail s.port.freeCtr).toNat, { s with port := { s.port with freeCtr := s.port.freeCtr + 1 } })

/-! ### Tick requests -/

/-- `RequestTick()` (R263): `tick_at <- min(tick_at, now)`, with a `wake` pulse when that lowers it outside the processing context
(R265). -/
def requestTick (s : State) : State :=
  if s.port.now.toInt < s.tickAt.toInt ∧ s.ctx.inProcess = false then
    emit .wake { s with tickAt := timeMin s.tickAt s.port.now }
  else { s with tickAt := timeMin s.tickAt s.port.now }

/-! ### The link ring -/

/-- The entry `k` places after the oldest: `(lr_head + k) mod N` (R35). -/
def ringIndex (s : State) (k : Nat) : Nat := (s.link.head.toNat + k) % s.cfg.txLinkSize.toNat

/-- `LR[i]` (R35). -/
def ringRead (s : State) (i : Nat) : Word64 := tableGet 0 s.link.ring i

/-- A push to a ring that has room: store the word behind the newest (R230). -/
def ringAppend (w : Word64) (s : State) : State :=
  { s with link := { s.link with ring := tablePut 0 s.link.ring (ringIndex s s.link.count.toNat) w,
                                 count := s.link.count + 1 } }

/-- `LinkPush(t, f)` (R230): drop and count when the ring is full (R231); request a tick when the ring was empty (R232). -/
def linkPush (t : LinkType) (f : FrameId) (s : State) : State :=
  if s.link.count = s.cfg.txLinkSize then { s with link := { s.link with drops := s.link.drops + 1 } }
  else if s.link.count + 1 = 1 then requestTick (ringAppend (packWord (linkEncode s.par t f)) s)
  else ringAppend (packWord (linkEncode s.par t f)) s

/-! ### Slots -/

/-- `TX[i]`. -/
def txSlot (s : State) (i : Nat) : TxSlot := tableGet TxSlot.zero s.tx.slots i

/-- Write `TX[i]`. -/
def setTxSlot (i : Nat) (v : TxSlot) (s : State) : State :=
  { s with tx := { s.tx with slots := tablePut TxSlot.zero s.tx.slots i v } }

/-- `tx_slot(f) = f mod tx_frame_count` (R116). -/
def txIndex (s : State) (f : FrameId) : Nat := slotIndex f s.tx.count

/-- `RX[i]`. -/
def rxSlot (s : State) (i : Nat) : RxSlot := tableGet RxSlot.zero s.rx.slots i

/-- Write `RX[i]`. -/
def setRxSlot (i : Nat) (v : RxSlot) (s : State) : State :=
  { s with rx := { s.rx with slots := tablePut RxSlot.zero s.rx.slots i v } }

/-- `rx_slot(f) = f mod cfg_rx_window_size` (R116). -/
def rxIndex (s : State) (f : FrameId) : Nat := slotIndex f s.cfg.rxWindowSize

/-- The ids in the TX window, `tx_frame_last_id ..< tx_frame_next_id`, oldest first (R115, R15). -/
def txWindow (s : State) : List FrameId := idRange s.tx.lastId s.tx.nextId

/-! ### Refusal and admission (R305) -/

/-- `raise Refuse(reason)`: no effect but the bit of `fault` (R14, R305). The refusal shows on the ports, with no status. -/
def refuse (r : RefuseReason) (s : State) : State := emit (.refused r) { s with fault := s.fault ||| reasonBit r }

/-- Run an admitted command's steps, or refuse it. An accepted command sets `last_now <- now` (R38). -/
def accept (i : Instr) (body : State → State) (s : State) : State :=
  match refusalOf i s with
  | some r => refuse r s
  | none => body { s with ctx := { s.ctx with lastNow := s.port.now } }

/-- The processing context: `in_process = 1` while `body` runs (R38, R260). -/
def inContext (body : State → State) (s : State) : State :=
  let s := body { s with ctx := { s.ctx with inProcess := true } }
  { s with ctx := { s.ctx with inProcess := false } }

/-! ### Callback entry and return (R309, R310) -/

/-- What the next callback's handler does: its script, none for a handler that is not wired (D37; log entry 7). -/
def handlerScript (s : State) : List NestedCommand := s.port.handlers.headD []

/-- Entry: the call shows on the port, `cb_depth` rises, and the handler's script is taken. Nothing is saved and nothing is masked (R309). -/
def callbackEnter (o : Output) (s : State) : State :=
  let s := emit o s
  { s with ctx := { s.ctx with cbDepth := s.ctx.cbDepth + 1 }, port := { s.port with handlers := s.port.handlers.tail } }

/-- Return: `cb_depth` falls, and the calling procedure goes on with the state the handler left (R310). -/
def callbackReturn (s : State) : State := { s with ctx := { s.ctx with cbDepth := s.ctx.cbDepth - 1 } }

/-- `Callback(c, args)`: enter, run each nested command of the handler to completion in turn, return (R309). -/
def callback (runNested : NestedCommand → State → State) (o : Output) (s : State) : State :=
  callbackReturn ((handlerScript s).foldl (fun t c => runNested c t) (callbackEnter o s))

end Sys2Proof.Machine
end

