-- ==== Sys2Proof/Machine/TxEngine.lean ====
section
/-! DEFINITION. The TX engine (41_tx_engine.md): SEND, TX_WINDOW_SET, the timeout scan, the TX deadline, retirement, and the received
acknowledgements. The transmission scan, which can reset the link, is in Facade.lean. -/

namespace Sys2Proof.Machine

/-! ### SEND (R131 to R133, R270) -/

/-- The slot a SEND fills: the encoded frame, PendingSend, `send_count` 0; the bytes behind the frame keep what they held (R132, R61). -/
def filledTxSlot (slot : TxSlot) (b : List Byte) : TxSlot :=
  { slot with state := .pendingSend, sendCount := 0, len := BitVec.ofNat 16 b.length, bytes := memWrite slot.bytes b }

/-- The state after a SEND attempt that is accepted (R132, the steps from `f <- tx_frame_next_id` on). -/
def sendAccept (m : Metadata) (payload : List Byte) (s : State) : State :=
  let f := s.tx.nextId
  let i := txIndex s f
  let s := setTxSlot i (filledTxSlot (txSlot s i) (dataEncode s.par f m payload)) s
  requestTick
    { s with tx := { s.tx with nextId := idInc f },
             conn := { s.conn with activity := true },
             stats := { s.stats with txMsgBytes := s.stats.txMsgBytes + BitVec.ofNat 64 payload.length } }

/-- The status of a SEND attempt: the tests in the source's order (R132, R312 (b), D13). -/
def sendStatus (payload : List Byte) (s : State) : Status :=
  if s.conn.state ≠ .connected then .unavailable
  else if txWindowFull s.tx = true then .full
  else if payloadSizeOk s.par payload = false then .parameterInvalid
  else .success

/-- `SendAttempt(metadata, payload)`: on any status but SUCCESS nothing is written (R132). -/
def sendAttempt (m : Metadata) (payload : List Byte) (s : State) : State :=
  if sendStatus payload s = .success then sendAccept m payload s else s

/-- Write a caller's blocking-send record, in the place of its earlier one (R42). -/
def setBSend (r : BSend) : List BSend → List BSend
  | [] => [r]
  | q :: rest => if q.caller = r.caller then r :: rest else q :: setBSend r rest

/-- A caller's blocking-send record. -/
def bsendOf (caller : Nat) (rs : List BSend) : Option BSend := rs.find? fun r => r.caller == caller

/-- One round of the blocking loop for the record `r` (R270): attempt, then end with a status, or wait SEND_POLL ticks. -/
def blockingRound (r : BSend) (s : State) : State :=
  let st := sendStatus r.payload s
  let done := { r with active := false }
  let t := sendAttempt r.metadata r.payload s
  if st ≠ .full then answer st { t with bsend := setBSend done t.bsend }
  else if s.ctx.inProcess = true then answer .full { t with bsend := setBSend done t.bsend }
  else if r.deadline.toInt ≤ s.port.now.toInt then answer .timedOut { t with bsend := setBSend done t.bsend }
  else { t with bsend := setBSend { r with nextTry := timeOf (s.port.now.toInt + s.par.sendPoll) } t.bsend }

/-- The record of a blocking SEND that starts now (R270). -/
def newBSend (tmo : BitVec 28) (m : Metadata) (payload : List Byte) (s : State) : BSend where
  caller := s.port.caller
  active := true
  start := s.port.now
  deadline := timeOf (s.port.now.toInt + msToTicks s.par (timeoutMs tmo))
  metadata := m
  payload := payload
  nextTry := s.port.now

/-- SEND's steps: one attempt when `timeout_ms ≤ 0`, the blocking procedure otherwise (R131, R270). -/
def sendBody (tmo : BitVec 28) (m : Metadata) (payload : List Byte) (s : State) : State :=
  if timeoutMs tmo ≤ 0 then answer (sendStatus payload s) (sendAttempt m payload s)
  else blockingRound (newBSend tmo m payload s) s

/-- SEND (R131, R132, R270). -/
def execSend (tmo : BitVec 28) (m : Metadata) (payload : List Byte) (s : State) : Host.Outcome State Fault Refusal :=
  .next (accept (.send tmo m payload) (sendBody tmo m payload) s)

/-- The next attempt of a blocking SEND that waits, checked like a new command (R270, R315): one whose re-sampled time lies before `last_now` is
refused, whatever the wait. An input of a caller that does not wait, or while its wait of SEND_POLL ticks is not over, is no attempt. A
refused attempt ends the SEND (log entry 12). An accepted one sets `last_now`, as an accepted command does; the spec leaves that open
(DESIGN CHOICE, log entry 25). -/
def resumeSend (s : State) : State :=
  match bsendOf s.port.caller s.bsend with
  | none => s
  | some r =>
    if r.active = false ∨ (s.ctx.lastNow.toInt ≤ s.port.now.toInt ∧ s.port.now.toInt < r.nextTry.toInt) then s
    else
      match refusalOf (.send 0 r.metadata r.payload) s with
      | some why => refuse why { s with bsend := setBSend { r with active := false } s.bsend }
      | none => blockingRound r { s with ctx := { s.ctx with lastNow := s.port.now } }

/-! ### TX_WINDOW_SET (R134 to R137) -/

/-- The window that a request of `n` gives: the least power of two at least `n`, at most the configured maximum (R136, R137). -/
def grownCount (s : State) (n : BitVec 32) : BitVec 11 :=
  if s.cfg.txFrameCountMax.toNat ≤ n.toNat then s.cfg.txFrameCountMax else BitVec.ofNat 11 (pow2Ceil n.toNat)

/-- The move of the one frame in flight from `TX[0]` to its slot under the window `c` (R136). -/
def relocate (c : BitVec 11) (s : State) : State :=
  let i := slotIndex s.tx.lastId c
  if txOutstanding s.tx = 1 ∧ i ≠ 0 then
    setTxSlot 0 { txSlot s 0 with state := .idle, sendCount := 0 } (setTxSlot i (txSlot s 0) s)
  else s

/-- The status of `TxWindowSet(n)` (R136). -/
def windowSetStatus (n : BitVec 32) (s : State) : Status :=
  if s.tx.count ≠ 1 then .parameterInvalid
  else if n = 0 then .parameterInvalid
  else .success

/-- `TxWindowSet(n)` (R136). -/
def windowSet (n : BitVec 32) (s : State) : State :=
  if windowSetStatus n s = .success then
    let c := grownCount s n
    let t := relocate c s
    { t with tx := { t.tx with count := c } }
  else s

/-- TX_WINDOW_SET's steps. -/
def windowSetBody (n : BitVec 32) (s : State) : State := answer (windowSetStatus n s) (windowSet n s)

/-- TX_WINDOW_SET (R134, R136). -/
def execTxWindowSet (n : BitVec 32) (s : State) : Host.Outcome State Fault Refusal :=
  .next (accept (.txWindowSet n) (windowSetBody n) s)

/-! ### Timeout scan and TX deadline (R138, R143) -/

/-- A frame that was sent at least `cfg_tx_timeout` ago (R138, R139 (a)). -/
def timedOut (s : State) (slot : TxSlot) : Bool :=
  decide (slot.state = .sent) && decide (s.cfg.txTimeout.toInt ≤ s.port.now.toInt - slot.lastSendTime.toInt)

/-- One turn of the timeout scan's loop (R138). -/
def timeoutOne (s : State) (f : FrameId) : State :=
  let slot := txSlot s (txIndex s f)
  if timedOut s slot = true then setTxSlot (txIndex s f) { slot with state := .pendingSend } s else s

/-- `TimeoutScan()` (R138). -/
def timeoutScan (s : State) : State := (txWindow s).foldl timeoutOne s

/-- `TxDeadline()`'s loop, `d` so far; `none` is +∞ (R143). -/
def txDeadlineFrom (s : State) : List FrameId → Option Int → Option Int
  | [], d => d
  | f :: fs, d =>
    let slot := txSlot s (txIndex s f)
    match slot.state with
    | .pendingSend => some s.port.now.toInt
    | .sent =>
      let due := slot.lastSendTime.toInt + s.cfg.txTimeout.toInt
      txDeadlineFrom s fs (some (match d with | none => due | some e => min e due))
    | .idle => txDeadlineFrom s fs d
    | .acked => txDeadlineFrom s fs d

/-- `TxDeadline()` (R143). -/
def txDeadline (s : State) : Option Int := txDeadlineFrom s (txWindow s) none

/-! ### Retirement and received acknowledgements (R144 to R151) -/

/-- `RetireHead()` (R144). -/
def retireHead (s : State) : State :=
  let i := txIndex s s.tx.lastId
  let t := setTxSlot i { txSlot s i with state := .idle, sendCount := 0 } s
  { t with tx := { t.tx with lastId := idInc s.tx.lastId },
           stats := { t.stats with txDataFrames := t.stats.txDataFrames + 1 } }

/-- Retire `k` frames. -/
def retireMany : Nat → State → State
  | 0, s => s
  | k + 1, s => retireMany k (retireHead s)

/-- Retire while the head is Acked (R148). `fuel` bounds the loop; the outstanding frames are enough, since each turn retires one. -/
def retireAcked : Nat → State → State
  | 0, s => s
  | fuel + 1, s =>
    if 0 < txOutstanding s.tx ∧ (txSlot s (txIndex s s.tx.lastId)).state = .acked then retireAcked fuel (retireHead s)
    else s

/-- `AckAll(f)` (R148). -/
def ackAll (f : FrameId) (s : State) : State :=
  if txInWindow s.tx f = false then s
  else
    let t := retireMany (idSubtract f s.tx.lastId + 1).toNat s
    retireAcked (txOutstanding t.tx).toNat t

/-- `AckOne(f)` (R146). -/
def ackOne (f : FrameId) (s : State) : State :=
  let slot := txSlot s (txIndex s f)
  if txInWindow s.tx f = false then s
  else if slot.state = .sent ∨ slot.state = .pendingSend then setTxSlot (txIndex s f) { slot with state := .acked } s
  else s

/-- `NackFrameId(f)`, which is also `NackFramingError(f)` (R150, R151). -/
def nackFrame (f : FrameId) (s : State) : State :=
  let slot := txSlot s (txIndex s f)
  if txInWindow s.tx f = false then s
  else if slot.state ≠ .idle then requestTick (setTxSlot (txIndex s f) { slot with state := .pendingSend } s)
  else s

/-- The steps of an RX command: in the processing context, ending with SUCCESS (R38, R170, R238). -/
def rxCommand (body : State → State) (s : State) : State := answer .success (inContext body s)

/-- RX_LINK.ACK_ALL (R148, R238). -/
def execRxLinkAckAll (f : FrameId) (s : State) : Host.Outcome State Fault Refusal :=
  .next (accept (.rxLinkAckAll f) (rxCommand (ackAll f)) s)

/-- RX_LINK.ACK_ONE (R146, R238). -/
def execRxLinkAckOne (f : FrameId) (s : State) : Host.Outcome State Fault Refusal :=
  .next (accept (.rxLinkAckOne f) (rxCommand (ackOne f)) s)

/-- RX_LINK.NACK_FRAME_ID (R150, R238). -/
def execRxLinkNackFrameId (f : FrameId) (s : State) : Host.Outcome State Fault Refusal :=
  .next (accept (.rxLinkNackFrameId f) (rxCommand (nackFrame f)) s)

/-- RX_LINK.NACK_FRAMING_ERROR (R151, R238). -/
def execRxLinkNackFramingError (f : FrameId) (s : State) : Host.Outcome State Fault Refusal :=
  .next (accept (.rxLinkNackFramingError f) (rxCommand (nackFrame f)) s)

end Sys2Proof.Machine
end

