-- ==== Sys2Proof/Machine/Service.lean ====
section
/-! DEFINITION. The status and service commands: STATUS_GET, STATUS_CLEAR, SERVICE_INTERVAL (R266 to R268). -/

namespace Sys2Proof.Machine

/-- The ten values of R39, in index order. -/
def statusValues (s : State) : List Word64 :=
  let c := framerStatus s.par s.fs
  [s.par.statusVersion, s.stats.rxMsgBytes, s.stats.rxDataFrames, c.totalBytes, c.ignoredBytes, c.resyncCount,
   s.stats.txBytes, s.stats.txMsgBytes, s.stats.txDataFrames, s.stats.txRetransmissions]

/-- STATUS_GET's steps: the snapshot and SUCCESS (R266, R96, R301). -/
def statusGetBody (s : State) : State := answer .success (emit (.snapshot (statusValues s)) s)

/-- `StatusClear()` (R267). -/
def statusClear (s : State) : State :=
  { s with stats := ⟨0, 0, 0, 0, 0, 0⟩, link := { s.link with drops := 0 }, fs := framerStatusClear s.par s.fs }

/-- STATUS_CLEAR's steps. -/
def statusClearBody (s : State) : State := answer .success (statusClear s)

/-- `max(0, tick_at - now)` (R268). -/
def serviceTicks (s : State) : Time := timeOf (max 0 (s.tickAt.toInt - s.port.now.toInt))

/-- SERVICE_INTERVAL's steps: the interval and SUCCESS (R268, R96, R301). -/
def serviceIntervalBody (s : State) : State := answer .success (emit (.interval (serviceTicks s)) s)

/-- STATUS_GET (R266). -/
def execStatusGet (s : State) : Host.Outcome State Fault Refusal := .next (accept .statusGet statusGetBody s)

/-- STATUS_CLEAR (R267). -/
def execStatusClear (s : State) : Host.Outcome State Fault Refusal := .next (accept .statusClear statusClearBody s)

/-- SERVICE_INTERVAL (R268). -/
def execServiceInterval (s : State) : Host.Outcome State Fault Refusal :=
  .next (accept .serviceInterval serviceIntervalBody s)

end Sys2Proof.Machine
end

