-- ==== Sys2Proof/Machine/Connection.lean ====
section
/-! DEFINITION. The connection state machine (43_connection.md): the local reset, the upper layer's callbacks with the commands nested in
them (R309), the received RESET frames, the RESET resend, RESET_TX_FROM_EVENT. -/

namespace Sys2Proof.Machine

/-! ### Local reset (R200) -/

/-- A TX slot after a local reset: Idle, `send_count` 0, the rest unchanged (R200, R43). -/
def resetTxSlot (v : TxSlot) : TxSlot := { v with state := .idle, sendCount := 0 }

/-- An RX slot after a local reset: Idle, the rest unchanged (R200, R43). -/
def resetRxSlot (v : RxSlot) : RxSlot := { v with state := .idle }

/-- The registers and arrays that `Reset()` writes before its push (R200). -/
def resetRegisters (s : State) : State :=
  { s with
    tx := ⟨0, 0, 1, tableMap TxSlot.zero resetTxSlot s.tx.slots⟩
    rx := ⟨0, 0, tableMap RxSlot.zero resetRxSlot s.rx.slots⟩
    link := { s.link with head := 0, count := 0 }
    conn := { s.conn with activity := false, state := .disconnected }
    ctx := { s.ctx with resetEpoch := s.ctx.resetEpoch + 1 } }

/-- `Reset()` up to its event: the registers, the RESET request, the time stamp (R200, C6). -/
def resetQuiet (s : State) : State :=
  let t := linkPush .reset Config.resetRequestId (resetRegisters s)
  { t with conn := { t.conn with resetTime := s.port.now } }

/-- `Reset()`, with `event` making the call to the upper layer: `TxDisconnected` if the block was Connected (R200). -/
def localResetWith (event : EventKind → State → State) (s : State) : State :=
  if s.conn.state = .connected then event .txDisconnected (resetQuiet s) else resetQuiet s

/-! ### Nested commands (R309) -/

/-- A command of a callback handler, decoded: the six that may nest run as they do at top level, the others are refused. -/
def nestedInstr (event : EventKind → State → State) (i : Instr) (s : State) : State :=
  match i with
  | .send tmo m payload => accept i (sendBody tmo m payload) s
  | .txWindowSet n => accept i (windowSetBody n) s
  | .statusGet => accept i statusGetBody s
  | .statusClear => accept i statusClearBody s
  | .resetTxFromEvent => accept i (fun t => answer .success (localResetWith event t)) s
  | .serviceInterval => accept i serviceIntervalBody s
  | .init _ => refuse ((refusalOf i s).getD .nestedCommand) s
  | .process => refuse ((refusalOf i s).getD .nestedCommand) s
  | .llRecv _ => refuse ((refusalOf i s).getD .nestedCommand) s
  | .rxData _ _ _ => refuse ((refusalOf i s).getD .nestedCommand) s
  | .rxLink _ _ => refuse ((refusalOf i s).getD .nestedCommand) s
  | .rxLinkAckAll _ => refuse ((refusalOf i s).getD .nestedCommand) s
  | .rxLinkAckOne _ => refuse ((refusalOf i s).getD .nestedCommand) s
  | .rxLinkNackFrameId _ => refuse ((refusalOf i s).getD .nestedCommand) s
  | .rxLinkNackFramingError _ => refuse ((refusalOf i s).getD .nestedCommand) s
  | .rxLinkResetReq => refuse ((refusalOf i s).getD .nestedCommand) s
  | .rxLinkResetRsp => refuse ((refusalOf i s).getD .nestedCommand) s
  | .rxLinkResetOther _ => refuse ((refusalOf i s).getD .nestedCommand) s
  | .rxFramingError => refuse ((refusalOf i s).getD .nestedCommand) s
  | .finalize => refuse ((refusalOf i s).getD .nestedCommand) s

/-- A command of a callback handler: the decoder's refusals first (R305), then the command. -/
def nestedCommand (event : EventKind → State → State) (c : NestedCommand) (s : State) : State :=
  match decode s.par.codes c.word c.operand with
  | .error r => refuse r s
  | .ok i => nestedInstr event i s

/-- `UpEvent(kind)` made from inside a callback (`cb_depth` 2). The only such call is the `TxDisconnected` of a reset that left the block
Disconnected, so no reset in its handler makes another (R38, R309): `Laws.localResetWith_disconnected`. -/
def upEventInner (k : EventKind) (s : State) : State := callback (nestedCommand fun _ t => t) (.upEvent k) s

/-- `UpEvent(kind)` (R13, R309). -/
def upEvent (k : EventKind) (s : State) : State := callback (nestedCommand upEventInner) (.upEvent k) s

/-- `UpRecv(metadata, payload)` (R13, R309). -/
def upRecv (m : Metadata) (payload : List Byte) (s : State) : State :=
  callback (nestedCommand upEventInner) (.upRecv m payload) s

/-- `Reset()`, called by a command that is not nested (R200, R201). -/
def localReset (s : State) : State := localResetWith upEvent s

/-- RESET_TX_FROM_EVENT (R209). Nested in a callback, `nestedInstr` runs it. -/
def execResetTxFromEvent (s : State) : Host.Outcome State Fault Refusal :=
  .next (accept .resetTxFromEvent (fun t => answer .success (localReset t)) s)

/-! ### Received RESET frames (R202 to R208) -/

/-- `ResetRequestWhileActive()` (R204): a reset that the handler of `RxResetRequest` made replaces the block's own (R311). -/
def resetRequestWhileActive (s : State) : State :=
  let t := upEvent .rxResetRequest s
  if t.ctx.resetEpoch = s.ctx.resetEpoch then linkPush .reset Config.resetResponseId (localReset t)
  else linkPush .reset Config.resetResponseId t

/-- `OnResetRequest()` (R203). -/
def onResetRequest (s : State) : State :=
  if s.conn.state = .disconnected ∨ s.conn.activity = false then linkPush .reset Config.resetResponseId s
  else resetRequestWhileActive s

/-- `OnResetResponse()` (R205, R206). -/
def onResetResponse (s : State) : State :=
  if s.conn.state = .connected then s
  else upEvent .txConnected { s with conn := { s.conn with state := .connected } }

/-- `OnReset(f)` (R202, R208). -/
def onReset (f : FrameId) (s : State) : State :=
  if f = Config.resetRequestId then onResetRequest s
  else if f = Config.resetResponseId then onResetResponse s
  else s

/-- RX_LINK.RESET_REQ (R203, R204). -/
def execRxLinkResetReq (s : State) : Host.Outcome State Fault Refusal :=
  .next (accept .rxLinkResetReq (rxCommand (onReset Config.resetRequestId)) s)

/-- RX_LINK.RESET_RSP (R205, R206). -/
def execRxLinkResetRsp (s : State) : Host.Outcome State Fault Refusal :=
  .next (accept .rxLinkResetRsp (rxCommand (onReset Config.resetResponseId)) s)

/-- RX_LINK.RESET_OTHER (R208). -/
def execRxLinkResetOther (f : FrameId) (s : State) : Host.Outcome State Fault Refusal :=
  .next (accept (.rxLinkResetOther f) (rxCommand (onReset f)) s)

/-! ### RESET resend (R207) -/

/-- The resend is due (R207, D26). -/
def resendDue (s : State) : Bool :=
  decide (s.conn.state = .disconnected) &&
    decide ((Config.resetResendFactor : Int) * s.cfg.txTimeout.toInt ≤ s.port.now.toInt - s.conn.resetTime.toInt)

/-- `ResetResend()` (R207). -/
def resetResend (s : State) : State :=
  if resendDue s = true then
    let t := linkPush .reset Config.resetRequestId s
    { t with conn := { t.conn with resetTime := s.port.now } }
  else s

end Sys2Proof.Machine
end

