-- ==== Sys2Proof/Machine/RxEngine.lean ====
section
/-! DEFINITION. The RX engine (42_rx_engine.md): RX_DATA with its four cases, delivery and catch-up, RX_FRAMING_ERROR. -/

namespace Sys2Proof.Machine

/-- `Deliver(metadata, payload)` up to its test (R175): the counters, then the callback. -/
def deliver (m : Metadata) (payload : List Byte) (s : State) : State :=
  upRecv m payload
    { s with stats := { s.stats with rxMsgBytes := s.stats.rxMsgBytes + BitVec.ofNat 64 payload.length,
                                     rxDataFrames := s.stats.rxDataFrames + 1 } }

/-- The slot of `rx_next_frame_id` holds the frame that is due (R175, D22). -/
def rxNextStored (s : State) : Bool :=
  let slot := rxSlot s (rxIndex s s.rx.nextId)
  decide (slot.state = .stored) && decide (slot.frameId = s.rx.nextId)

/-- The catch-up loop and its closing push (R175), `last` being the id just delivered. A reset made inside a delivery ends the command
(R311). `fuel` bounds the loop: each turn empties one slot, so the loop ends by itself within 2048 turns (log entry 16). -/
def catchUpFrom : Nat → FrameId → State → State
  | 0, last, s => linkPush .ackAll last s
  | fuel + 1, last, s =>
    if rxNextStored s = true then
      let i := rxIndex s s.rx.nextId
      let slot := rxSlot s i
      let t := deliver slot.metadata (memRead slot.payload slot.len.toNat) s
      if t.ctx.resetEpoch ≠ s.ctx.resetEpoch then t
      else
        let u := setRxSlot i { rxSlot t i with state := .idle } t
        catchUpFrom fuel u.rx.nextId { u with rx := { u.rx with nextId := idInc u.rx.nextId } }
    else linkPush .ackAll last s

/-- `CatchUp()` (R175). -/
def catchUp (s : State) : State := catchUpFrom 2048 (idDec s.rx.nextId) s

/-- What follows the delivery in `ExactMatch` (R174, D21). -/
def exactMatchTail (f : FrameId) (s : State) : State :=
  let t := { s with rx := { s.rx with nextId := idInc f } }
  if idSubtract t.rx.maxId f ≤ 0 then linkPush .ackAll f { t with rx := { t.rx with maxId := f } }
  else catchUp t

/-- `ExactMatch(f, metadata, payload)` (R174, R311). -/
def exactMatch (f : FrameId) (m : Metadata) (payload : List Byte) (s : State) : State :=
  let i := rxIndex s f
  let t := deliver m payload (setRxSlot i { rxSlot s i with state := .idle } s)
  if t.ctx.resetEpoch ≠ s.ctx.resetEpoch then t else exactMatchTail f t

/-- `PastFrame(f)` (R176). -/
def pastFrame (s : State) : State := linkPush .ackAll (idDec s.rx.nextId) s

/-- `TooFarFuture(f)` (R177). -/
def tooFarFuture (f : FrameId) (s : State) : State := linkPush .nackFrameId f s

/-- One turn of the gap walk (R178). -/
def nackGap (s : State) (g : FrameId) : State :=
  let i := rxIndex s g
  let slot := rxSlot s i
  if slot.state = .idle then linkPush .nackFrameId g (setRxSlot i { slot with state := .nacked, frameId := g } s) else s

/-- The slot that holds a stored future frame (R178, R62); the bytes behind the payload keep what they held. -/
def storedRxSlot (slot : RxSlot) (f : FrameId) (m : Metadata) (payload : List Byte) : RxSlot where
  state := .stored
  frameId := f
  metadata := m
  len := BitVec.ofNat 16 payload.length
  payload := memWrite slot.payload payload

/-- `FutureInWindow(f, metadata, payload)` (R178). -/
def futureInWindow (f : FrameId) (m : Metadata) (payload : List Byte) (s : State) : State :=
  let s := if 0 < idSubtract f s.rx.maxId then { s with rx := { s.rx with maxId := f } } else s
  let t := (idRange s.rx.nextId f).foldl nackGap s
  let i := rxIndex t f
  linkPush .ackOne f (setRxSlot i (storedRxSlot (rxSlot t i) f m payload) t)

/-- `RxData(f, metadata, payload)` (R171 to R173). -/
def rxDataProc (f : FrameId) (m : Metadata) (payload : List Byte) (s : State) : State :=
  if s.conn.state ≠ .connected then s
  else
    let t := { s with conn := { s.conn with activity := true } }
    if payloadSizeOk t.par payload = false then linkPush .nackFrameId t.rx.nextId t
    else
      let d := idSubtract f t.rx.nextId
      if d = 0 then exactMatch f m payload t
      else if d < 0 then pastFrame t
      else if (t.cfg.rxWindowSize.toNat : Int) ≤ d then tooFarFuture f t
      else futureInWindow f m payload t

/-- RX_DATA (R171). -/
def execRxData (f : FrameId) (m : Metadata) (payload : List Byte) (s : State) : Host.Outcome State Fault Refusal :=
  .next (accept (.rxData f m payload) (rxCommand (rxDataProc f m payload)) s)

/-- `RxFramingError()` (R182). -/
def rxFramingErrorProc (s : State) : State :=
  if s.conn.state ≠ .connected then s else linkPush .nackFramingError s.rx.nextId s

/-- RX_FRAMING_ERROR (R182). -/
def execRxFramingError (s : State) : Host.Outcome State Fault Refusal :=
  .next (accept .rxFramingError (rxCommand rxFramingErrorProc) s)

end Sys2Proof.Machine
end

