-- ==== Sys2Proof/Machine/LinkControl.lean ====
section
/-! DEFINITION. The link control channel (44_link_control.md): the drain, the EOF marker, the RX_LINK demultiplexer. -/

namespace Sys2Proof.Machine

/-- The bytes of `n` ring entries from index `i` on, in order: one contiguous write (R234). -/
def ringBytes (s : State) (i : Nat) : Nat → List Byte
  | 0 => []
  | n + 1 => wordBytes (ringRead s i) ++ ringBytes s (i + 1) n

/-- Send the `k` oldest words, in one write or, where they wrap past the ring's end, two, and drop them from the ring (R234). -/
def drainWords (k : Nat) (s : State) : State :=
  let k1 := min k (s.cfg.txLinkSize.toNat - s.link.head.toNat)
  let t := llSend (ringBytes s s.link.head.toNat k1) s
  let u := if k1 < k then llSend (ringBytes s 0 (k - k1)) t else t
  { u with link := { u.link with head := BitVec.ofNat 32 (ringIndex s k),
                                 count := u.link.count - BitVec.ofNat 32 k } }

/-- `LinkDrain()` (R234). -/
def linkDrain (s : State) : State :=
  if s.link.count = 0 then s
  else
    let (a, t) := llAvail s
    let k := min t.link.count.toNat (a / Config.linkWordBytes)
    if k = 0 then t else drainWords k t

/-- A frame of the window waits to be sent (R237). -/
def anyPendingSend (s : State) : Bool :=
  (txWindow s).any fun f => decide ((txSlot s (txIndex s f)).state = .pendingSend)

/-- `EofCheck()` (R237). -/
def eofCheck (s : State) : State :=
  if s.eofPending = false then s
  else if s.link.count ≠ 0 then s
  else if anyPendingSend s = true then s
  else
    let (a, t) := llAvail s
    if a < 1 then t else { llSendMarker t with eofPending := false }

/-- `RxLink(type, f)` (R238): the codes in the listed order; any other type is ignored (R239). -/
def rxLinkProc (t : BitVec 5) (f : FrameId) (s : State) : State :=
  if t = s.par.codes.ackAll then ackAll f s
  else if t = s.par.codes.ackOne then ackOne f s
  else if t = s.par.codes.nackFrameId then nackFrame f s
  else if t = s.par.codes.nackFramingError then nackFrame f s
  else if t = s.par.codes.reset then onReset f s
  else s

/-- RX_LINK (R238, R239). The rows of the five known types have meanings of their own; this row's words carry any other type. -/
def execRxLink (t : BitVec 5) (f : FrameId) (s : State) : Host.Outcome State Fault Refusal :=
  .next (accept (.rxLink t f) (rxCommand (rxLinkProc t f)) s)

end Sys2Proof.Machine
end

