-- ==== Sys2Proof/Machine/Facade.lean ====
section
/-! DEFINITION. The facade (45_facade_timer.md): INIT, LL_RECV, PROCESS with the transmission scan and the re-arm, FINALIZE. -/

namespace Sys2Proof.Machine

/-! ### INIT (R250, R251) -/

/-- The configuration registers that a valid record gives (R250, R21). -/
def cfgOf (c : CfgRecord) : Cfg where
  txFrameCountMax := BitVec.ofNat 11 (pow2Ceil c.txWindowSize.toNat)
  rxWindowSize := BitVec.ofNat 11 (pow2Ceil c.rxWindowSize.toNat)
  txLinkSize := if c.txLinkSize = 0 then BitVec.ofNat 32 (pow2Ceil c.rxWindowSize.toNat) else c.txLinkSize
  txBufferSize := c.txBufferSize
  txTimeout := c.txTimeout

/-- Every register and array that INIT loads or zeroes before its local reset (R250, R43). That reset then raises `reset_epoch` to 1, as R43,
R252 and R331 say; R38's sentence that it is 0 after INIT is read as the zero written here (log entry 24). -/
def initRegisters (c : CfgRecord) (s : State) : State :=
  { s with
    cfg := cfgOf c
    life := .active
    conn := ⟨.disconnected, false, s.conn.resetTime⟩
    tx := ⟨s.tx.lastId, s.tx.nextId, s.tx.count, []⟩
    rx := ⟨s.rx.nextId, s.rx.maxId, []⟩
    link := ⟨[], 0, 0, 0⟩
    eofPending := false
    tickAt := s.port.now
    ctx := ⟨false, 0, 0, s.port.now⟩
    stats := ⟨0, 0, 0, 0, 0, 0⟩
    fs := s.par.framer.initial }

/-- `Init(cfg)`: a configuration that is not valid writes nothing (R250, R251). -/
def initBody (c : CfgRecord) (s : State) : State :=
  if cfgValid s.par c = true then answer .success (localReset (initRegisters c s)) else answer .parameterInvalid s

/-- INIT (R250). A failed INIT leaves `last_now` alone too ("nothing written"; log entry 11). -/
def execInit (c : CfgRecord) (s : State) : Host.Outcome State Fault Refusal :=
  match refusalOf (.init c) s with
  | some r => .next (refuse r s)
  | none => .next (initBody c s)

/-! ### LL_RECV (R253, R254) -/

/-- One framer event, handled as the direct command of its kind is (R254). -/
def framerEvent (s : State) : FramerEvent → State
  | .data f m payload => rxDataProc f m payload s
  | .link t f => rxLinkProc t f s
  | .framingError => rxFramingErrorProc s

/-- `LlRecv(data)`: the events in the framer's order, each seeing the effects of the earlier ones (R253, R254). -/
def llRecvProc (data : List Byte) (s : State) : State :=
  let (fs', events) := framerParse s.par s.fs data
  events.foldl framerEvent { s with fs := fs' }

/-- LL_RECV (R253). -/
def execLlRecv (data : List Byte) (s : State) : Host.Outcome State Fault Refusal :=
  .next (accept (.llRecv data) (rxCommand (llRecvProc data)) s)

/-! ### Transmission scan (R140 to R142) -/

/-- Transmit the frame in slot `i`, if the driver has room for it (R140). -/
def transmit (i : Nat) (s : State) : State :=
  let slot := txSlot s i
  let (a, t) := llAvail s
  if a < slot.len.toNat then t
  else
    let u := if 1 ≤ slot.sendCount.toNat then
        { t with stats := { t.stats with txRetransmissions := t.stats.txRetransmissions + 1 } } else t
    setTxSlot i { slot with state := .sent, lastSendTime := s.port.now, sendCount := slot.sendCount + 1 }
      (llSend (memRead slot.bytes slot.len.toNat) u)

/-- `TxScan()`'s loop: the first PendingSend frame is sent, or, at the retry ceiling, the link is reset (R140, R141). -/
def txScanFrom (s : State) : List FrameId → State
  | [] => s
  | f :: fs =>
    let slot := txSlot s (txIndex s f)
    if slot.state = .pendingSend then
      if Config.retryMax ≤ slot.sendCount.toNat then localReset s else transmit (txIndex s f) s
    else txScanFrom s fs

/-- `TxScan()` (R140). -/
def txScan (s : State) : State := txScanFrom s (txWindow s)

/-! ### Re-arm (R261, R262) -/

/-- The smaller of a deadline, `none` being +∞, and a time. -/
def minDeadline (d : Option Int) (t : Int) : Option Int :=
  match d with
  | none => some t
  | some e => some (min e t)

/-- `NextDeadline()` (R261). -/
def nextDeadline (s : State) : Int :=
  let d := txDeadline s
  let d := if s.link.count ≠ 0 ∨ s.eofPending = true then minDeadline d s.port.now.toInt else d
  let d := if s.conn.state = .disconnected then
      minDeadline d (s.conn.resetTime.toInt + (Config.resetResendFactor : Int) * s.cfg.txTimeout.toInt) else d
  d.getD (s.port.now.toInt + s.cfg.txTimeout.toInt)

/-- `Rearm()`: `tick_at <- max(NextDeadline(), now + MIN_INTERVAL)` (R262). -/
def rearm (s : State) : State :=
  { s with tickAt := timeOf (max (nextDeadline s) (s.port.now.toInt + s.par.minInterval)) }

/-! ### PROCESS (R260) -/

/-- `Process()`'s six steps, in order (R260). -/
def processSteps (s : State) : State := rearm (eofCheck (txScan (linkDrain (timeoutScan (resetResend s)))))

/-- PROCESS (R260). -/
def execProcess (s : State) : Host.Outcome State Fault Refusal :=
  .next (accept .process (fun t => answer .success (inContext processSteps t)) s)

/-! ### FINALIZE (R269) -/

/-- `Finalize()`. -/
def finalizeBody (s : State) : State := answer .success { s with life := .finalized }

/-- FINALIZE (R269). -/
def execFinalize (s : State) : Host.Outcome State Fault Refusal := .next (accept .finalize finalizeBody s)

end Sys2Proof.Machine
end

