-- ==== Sys2Proof/Machine/Dispatch.lean ====
section
/-! DEFINITION. One arm per instruction: the meaning of each row of opcode_table.json. -/

namespace Sys2Proof.Machine

def exec (i : Instr) (s : State) : Host.Outcome State Fault Refusal :=
  match i with
  | .init config => Sys2Proof.Machine.execInit config s
  | .send tmo metadata payload => Sys2Proof.Machine.execSend tmo metadata payload s
  | .txWindowSet n => Sys2Proof.Machine.execTxWindowSet n s
  | .process => Sys2Proof.Machine.execProcess s
  | .llRecv data => Sys2Proof.Machine.execLlRecv data s
  | .statusGet => Sys2Proof.Machine.execStatusGet s
  | .statusClear => Sys2Proof.Machine.execStatusClear s
  | .rxData frameId metadata payload => Sys2Proof.Machine.execRxData frameId metadata payload s
  | .rxLink typeCode frameId => Sys2Proof.Machine.execRxLink typeCode frameId s
  | .rxLinkAckAll frameId => Sys2Proof.Machine.execRxLinkAckAll frameId s
  | .rxLinkAckOne frameId => Sys2Proof.Machine.execRxLinkAckOne frameId s
  | .rxLinkNackFrameId frameId => Sys2Proof.Machine.execRxLinkNackFrameId frameId s
  | .rxLinkNackFramingError frameId => Sys2Proof.Machine.execRxLinkNackFramingError frameId s
  | .rxLinkResetReq => Sys2Proof.Machine.execRxLinkResetReq s
  | .rxLinkResetRsp => Sys2Proof.Machine.execRxLinkResetRsp s
  | .rxLinkResetOther frameId => Sys2Proof.Machine.execRxLinkResetOther frameId s
  | .rxFramingError => Sys2Proof.Machine.execRxFramingError s
  | .resetTxFromEvent => Sys2Proof.Machine.execResetTxFromEvent s
  | .serviceInterval => Sys2Proof.Machine.execServiceInterval s
  | .finalize => Sys2Proof.Machine.execFinalize s

end Sys2Proof.Machine
end

