-- ==== Sys2Proof/Machine/Fetch.lean ====
section
/-! DEFINITION. The command port: how an input is taken from the queue, and how a command word and its operand become an instruction that
runs or a refusal (R80, R82, R305). -/

namespace Sys2Proof.Machine

/-- Take the input at the head of the queue: what travels with it is latched, the rest of the queue stays (log entry 5). -/
def latch (e : Env) (rest : List Input) (s : State) : State :=
  { s with inq := rest,
           port := { s.port with now := e.now, caller := e.caller, avail := e.avail, handlers := e.handlers } }

/-- Run the command word `w` with its operand: the decoder's refusals (R305, orders 1 to 3), or the instruction. -/
def runWord (w : Word64) (operand : Operand) (s : State) : Host.Outcome State Fault Refusal :=
  match decode s.par.codes w operand with
  | .error r => .next (refuse r s)
  | .ok i => exec i s

/-- One input. R305 is its only gate: a time that goes back is refused there like any other misuse, and no time stops the block (R315; log
entry 13). -/
def runInput (x : Input) (rest : List Input) (s : State) : Host.Outcome State Fault Refusal :=
  match x with
  | .command w operand e => runWord w operand (latch e rest s)
  | .attempt e => .next (resumeSend (latch e rest s))

/-- Put a command at the head of the port's queue, at the time of the last accepted one. -/
def present (w : Word64) (operand : Operand) (s : State) : State :=
  { s with inq := .command w operand ⟨s.ctx.lastNow, 0, [], []⟩ :: s.inq }

end Sys2Proof.Machine
end

