-- ==== Sys2Proof/Machine/Step.lean ====
section
/-! DEFINITION. One step: the block takes one input from its command port, or holds its state where none waits (R322). -/

namespace Sys2Proof.Machine

/-- One input to completion (R3, R69). -/
def step (s : State) : Host.Outcome State Fault Refusal :=
  match s.inq with
  | [] => .next s
  | x :: rest => runInput x rest s

/-- The state in which the very next step runs the table's word `w` (its low `nbits` bits), with an operand of zeros of the length the
word states. Nothing but the port's queue changes (log entry 5). -/
def State.withFetchWord (s : State) (nbits w : Nat) : State :=
  present (tableWord nbits w) (zeroOperand (tableWord nbits w)) s

end Sys2Proof.Machine
end

