-- ==== Sys2Proof/Safety.lean ====
section
/-! DEFINITION. What a good state and a good run are, in the terms the statements use: no refusal recorded (R41), nothing in progress
between commands (R38), and the invariants of the configuration (R21), the TX unit (R30), the RX unit (R34), the ring (R35) and the
memories' form. -/

namespace Sys2Proof.Machine

/-- No refusal has been recorded (R41). -/
def NoFault (s : State) : Prop := s.fault = 0

/-- Between commands: no processing context, no callback in progress (R38). -/
def Quiescent (s : State) : Prop := s.ctx.inProcess = false ∧ s.ctx.cbDepth = 0

/-- The configuration registers' legal values after INIT (R21). -/
def CfgInv (s : State) : Prop :=
  (∃ k, k ≤ 10 ∧ s.cfg.txFrameCountMax.toNat = 2 ^ k) ∧
  (∃ k, k ≤ 10 ∧ s.cfg.rxWindowSize.toNat = 2 ^ k) ∧
  (1 ≤ s.cfg.txLinkSize.toNat ∧ s.cfg.txLinkSize.toNat ≤ s.par.linkDepthMax) ∧
  s.par.frameBytesMax ≤ s.cfg.txBufferSize.toNat ∧
  (1 ≤ s.cfg.txTimeout.toInt ∧ s.cfg.txTimeout.toInt ≤ 2 ^ 58)

/-- The TX window is a power of two, 1 to `cfg_tx_frame_count_max` (R28). -/
def TxCountInv (s : State) : Prop :=
  (∃ k, s.tx.count.toNat = 2 ^ k) ∧ s.tx.count.toNat ≤ s.cfg.txFrameCountMax.toNat

/-- R30: the outstanding frames are within the window and the limit; exactly the slots of the window's ids are not Idle; while
Disconnected nothing is outstanding. -/
def TxInv (s : State) : Prop :=
  (0 ≤ txOutstanding s.tx ∧ txOutstanding s.tx ≤ min (s.tx.count.toNat : Int) Config.outstandingLimit) ∧
  (∀ i, (txSlot s i).state ≠ .idle ↔ ∃ f ∈ txWindow s, txIndex s f = i) ∧
  (s.conn.state = .disconnected → txOutstanding s.tx = 0)

/-- R34: every RX slot that is not Idle holds an id of the RX window and sits at that id's index. -/
def RxInv (s : State) : Prop :=
  ∀ i, (rxSlot s i).state ≠ .idle →
    idInRange (rxSlot s i).frameId s.rx.nextId s.cfg.rxWindowSize.toNat = true ∧ rxIndex s (rxSlot s i).frameId = i

/-- R35: the ring's head and count are within its size. -/
def RingInv (s : State) : Prop :=
  s.link.head.toNat < s.cfg.txLinkSize.toNat ∧ s.link.count.toNat ≤ s.cfg.txLinkSize.toNat

/-- Every memory has its canonical form (log entry 15). -/
def MemoryInv (s : State) : Prop :=
  tableWf TxSlot.zero s.tx.slots = true ∧ tableWf RxSlot.zero s.rx.slots = true ∧ tableWf 0 s.link.ring = true ∧
  (∀ i, Memory.wf (txSlot s i).bytes = true) ∧ (∀ i, Memory.wf (rxSlot s i).payload = true)

/-- `last_now`, `reset_time` and every `last_send_time` lie in `[0, 2^62)` (R315, D52). -/
def TimeInv (s : State) : Prop :=
  timeInRange s.ctx.lastNow = true ∧ timeInRange s.conn.resetTime = true ∧
  ∀ i, timeInRange (txSlot s i).lastSendTime = true

/-- Every slot's `send_count` is at most `RETRY_MAX` (R141). -/
def RetryInv (s : State) : Prop := ∀ i, (txSlot s i).sendCount.toNat ≤ Config.retryMax

/-- The protocol state of a block that INIT has set up. -/
def ProtocolInv (s : State) : Prop := CfgInv s ∧ TxCountInv s ∧ TxInv s ∧ RxInv s ∧ RingInv s

/-- The invariant of the whole block: nothing to say of the protocol state before INIT (R43). -/
def BlockInv (s : State) : Prop := Quiescent s ∧ MemoryInv s ∧ (s.life ≠ .uninit → ProtocolInv s)

/-- What R10 requires of the framer's functions: an encoded data frame is longer than its payload and at most `FRAME_BYTES_MAX`, and
`LinkEncode` is injective. No statement needs it (log entry 4). -/
def FramerLegal (p : Params) : Prop :=
  (∀ (f : FrameId) (m : Metadata) (x : List Byte), payloadSizeOk p x = true →
    x.length + 1 ≤ (dataEncode p f m x).length ∧ (dataEncode p f m x).length ≤ p.frameBytesMax) ∧
  (∀ (t u : LinkType) (f g : FrameId), linkEncode p t f = linkEncode p u g → t = u ∧ f = g)

/-! ### The terms the statements are written in -/

/-- A command that is not INIT is accepted at top level (R305): Active, no callback in progress, time not going back. -/
def Ready (s : State) : Prop := s.life = .active ∧ s.ctx.cbDepth = 0 ∧ s.ctx.lastNow.toInt ≤ s.port.now.toInt

/-- A command that may nest is accepted, at top level or inside a callback (R305, R309, R315). -/
def ReadyNested (s : State) : Prop :=
  s.life = .active ∧ (s.ctx.cbDepth = 0 → s.ctx.lastNow.toInt ≤ s.port.now.toInt)

/-- The state in which an accepted command runs: `last_now <- now` (R38). -/
def accepted (s : State) : State := { s with ctx := { s.ctx with lastNow := s.port.now } }

/-- The state in which an accepted command of the processing context runs (R38). -/
def entered (s : State) : State := { s with ctx := { s.ctx with lastNow := s.port.now, inProcess := true } }

/-- The end of a command of the processing context: `in_process <- 0`, SUCCESS (R38, R260). -/
def completed (s : State) : State :=
  { s with ctx := { s.ctx with inProcess := false }, out := s.out ++ [.status .success] }

/-- The queued link-control words, oldest first (R35). -/
def ringWords (s : State) : List Word64 := (List.range s.link.count.toNat).map fun k => ringRead s (ringIndex s k)

/-- The word that carries a link type and a frame id (R63). -/
def linkWord (s : State) (t : LinkType) (f : FrameId) : Word64 := packWord (linkEncode s.par t f)

/-- Push several words, in order. -/
def pushAll (ws : List (LinkType × FrameId)) (s : State) : State := ws.foldl (fun t w => linkPush w.1 w.2 t) s

/-- The reserved bits of each opcode's format, read off the tables R83 to R89. -/
def reservedMask (op : Nat) : Word64 :=
  match op with
  | 0x2 => 0
  | 0x3 => 0x0FFFFFFF00000000
  | 0x5 => 0x0FFFFFFF00000000
  | 0x8 => 0x0FFFF80000000000
  | 0x9 => 0x0FFFF800FFE0FFFF
  | _ => 0x0FFFFFFFFFFFFFFF

/-- The operand length that a word states: bits 31:16 for SEND and RX_DATA, bits 31:0 for LL_RECV, none otherwise (R83 to R90); INIT's operand is
its record. -/
def statedLength (w : Word64) : Nat :=
  match w.toNat / 2 ^ 60 with
  | 0x2 => w.toNat / 2 ^ 16 % 2 ^ 16
  | 0x5 => w.toNat % 2 ^ 32
  | 0x8 => w.toNat / 2 ^ 16 % 2 ^ 16
  | _ => 0

/-- The operand is the one that the word names: the record for INIT, and otherwise as many bytes as the word states (R80, R86, R90). -/
def statedOperand (w : Word64) (x : Operand) : Prop :=
  match x with
  | .record _ => w.toNat / 2 ^ 60 = 0x1
  | .bytes data => w.toNat / 2 ^ 60 ≠ 0x1 ∧ data.length = statedLength w

/-- A command of a handler's script, as the port runs it: the decoder's refusals, then the instruction (R305, R309). -/
def runScripted (c : NestedCommand) (s : State) : State :=
  match decode s.par.codes c.word c.operand with
  | .error r => refuse r s
  | .ok i =>
    match exec i s with
    | .next t => t
    | .fault _ => s
    | .refused _ => s

/-- The state in which a handler starts: the call is on the port, `cb_depth` is one higher, the handler's script is taken (R309). -/
def called (o : Output) (s : State) : State :=
  { s with out := s.out ++ [o], ctx := { s.ctx with cbDepth := s.ctx.cbDepth + 1 },
           port := { s.port with handlers := s.port.handlers.tail } }

end Sys2Proof.Machine
end

