-- ==== Sys2Proof/Certificates/Slice0/Obligations.lean ====
section
/-! DEFINITION. The statements for the provers. Each says which rule of spec/ it formalises; the terms are those of Sys2Proof/Safety.lean. -/

open Sys2Proof Sys2Proof.Machine

/-! ### Frame ids (40_frame_id.md) -/

/-- R112, R113: `subtract` is the signed 11-bit difference, and its four laws. -/
def Obligations.SubtractIsTheSignedDifference : Prop :=
  (∀ a b : FrameId, idSubtract a b =
      (if 1024 ≤ ((a.toNat : Int) - b.toNat) % 2048 then ((a.toNat : Int) - b.toNat) % 2048 - 2048
       else ((a.toNat : Int) - b.toNat) % 2048)) ∧
  (∀ a b : FrameId, -1024 ≤ idSubtract a b ∧ idSubtract a b ≤ 1023) ∧
  (∀ a : FrameId, idSubtract a a = 0) ∧
  (∀ a b : FrameId, ((a.toNat : Int) - b.toNat) % 2048 ≠ 1024 → idSubtract a b = -idSubtract b a) ∧
  (∀ a b : FrameId, ((a.toNat : Int) - b.toNat) % 2048 = 1024 → idSubtract a b = -1024 ∧ idSubtract b a = -1024) ∧
  (∀ (b : FrameId) (k : Int), -1024 ≤ k → k ≤ 1023 → idSubtract (idAdd b k) b = k) ∧
  idSubtract 0 2047 = 1 ∧ idSubtract 2047 0 = -1

/-- R116: the slot of a frame id, for a window that is a power of two not above 1024, is the masked id, and `inc` commutes with it; in both
units. -/
def Obligations.SlotIndexMasksAndCommutesWithInc : Prop :=
  ∀ (s : State) (k : Nat) (f : FrameId), k ≤ 10 →
    (s.tx.count.toNat = 2 ^ k →
      txIndex s f = f.toNat % 2 ^ k ∧ txIndex s f = f.toNat &&& (s.tx.count.toNat - 1) ∧
      txIndex s (idInc f) = (txIndex s f + 1) % 2 ^ k) ∧
    (s.cfg.rxWindowSize.toNat = 2 ^ k →
      rxIndex s f = f.toNat % 2 ^ k ∧ rxIndex s (idInc f) = (rxIndex s f + 1) % 2 ^ k)

/-- R117: `pow2_ceil(n)` is the least power of two that is at least `n`, for `1 ≤ n ≤ 2^31`. -/
def Obligations.Pow2CeilIsTheLeastPowerOfTwo : Prop :=
  ∀ n : Nat, 1 ≤ n → n ≤ 2 ^ 31 →
    ∃ k, pow2Ceil n = 2 ^ k ∧ n ≤ 2 ^ k ∧ ∀ j, n ≤ 2 ^ j → 2 ^ k ≤ 2 ^ j

/-- R63: the packed word has the first wire byte in its lowest bits, and the drain's bytes of a word are the wire bytes in order. -/
def Obligations.LinkWordKeepsTheWireOrder : Prop :=
  ∀ b : LinkBytes,
    (packWord b).toNat = b.b0.toNat + b.b1.toNat * 2 ^ 8 + b.b2.toNat * 2 ^ 16 + b.b3.toNat * 2 ^ 24 +
      b.b4.toNat * 2 ^ 32 + b.b5.toNat * 2 ^ 40 + b.b6.toNat * 2 ^ 48 + b.b7.toNat * 2 ^ 56 ∧
    wordBytes (packWord b) = [b.b0, b.b1, b.b2, b.b3, b.b4, b.b5, b.b6, b.b7]

/-! ### Encoding (30_encoding.md) -/

/-- Decoding what the encoder writes gives the instruction back, for every well-formed instruction and every legal set of type codes. -/
def Obligations.DecodeOfEncodeIsTheInstruction : Prop :=
  ∀ (c : LinkCodes) (i : Instr), c.legal = true → i.wellFormed c = true →
    decode c (encode c i).1 (encode c i).2 = .ok i

/-- A command word and operand that decode have one reading: the instruction is well-formed and encodes to exactly them. -/
def Obligations.DecodedCommandsHaveOneEncoding : Prop :=
  ∀ (c : LinkCodes) (w : Word64) (operand : Operand) (i : Instr), decode c w operand = .ok i →
    encode c i = (w, operand) ∧ i.wellFormed c = true

/-- R99: the encoding examples, under the default type codes. -/
def Obligations.EncodingExamplesDecode : Prop :=
  decode LinkCodes.default 0x2000000000080001 (.bytes [1, 2, 3, 4, 5, 6, 7, 8]) = .ok (.send 0 1 [1, 2, 3, 4, 5, 6, 7, 8]) ∧
  decode LinkCodes.default 0x2FFFFFFF0003BEEF (.bytes [1, 2, 3]) = .ok (.send (BitVec.ofInt 28 (-1)) 0xBEEF [1, 2, 3]) ∧
  decode LinkCodes.default 0x3000000000000008 (.bytes []) = .ok (.txWindowSet 8) ∧
  decode LinkCodes.default 0x4000000000000000 (.bytes []) = .ok .process ∧
  decode LinkCodes.default 0x8000000200040000 (.bytes [1, 2, 3, 4]) = .ok (.rxData 2 0 [1, 2, 3, 4]) ∧
  decode LinkCodes.default 0x900007FF000F0000 (.bytes []) = .ok (.rxLinkAckAll 0x7FF) ∧
  decode LinkCodes.default 0x90000000001E0000 (.bytes []) = .ok .rxLinkResetReq ∧
  decode LinkCodes.default 0x90000001001E0000 (.bytes []) = .ok .rxLinkResetRsp

/-- R91: a reserved opcode, a reserved bit and an operand that is not the one the word states are refused, in that order, at every time, and
change nothing but `fault` (and what shows on the ports); any other command decodes. -/
def Obligations.MalformedCommandsAreRefused : Prop :=
  ∀ (s : State) (w : Word64) (operand : Operand) (e : Env) (rest : List Input),
    s.inq = .command w operand e :: rest →
    let t := latch e rest s
    let op := w.toNat / 2 ^ 60
    let reservedOpcode : Prop := op = 0x0 ∨ op = 0xE ∨ op = 0xF
    let reservedField : Prop := w &&& reservedMask op ≠ 0
    (reservedOpcode →
      step s = .next { t with fault := t.fault ||| 1, out := t.out ++ [.refused .reservedOpcode] }) ∧
    (¬ reservedOpcode → reservedField →
      step s = .next { t with fault := t.fault ||| 2, out := t.out ++ [.refused .reservedField] }) ∧
    (¬ reservedOpcode → ¬ reservedField → ¬ statedOperand w operand →
      step s = .next { t with fault := t.fault ||| 4, out := t.out ++ [.refused .operandLength] }) ∧
    (¬ reservedOpcode → ¬ reservedField → statedOperand w operand →
      ∃ i, decode s.par.codes w operand = .ok i)

/-! ### The port, refusals and what no command changes -/

/-- One step takes one input: an empty port leaves the state as it is (R322); a decoded command, whatever its time, runs as `exec` of it on the
state with the input latched. -/
def Obligations.StepRunsTheDecodedCommand : Prop :=
  (∀ s : State, s.inq = [] → step s = .next s) ∧
  (∀ (s : State) (w : Word64) (operand : Operand) (e : Env) (rest : List Input) (i : Instr),
    s.inq = .command w operand e :: rest → decode s.par.codes w operand = .ok i →
    step s = exec i { s with inq := rest, port := ⟨e.now, e.caller, e.avail, e.handlers, s.port.freeCtr⟩ })

/-- The model's reading: no input stops the block, since a refusal is a next state (log entry 10, where R14 says that a model treats it as a fault)
and a time outside 0 to 2^62 is taken (log entry 13). And the rule of R305 and R315: a command whose time lies before `last_now`, a negative
one among them, is refused with `TimeRegression` and changes nothing else (D51). -/
def Obligations.NoInputStopsTheBlock : Prop :=
  (∀ s : State, ∃ t, step s = .next t) ∧
  (∀ (s : State) (w : Word64) (operand : Operand) (e : Env) (rest : List Input) (i : Instr),
    s.inq = .command w operand e :: rest → decode s.par.codes w operand = .ok i → (∀ c, i ≠ .init c) →
    s.life = .active → s.ctx.cbDepth = 0 → e.now.toInt < s.ctx.lastNow.toInt →
    step s = .next { latch e rest s with fault := s.fault ||| 128, out := s.out ++ [.refused .timeRegression] })

/-- R305, orders 4 to 8: which refusal each instruction meets, in the order of the table; it adds its bit to `fault` and changes nothing else
(the refusal shows on the ports). -/
def Obligations.RefusalConditionsInOrder : Prop :=
  ∀ (i : Instr) (s : State),
    let refusedWith (bit : BitVec 8) (r : RefuseReason) : Prop :=
      exec i s = .next { s with fault := s.fault ||| bit, out := s.out ++ [.refused r] }
    let nestable : Prop :=
      (∃ t m p, i = .send t m p) ∨ (∃ n, i = .txWindowSet n) ∨ i = .statusGet ∨ i = .statusClear ∨
        i = .resetTxFromEvent ∨ i = .serviceInterval
    ((∀ c, i ≠ .init c) → s.life = .uninit → refusedWith 8 .notInitialized) ∧
    ((∃ c, i = .init c) → s.life ≠ .uninit → refusedWith 16 .alreadyInitialized) ∧
    ((∀ c, i ≠ .init c) → s.life = .finalized → refusedWith 32 .finalized) ∧
    ((∃ c, i = .init c) → s.life = .uninit → s.ctx.cbDepth ≠ 0 → refusedWith 64 .nestedCommand) ∧
    ((∀ c, i ≠ .init c) → s.life = .active → s.ctx.cbDepth ≠ 0 → ¬ nestable → refusedWith 64 .nestedCommand) ∧
    ((∀ c, i ≠ .init c) → s.life = .active → s.ctx.cbDepth = 0 → s.port.now.toInt < s.ctx.lastNow.toInt →
      refusedWith 128 .timeRegression)

/-- R41: `fault` is empty at power-on, every refusal adds its bit, and no step removes one. -/
def Obligations.FaultIsNeverCleared : Prop :=
  State.reset.fault = 0 ∧
  (∀ (r : RefuseReason) (s : State), (refuse r s).fault = s.fault ||| BitVec.ofNat 8 (2 ^ (reasonCode r - 1))) ∧
  (∀ s t : State, step s = .next t → t.fault &&& s.fault = s.fault)

/-- R22: the lifecycle moves only from Uninit to Active by INIT and from Active to Finalized by FINALIZE, and any other command while not
Active is refused. -/
def Obligations.LifecycleMovesOnlyForward : Prop :=
  ∀ (i : Instr) (s t : State), exec i s = .next t →
    (t.life = s.life ∨ (s.life = .uninit ∧ t.life = .active ∧ ∃ c, i = .init c) ∨
      (s.life = .active ∧ t.life = .finalized ∧ i = .finalize)) ∧
    (((∀ c, i ≠ .init c) ∧ s.life ≠ .active ∨ (∃ c, i = .init c) ∧ s.life ≠ .uninit) →
      ∃ r, t = { s with fault := s.fault ||| reasonBit r, out := s.out ++ [.refused r] })

/-- The parameters never change (R45), the configuration registers change at no step once INIT has written them (R21), and what has left on
the output ports stays (R70). -/
def Obligations.StepKeepsParametersConfigurationAndPastOutputs : Prop :=
  ∀ s t : State, step s = .next t →
    t.par = s.par ∧ (s.life ≠ .uninit → t.cfg = s.cfg) ∧ ∃ o, t.out = s.out ++ o

/-! ### Invariants -/

/-- Power-on (R330, R43): Uninit, no fault, no input waiting; and the block's invariants hold there. -/
def Obligations.PowerOnMeetsTheInvariants : Prop :=
  State.reset.life = .uninit ∧ State.reset.fault = 0 ∧ State.reset.inq = [] ∧
    BlockInv State.reset ∧ TimeInv State.reset ∧ RetryInv State.reset

/-- R38: no processing context and no callback is left open between commands. -/
def Obligations.StepKeepsQuiescence : Prop :=
  ∀ s t : State, Quiescent s → step s = .next t → Quiescent t

/-- Every memory keeps its canonical form (the model's form, log entry 15). -/
def Obligations.StepKeepsMemoryForm : Prop :=
  ∀ s t : State, MemoryInv s → step s = .next t → MemoryInv t

/-- R35: the ring's head and count stay within its size. -/
def Obligations.StepKeepsRingBounds : Prop :=
  ∀ s t : State, (s.life ≠ .uninit → RingInv s) → step s = .next t → t.life ≠ .uninit → RingInv t

/-- R30, with R21 and R28: the TX invariants, kept by every step, callbacks included. -/
def Obligations.StepKeepsTxInvariants : Prop :=
  ∀ s t : State, (s.life ≠ .uninit → CfgInv s ∧ TxCountInv s ∧ TxInv s) → step s = .next t →
    t.life ≠ .uninit → CfgInv t ∧ TxCountInv t ∧ TxInv t

/-- R34: the RX invariants, kept by every step, callbacks included. -/
def Obligations.StepKeepsRxInvariants : Prop :=
  ∀ s t : State, (s.life ≠ .uninit → CfgInv s ∧ RxInv s) → step s = .next t →
    t.life ≠ .uninit → CfgInv t ∧ RxInv t ∧ ∀ i, t.cfg.rxWindowSize.toNat ≤ i → (rxSlot t i).state = .idle

/-- R141, the bound on the register: every slot's `send_count` stays at most `RETRY_MAX` at every step. -/
def Obligations.StepKeepsRetryCeiling : Prop :=
  ∀ s t : State, RetryInv s → step s = .next t → RetryInv t

/-- R315, D52: while the inputs' times lie in `[0, 2^62)`, as the host's must, so do the times the block records: `last_now`, `reset_time` and every
`last_send_time`. -/
def Obligations.StepKeepsTimesInRange : Prop :=
  ∀ s t : State, TimeInv s → (∀ x ∈ s.inq.head?, timeInRange x.env.now = true) → step s = .next t → TimeInv t

/-! ### SEND and TX_WINDOW_SET (41_tx_engine.md) -/

/-- R132: a SEND with `timeout_ms ≤ 0` makes one attempt; its statuses in order, and the effect of the accepted one. -/
def Obligations.SendMakesOneAttempt : Prop :=
  ∀ (s : State) (tmo : BitVec 28) (m : Metadata) (p : List Byte), ReadyNested s → tmo.toInt ≤ 0 →
    let outstanding := idSubtract s.tx.nextId s.tx.lastId
    let f := s.tx.nextId
    let i := f.toNat % s.tx.count.toNat
    let b := dataEncode s.par f m p
    if s.conn.state ≠ .connected then
      exec (.send tmo m p) s = .next { accepted s with out := s.out ++ [.status .unavailable] }
    else if (s.tx.count.toNat : Int) ≤ outstanding ∨ 1023 ≤ outstanding then
      exec (.send tmo m p) s = .next { accepted s with out := s.out ++ [.status .full] }
    else if p.length = 0 ∨ s.par.payloadMax < p.length then
      exec (.send tmo m p) s = .next { accepted s with out := s.out ++ [.status .parameterInvalid] }
    else ∃ (slots : List (Nat × TxSlot)) (bytes : Memory),
      exec (.send tmo m p) s = .next
        { accepted s with
          tx := { s.tx with nextId := f + 1, slots := slots }
          conn := { s.conn with activity := true }
          stats := { s.stats with txMsgBytes := s.stats.txMsgBytes + BitVec.ofNat 64 p.length }
          tickAt := if s.tickAt.toInt ≤ s.port.now.toInt then s.tickAt else s.port.now
          out := s.out ++ (if s.port.now.toInt < s.tickAt.toInt ∧ s.ctx.inProcess = false then [.wake] else []) ++
            [.status .success] } ∧
      (∀ j, tableGet TxSlot.zero slots j =
        if j = i then { txSlot s i with state := .pendingSend, sendCount := 0, len := BitVec.ofNat 16 b.length, bytes := bytes }
        else txSlot s j) ∧
      ∀ k, Memory.read bytes k = if k < b.length then b.getD k 0 else Memory.read (txSlot s i).bytes k

/-- R270, R271 (a), with the record of log entry 12: a SEND with `timeout_ms > 0` ends like a non-blocking one unless the window is full; then
it ends with FULL in the processing context, with TIMED_OUT at its deadline, and else waits with no status. -/
def Obligations.BlockingSendEndsOrWaits : Prop :=
  ∀ (s : State) (tmo : BitVec 28) (m : Metadata) (p : List Byte), ReadyNested s → 0 < tmo.toInt →
    let deadline : Time := timeOf (s.port.now.toInt + tmo.toInt * s.par.ticksPerSecond / 1000)
    let full : Prop := s.conn.state = .connected ∧
      ((s.tx.count.toNat : Int) ≤ idSubtract s.tx.nextId s.tx.lastId ∨ 1023 ≤ idSubtract s.tx.nextId s.tx.lastId)
    ∃ recs : List BSend,
      (∀ c, c ≠ s.port.caller → bsendOf c recs = bsendOf c s.bsend) ∧
      (¬ full → bsendOf s.port.caller recs = some ⟨s.port.caller, false, s.port.now, deadline, m, p, s.port.now⟩ ∧
        ∃ t, exec (.send 0 m p) s = .next t ∧ exec (.send tmo m p) s = .next { t with bsend := recs }) ∧
      (full → s.ctx.inProcess = true →
        bsendOf s.port.caller recs = some ⟨s.port.caller, false, s.port.now, deadline, m, p, s.port.now⟩ ∧
        exec (.send tmo m p) s = .next { accepted s with bsend := recs, out := s.out ++ [.status .full] }) ∧
      (full → s.ctx.inProcess = false → deadline.toInt ≤ s.port.now.toInt →
        bsendOf s.port.caller recs = some ⟨s.port.caller, false, s.port.now, deadline, m, p, s.port.now⟩ ∧
        exec (.send tmo m p) s = .next { accepted s with bsend := recs, out := s.out ++ [.status .timedOut] }) ∧
      (full → s.ctx.inProcess = false → s.port.now.toInt < deadline.toInt →
        bsendOf s.port.caller recs = some ⟨s.port.caller, true, s.port.now, deadline, m, p,
          timeOf (s.port.now.toInt + s.par.sendPoll)⟩ ∧
        exec (.send tmo m p) s = .next { accepted s with bsend := recs })

/-- R270, R304, R315, with log entries 12 and 25: the next attempt of a SEND that waits. While its wait is not over it is no attempt. Else, or at a
time before `last_now`, it is checked like a new command: a refusal is recorded and ends the SEND. Accepted it sets `last_now`; with room it has the effect of a SEND of the same payload; with the window
full it ends with TIMED_OUT once the deadline is reached and else waits on. No other caller's record changes. -/
def Obligations.WaitingSendTriesAgain : Prop :=
  ∀ (s : State) (e : Env) (rest : List Input) (r : BSend),
    s.inq = .attempt e :: rest → bsendOf e.caller s.bsend = some r → r.active = true →
    let t := latch e rest s
    let full : Prop := s.conn.state = .connected ∧
      ((s.tx.count.toNat : Int) ≤ idSubtract s.tx.nextId s.tx.lastId ∨ 1023 ≤ idSubtract s.tx.nextId s.tx.lastId)
    let others (recs : List BSend) : Prop := ∀ c, c ≠ r.caller → bsendOf c recs = bsendOf c s.bsend
    let refusedWith (bit : BitVec 8) (why : RefuseReason) : Prop := ∃ recs : List BSend,
      others recs ∧ bsendOf r.caller recs = some { r with active := false } ∧
      step s = .next { t with bsend := recs, fault := s.fault ||| bit, out := s.out ++ [.refused why] }
    let waits : Prop := s.ctx.lastNow.toInt ≤ e.now.toInt ∧ e.now.toInt < r.nextTry.toInt
    (waits → step s = .next t) ∧
    (¬ waits →
      (s.life = .uninit → refusedWith 8 .notInitialized) ∧
      (s.life = .finalized → refusedWith 32 .finalized) ∧
      (s.life = .active → s.ctx.cbDepth = 0 → e.now.toInt < s.ctx.lastNow.toInt → refusedWith 128 .timeRegression) ∧
      (s.life = .active → (s.ctx.cbDepth = 0 → s.ctx.lastNow.toInt ≤ e.now.toInt) → s.ctx.inProcess = false →
        ∃ recs : List BSend, others recs ∧
        (¬ full → bsendOf r.caller recs = some { r with active := false } ∧
          ∃ u, exec (.send 0 r.metadata r.payload) t = .next u ∧ step s = .next { u with bsend := recs }) ∧
        (full → r.deadline.toInt ≤ e.now.toInt → bsendOf r.caller recs = some { r with active := false } ∧
          step s = .next { accepted t with bsend := recs, out := s.out ++ [.status .timedOut] }) ∧
        (full → e.now.toInt < r.deadline.toInt →
          bsendOf r.caller recs = some { r with nextTry := timeOf (e.now.toInt + s.par.sendPoll) } ∧
          step s = .next { accepted t with bsend := recs })))

/-- R136: TX_WINDOW_SET, with the move of the frame in flight. -/
def Obligations.TxWindowSetGrowsOnceAndMovesTheFrame : Prop :=
  ∀ (s : State) (n : BitVec 32), ReadyNested s →
    if s.tx.count ≠ 1 ∨ n = 0 then
      exec (.txWindowSet n) s = .next { accepted s with out := s.out ++ [.status .parameterInvalid] }
    else
      let c : BitVec 11 :=
        if s.cfg.txFrameCountMax.toNat ≤ n.toNat then s.cfg.txFrameCountMax else BitVec.ofNat 11 (pow2Ceil n.toNat)
      let i := s.tx.lastId.toNat % c.toNat
      ∃ slots : List (Nat × TxSlot),
        exec (.txWindowSet n) s = .next
          { accepted s with tx := { s.tx with count := c, slots := slots }, out := s.out ++ [.status .success] } ∧
        ∀ j, tableGet TxSlot.zero slots j =
          if idSubtract s.tx.nextId s.tx.lastId = 1 ∧ i ≠ 0 then
            (if j = 0 then { txSlot s 0 with state := .idle, sendCount := 0 } else if j = i then txSlot s 0 else txSlot s j)
          else txSlot s j

/-! ### PROCESS (R138 to R143, R260 to R262) -/

/-- R260: PROCESS runs its six steps in order, in the processing context, and returns SUCCESS. -/
def Obligations.ProcessRunsItsSixSteps : Prop :=
  ∀ s : State, Ready s →
    exec .process s = .next (completed (rearm (eofCheck (txScan (linkDrain (timeoutScan (resetResend (entered s))))))))

/-- R138: the timeout scan reverts exactly the frames of the window that are Sent and due, and touches nothing else. -/
def Obligations.TimeoutScanRevertsExactlyTheDueFrames : Prop :=
  ∀ s : State, ∃ slots : List (Nat × TxSlot),
    timeoutScan s = { s with tx := { s.tx with slots := slots } } ∧
    ∀ i, tableGet TxSlot.zero slots i =
      if (∃ f ∈ txWindow s, txIndex s f = i) ∧ (txSlot s i).state = .sent ∧
          s.cfg.txTimeout.toInt ≤ s.port.now.toInt - (txSlot s i).lastSendTime.toInt
      then { txSlot s i with state := .pendingSend } else txSlot s i

/-- R140: the transmission scan acts on the first PendingSend frame of the window alone: the retry ceiling resets the link, too little space
defers the frame, and else its stored bytes are sent once. -/
def Obligations.TransmissionScanServesTheFirstPendingFrame : Prop :=
  (∀ s : State, (∀ f ∈ txWindow s, (txSlot s (txIndex s f)).state ≠ .pendingSend) → txScan s = s) ∧
  (∀ (s : State) (before after : List FrameId) (f : FrameId), txWindow s = before ++ f :: after →
    (∀ g ∈ before, (txSlot s (txIndex s g)).state ≠ .pendingSend) →
    (txSlot s (txIndex s f)).state = .pendingSend →
    let slot := txSlot s (txIndex s f)
    let a := (llAvail s).1
    let t := (llAvail s).2
    (25 ≤ slot.sendCount.toNat → txScan s = localReset s) ∧
    (slot.sendCount.toNat < 25 → a < slot.len.toNat → txScan s = t) ∧
    (slot.sendCount.toNat < 25 → slot.len.toNat ≤ a → ∃ slots : List (Nat × TxSlot),
      txScan s =
        { t with
          tx := { s.tx with slots := slots }
          stats := { s.stats with
            txBytes := s.stats.txBytes + BitVec.ofNat 64 slot.len.toNat
            txRetransmissions := s.stats.txRetransmissions + (if 1 ≤ slot.sendCount.toNat then 1 else 0) }
          eofPending := true
          out := s.out ++ [.llSend (memRead slot.bytes slot.len.toNat)] } ∧
      ∀ j, tableGet TxSlot.zero slots j =
        if j = txIndex s f then
          { slot with state := .sent, lastSendTime := s.port.now, sendCount := slot.sendCount + 1 }
        else txSlot s j))

/-- R143: a PendingSend frame is due now; else the deadline is the least `last_send_time + cfg_tx_timeout` of the Sent frames, or none. -/
def Obligations.TxDeadlineIsTheEarliest : Prop :=
  ∀ s : State,
    ((∃ f ∈ txWindow s, (txSlot s (txIndex s f)).state = .pendingSend) → txDeadline s = some s.port.now.toInt) ∧
    ((∀ f ∈ txWindow s, (txSlot s (txIndex s f)).state ≠ .pendingSend) →
      ((∀ f ∈ txWindow s, (txSlot s (txIndex s f)).state ≠ .sent) → txDeadline s = none) ∧
      ((∃ f ∈ txWindow s, (txSlot s (txIndex s f)).state = .sent) → ∃ d, txDeadline s = some d ∧
        (∃ f ∈ txWindow s, (txSlot s (txIndex s f)).state = .sent ∧
          d = (txSlot s (txIndex s f)).lastSendTime.toInt + s.cfg.txTimeout.toInt) ∧
        ∀ f ∈ txWindow s, (txSlot s (txIndex s f)).state = .sent →
          d ≤ (txSlot s (txIndex s f)).lastSendTime.toInt + s.cfg.txTimeout.toInt))

/-- R261: the next deadline is the least of the terms that apply, and the keep-alive where none does. -/
def Obligations.NextDeadlineIsTheLeastTerm : Prop :=
  ∀ s : State,
    let term (d : Int) : Prop :=
      txDeadline s = some d ∨
      ((0 < s.link.count.toNat ∨ s.eofPending = true) ∧ d = s.port.now.toInt) ∨
      (s.conn.state = .disconnected ∧ d = s.conn.resetTime.toInt + 16 * s.cfg.txTimeout.toInt)
    ((∀ d, ¬ term d) → nextDeadline s = s.port.now.toInt + s.cfg.txTimeout.toInt) ∧
    ((∃ d, term d) → term (nextDeadline s) ∧ ∀ d, term d → nextDeadline s ≤ d)

/-- R262, D52: the re-arm writes `max(NextDeadline(), now + MIN_INTERVAL)` to `tick_at` with no overflow, and writes nothing else. -/
def Obligations.RearmClampsWithoutOverflow : Prop :=
  ∀ s : State, CfgInv s → TimeInv s → timeInRange s.port.now = true → s.par.minInterval ≤ 2 ^ 60 →
    rearm s = { s with tickAt := (rearm s).tickAt } ∧
    (rearm s).tickAt.toInt = max (nextDeadline s) (s.port.now.toInt + s.par.minInterval)

/-! ### Received acknowledgements (R144 to R151) -/

/-- R146: ACK_ONE marks a Sent or PendingSend frame of the window Acked, retires nothing, and is ignored otherwise. -/
def Obligations.AckOneMarksTheFrameAcked : Prop :=
  ∀ (s : State) (f : FrameId), Ready s →
    let i := txIndex s f
    if 0 ≤ idSubtract f s.tx.lastId ∧ idSubtract f s.tx.lastId < idSubtract s.tx.nextId s.tx.lastId ∧
        ((txSlot s i).state = .sent ∨ (txSlot s i).state = .pendingSend) then
      ∃ slots : List (Nat × TxSlot),
        exec (.rxLinkAckOne f) s = .next (completed { entered s with tx := { s.tx with slots := slots } }) ∧
        ∀ j, tableGet TxSlot.zero slots j = if j = i then { txSlot s i with state := .acked } else txSlot s j
    else exec (.rxLinkAckOne f) s = .next (completed (entered s))

/-- R148, R144: ACK_ALL retires the frames through `f` and the Acked frames that directly follow, and no other; outside the window it is
ignored. -/
def Obligations.AckAllRetiresThroughTheId : Prop :=
  ∀ (s : State) (f : FrameId), Ready s →
    (txInWindow s.tx f = false → exec (.rxLinkAckAll f) s = .next (completed (entered s))) ∧
    (txInWindow s.tx f = true → CfgInv s → TxCountInv s → TxInv s →
      ∃ (n : Nat) (slots : List (Nat × TxSlot)),
        exec (.rxLinkAckAll f) s = .next (completed
          { entered s with
            tx := { s.tx with lastId := s.tx.lastId + BitVec.ofNat 11 n, slots := slots }
            stats := { s.stats with txDataFrames := s.stats.txDataFrames + BitVec.ofNat 64 n } }) ∧
        idSubtract f s.tx.lastId + 1 ≤ n ∧ (n : Int) ≤ txOutstanding s.tx ∧
        (∀ j : Nat, idSubtract f s.tx.lastId + 1 ≤ j → j < n →
          (txSlot s (txIndex s (s.tx.lastId + BitVec.ofNat 11 j))).state = .acked) ∧
        ((n : Int) < txOutstanding s.tx → (txSlot s (txIndex s (s.tx.lastId + BitVec.ofNat 11 n))).state ≠ .acked) ∧
        ∀ i, tableGet TxSlot.zero slots i =
          if ∃ j, j < n ∧ txIndex s (s.tx.lastId + BitVec.ofNat 11 j) = i then
            { txSlot s i with state := .idle, sendCount := 0 }
          else txSlot s i)

/-- R149 (a): the same ACK_ALL again is a no-op. -/
def Obligations.AckAllTwiceRetiresOnce : Prop :=
  ∀ (s : State) (f : FrameId), Ready s → CfgInv s → TxCountInv s → TxInv s → txInWindow s.tx f = true →
    ∃ t, exec (.rxLinkAckAll f) s = .next t ∧ exec (.rxLinkAckAll f) t = .next (completed (entered t))

/-- R150, R151: NACK_FRAME_ID and NACK_FRAMING_ERROR revert a frame of the window that is not Idle, whatever else its state, and request a
tick; they are ignored otherwise. -/
def Obligations.NacksRevertTheNamedFrame : Prop :=
  ∀ (s : State) (f : FrameId) (i : Instr), Ready s → i = .rxLinkNackFrameId f ∨ i = .rxLinkNackFramingError f →
    let k := txIndex s f
    if 0 ≤ idSubtract f s.tx.lastId ∧ idSubtract f s.tx.lastId < idSubtract s.tx.nextId s.tx.lastId ∧
        (txSlot s k).state ≠ .idle then
      ∃ slots : List (Nat × TxSlot),
        exec i s = .next (completed
          { entered s with
            tx := { s.tx with slots := slots }
            tickAt := if s.tickAt.toInt ≤ s.port.now.toInt then s.tickAt else s.port.now }) ∧
        ∀ j, tableGet TxSlot.zero slots j = if j = k then { txSlot s k with state := .pendingSend } else txSlot s j
    else exec i s = .next (completed (entered s))

/-! ### RX_DATA and RX_FRAMING_ERROR (42_rx_engine.md) -/

/-- R172, R176, R177, and the discard while Disconnected of R171: the frames that are answered without delivery. -/
def Obligations.RxDataAnswersWithoutDelivery : Prop :=
  ∀ (s : State) (f : FrameId) (m : Metadata) (p : List Byte), Ready s →
    let u := { entered s with conn := { s.conn with activity := true } }
    let d := idSubtract f s.rx.nextId
    let sizeOk : Prop := p.length ≠ 0 ∧ p.length ≤ s.par.payloadMax
    (s.conn.state = .disconnected → exec (.rxData f m p) s = .next (completed (entered s))) ∧
    (s.conn.state = .connected → ¬ sizeOk →
      exec (.rxData f m p) s = .next (completed (linkPush .nackFrameId s.rx.nextId u))) ∧
    (s.conn.state = .connected → sizeOk → d < 0 →
      exec (.rxData f m p) s = .next (completed (linkPush .ackAll (s.rx.nextId - 1) u))) ∧
    (s.conn.state = .connected → sizeOk → 0 < d → (s.cfg.rxWindowSize.toNat : Int) ≤ d →
      exec (.rxData f m p) s = .next (completed (linkPush .nackFrameId f u)))

/-- R178: a future frame in the window is stored; the Idle ids before it are marked and NACKed once each, in order, before its ACK_ONE. -/
def Obligations.FutureFrameIsStoredAndGapsNacked : Prop :=
  ∀ (s : State) (f : FrameId) (m : Metadata) (p : List Byte), Ready s → CfgInv s → s.conn.state = .connected →
    p.length ≠ 0 → p.length ≤ s.par.payloadMax →
    0 < idSubtract f s.rx.nextId → idSubtract f s.rx.nextId < s.cfg.rxWindowSize.toNat →
    let u := { entered s with conn := { s.conn with activity := true } }
    let gaps := (idRange s.rx.nextId f).filter fun g => decide ((rxSlot s (rxIndex s g)).state = .idle)
    let old := rxSlot s (rxIndex s f)
    ∃ (slots : List (Nat × RxSlot)) (bytes : Memory),
      exec (.rxData f m p) s = .next (completed
        { pushAll (gaps.map (fun g => (LinkType.nackFrameId, g)) ++ [(LinkType.ackOne, f)]) u with
          rx := { s.rx with maxId := if 0 < idSubtract f s.rx.maxId then f else s.rx.maxId, slots := slots } }) ∧
      tableGet RxSlot.zero slots (rxIndex s f) = ⟨.stored, f, m, BitVec.ofNat 16 p.length, bytes⟩ ∧
      (∀ g ∈ gaps, tableGet RxSlot.zero slots (rxIndex s g) =
        { rxSlot s (rxIndex s g) with state := .nacked, frameId := g }) ∧
      (∀ i, i ≠ rxIndex s f → (∀ g ∈ gaps, rxIndex s g ≠ i) → tableGet RxSlot.zero slots i = rxSlot s i) ∧
      ∀ k, Memory.read bytes k = if k < p.length then p.getD k 0 else Memory.read old.payload k

/-- R174, R175, with no handler script: the expected frame is delivered, then every stored frame that directly follows, in order, each once; the
reply is one ACK_ALL of the last. -/
def Obligations.ExpectedFrameIsDeliveredWithItsFollowers : Prop :=
  ∀ (s : State) (m : Metadata) (p : List Byte) (n : Nat), Ready s → CfgInv s → s.conn.state = .connected →
    p.length ≠ 0 → p.length ≤ s.par.payloadMax → s.port.handlers = [] →
    let f := s.rx.nextId
    let held (k : Nat) : RxSlot := rxSlot s (rxIndex s (f + BitVec.ofNat 11 k))
    let ahead : Prop := 0 < idSubtract s.rx.maxId f
    (¬ ahead → n = 0) →
    (∀ k, 1 ≤ k → k ≤ n → (held k).state = .stored ∧ (held k).frameId = f + BitVec.ofNat 11 k) →
    (ahead → n + 1 < s.cfg.rxWindowSize.toNat →
      ¬ ((held (n + 1)).state = .stored ∧ (held (n + 1)).frameId = f + BitVec.ofNat 11 (n + 1))) →
    n < s.cfg.rxWindowSize.toNat →
    let delivered : List Output := (List.range n).map fun k =>
      Output.upRecv (held (k + 1)).metadata (memRead (held (k + 1)).payload (held (k + 1)).len.toNat)
    let total : Nat := p.length + ((List.range n).map fun k => (held (k + 1)).len.toNat).sum
    ∃ slots : List (Nat × RxSlot),
      exec (.rxData f m p) s = .next (completed (linkPush .ackAll (f + BitVec.ofNat 11 n)
        { entered s with
          conn := { s.conn with activity := true }
          rx := ⟨f + BitVec.ofNat 11 (n + 1), if 0 < idSubtract s.rx.maxId f then s.rx.maxId else f, slots⟩
          stats := { s.stats with
            rxMsgBytes := s.stats.rxMsgBytes + BitVec.ofNat 64 total
            rxDataFrames := s.stats.rxDataFrames + BitVec.ofNat 64 (n + 1) }
          out := s.out ++ Output.upRecv m p :: delivered })) ∧
      ∀ i, tableGet RxSlot.zero slots i =
        if ∃ k, k ≤ n ∧ rxIndex s (f + BitVec.ofNat 11 k) = i then { rxSlot s i with state := .idle } else rxSlot s i

/-- R174, R175, R310, R311 first case, whatever the handlers do. The expected frame's handler runs first and RX_DATA goes on with the state it
left: an ACK_ALL of the frame, or the catch-up where later frames have been seen. The catch-up delivers the frame that is due while it is
held, goes on with the state its handler left, and ends with an ACK_ALL of the last frame delivered. A handler that has made a local reset
ends either at once: no further delivery, no slot write, no push. -/
def Obligations.DeliveryGoesOnUnlessItsHandlerResets : Prop :=
  (∀ (s : State) (m : Metadata) (p : List Byte), Ready s → s.conn.state = .connected →
    p.length ≠ 0 → p.length ≤ s.par.payloadMax →
    let f := s.rx.nextId
    let u := { entered s with conn := { s.conn with activity := true } }
    let i := rxIndex s f
    let t := upRecv m p
      { setRxSlot i { rxSlot s i with state := .idle } u with
        stats := { s.stats with rxMsgBytes := s.stats.rxMsgBytes + BitVec.ofNat 64 p.length,
                                rxDataFrames := s.stats.rxDataFrames + 1 } }
    (t.ctx.resetEpoch ≠ s.ctx.resetEpoch → exec (.rxData f m p) s = .next (completed t)) ∧
    (t.ctx.resetEpoch = s.ctx.resetEpoch → idSubtract t.rx.maxId f ≤ 0 →
      exec (.rxData f m p) s = .next (completed
        (linkPush .ackAll f { t with rx := { t.rx with nextId := f + 1, maxId := f } }))) ∧
    (t.ctx.resetEpoch = s.ctx.resetEpoch → 0 < idSubtract t.rx.maxId f →
      exec (.rxData f m p) s = .next (completed (catchUp { t with rx := { t.rx with nextId := f + 1 } })))) ∧
  (∀ s : State, CfgInv s →
    let f := s.rx.nextId
    let i := rxIndex s f
    let held := rxSlot s i
    let due : Prop := held.state = .stored ∧ held.frameId = f
    let p := memRead held.payload held.len.toNat
    let t := upRecv held.metadata p
      { s with stats := { s.stats with rxMsgBytes := s.stats.rxMsgBytes + BitVec.ofNat 64 p.length,
                                       rxDataFrames := s.stats.rxDataFrames + 1 } }
    (¬ due → catchUp s = linkPush .ackAll (f - 1) s) ∧
    (due → t.ctx.resetEpoch ≠ s.ctx.resetEpoch → catchUp s = t) ∧
    (due → t.ctx.resetEpoch = s.ctx.resetEpoch → ∃ slots : List (Nat × RxSlot),
      catchUp s = catchUp { t with rx := ⟨t.rx.nextId + 1, t.rx.maxId, slots⟩ } ∧
      ∀ j, tableGet RxSlot.zero slots j = if j = i then { rxSlot t i with state := .idle } else rxSlot t j))

/-- R182: a framing error is answered with the expected id while Connected, and does nothing while Disconnected. -/
def Obligations.FramingErrorIsNackedWhileConnected : Prop :=
  ∀ s : State, Ready s →
    (s.conn.state = .disconnected → exec .rxFramingError s = .next (completed (entered s))) ∧
    (s.conn.state = .connected →
      exec .rxFramingError s = .next (completed (linkPush .nackFramingError s.rx.nextId (entered s))))

/-! ### Connection (43_connection.md) -/

/-- R200: what the local reset writes, what it keeps, the one word it leaves in the ring, and its event. -/
def Obligations.LocalResetWritesTheResetState : Prop :=
  ∀ s : State, 1 ≤ s.cfg.txLinkSize.toNat →
    localReset s = (if s.conn.state = .connected then upEvent .txDisconnected (resetQuiet s) else resetQuiet s) ∧
    ∃ (tx : List (Nat × TxSlot)) (rx : List (Nat × RxSlot)) (ring : List (Nat × Word64)),
      resetQuiet s =
        { s with
          tx := ⟨0, 0, 1, tx⟩
          rx := ⟨0, 0, rx⟩
          link := ⟨ring, 0, 1, s.link.drops⟩
          conn := ⟨.disconnected, false, s.port.now⟩
          ctx := { s.ctx with resetEpoch := s.ctx.resetEpoch + 1 }
          tickAt := if s.tickAt.toInt ≤ s.port.now.toInt then s.tickAt else s.port.now
          out := s.out ++ (if s.port.now.toInt < s.tickAt.toInt ∧ s.ctx.inProcess = false then [.wake] else []) } ∧
      (∀ i, tableGet TxSlot.zero tx i = { txSlot s i with state := .idle, sendCount := 0 }) ∧
      (∀ i, tableGet RxSlot.zero rx i = { rxSlot s i with state := .idle }) ∧
      ∀ i, tableGet 0 ring i = if i = 0 then linkWord s .reset 0 else ringRead s i

/-- R209: RESET_TX_FROM_EVENT is the local reset, in any state once Active, and returns SUCCESS. -/
def Obligations.ResetTxFromEventIsTheLocalReset : Prop :=
  ∀ s : State, ReadyNested s →
    exec .resetTxFromEvent s =
      .next { localReset (accepted s) with out := (localReset (accepted s)).out ++ [.status .success] }

/-- R203, R204: a RESET request is always answered with a response; while Connected with activity the block first reports it and resets, unless the
report's handler already has. -/
def Obligations.ResetRequestIsAlwaysAnswered : Prop :=
  ∀ s : State, Ready s →
    (s.conn.state = .disconnected ∨ s.conn.activity = false →
      exec .rxLinkResetReq s = .next (completed (linkPush .reset 1 (entered s)))) ∧
    (s.conn.state = .connected → s.conn.activity = true →
      let t := upEvent .rxResetRequest (entered s)
      (t.ctx.resetEpoch = s.ctx.resetEpoch →
        exec .rxLinkResetReq s = .next (completed (linkPush .reset 1 (localReset t)))) ∧
      (t.ctx.resetEpoch ≠ s.ctx.resetEpoch →
        exec .rxLinkResetReq s = .next (completed (linkPush .reset 1 t))))

/-- R205, R206: a RESET response connects a Disconnected block, emits TxConnected, pushes no word; a Connected block ignores it. -/
def Obligations.ResetResponseConnects : Prop :=
  ∀ s : State, Ready s →
    (s.conn.state = .connected → exec .rxLinkResetRsp s = .next (completed (entered s))) ∧
    (s.conn.state = .disconnected →
      exec .rxLinkResetRsp s =
        .next (completed (upEvent .txConnected { entered s with conn := { s.conn with state := .connected } })) ∧
      (s.port.handlers = [] →
        exec .rxLinkResetRsp s = .next (completed
          { entered s with conn := { s.conn with state := .connected }, out := s.out ++ [.upEvent .txConnected] })))

/-- R208, R239: a RESET of any other id and a link frame of an unknown type are ignored: no state changes, no reply, status SUCCESS. -/
def Obligations.OtherLinkFramesAreIgnored : Prop :=
  ∀ (s : State) (t : BitVec 5) (f : FrameId), Ready s →
    (f ≠ 0 → f ≠ 1 → exec (.rxLinkResetOther f) s = .next (completed (entered s))) ∧
    (t ∉ s.par.codes.all → exec (.rxLink t f) s = .next (completed (entered s)))

/-- R207: the RESET request is pushed again once `16 × cfg_tx_timeout` has passed since the last, only while Disconnected. -/
def Obligations.ResetRequestIsResent : Prop :=
  ∀ s : State,
    if s.conn.state = .disconnected ∧ 16 * s.cfg.txTimeout.toInt ≤ s.port.now.toInt - s.conn.resetTime.toInt then
      resetResend s = { linkPush .reset 0 s with conn := { s.conn with resetTime := s.port.now } }
    else resetResend s = s

/-- R23: a Disconnected block becomes Connected only by a RESET response, received as a command or found by the framer in LL_RECV's bytes. -/
def Obligations.OnlyAResetResponseConnects : Prop :=
  ∀ (i : Instr) (s t : State), s.conn.state = .disconnected → exec i s = .next t → t.conn.state = .connected →
    i = .rxLinkResetRsp ∨ (∃ data, i = .llRecv data ∧ .link s.par.codes.reset 1 ∈ (framerParse s.par s.fs data).2) ∨
      i = .rxLink s.par.codes.reset 1 ∨ i = .rxLinkResetOther 1

/-! ### Link control channel (44_link_control.md) -/

/-- R230, R231, R232: a push writes the entry behind the newest word and no other, and requests a tick only on an empty ring; a full ring
drops the word and counts it. -/
def Obligations.LinkPushAppendsOrDrops : Prop :=
  ∀ (s : State) (t : LinkType) (f : FrameId), RingInv s →
    (s.link.count = s.cfg.txLinkSize →
      linkPush t f s = { s with link := { s.link with drops := s.link.drops + 1 } }) ∧
    (s.link.count ≠ s.cfg.txLinkSize →
      ringWords (linkPush t f s) = ringWords s ++ [linkWord s t f] ∧
      ∃ ring : List (Nat × Word64), (∀ j, tableGet 0 ring j =
        if j = ringIndex s s.link.count.toNat then linkWord s t f else ringRead s j) ∧
      linkPush t f s =
        { s with
          link := { s.link with ring := ring, count := s.link.count + 1 }
          tickAt := if s.link.count = 0 ∧ s.port.now.toInt < s.tickAt.toInt then s.port.now else s.tickAt
          out := s.out ++
            (if s.link.count = 0 ∧ s.port.now.toInt < s.tickAt.toInt ∧ s.ctx.inProcess = false then [.wake] else []) })

/-- R234, R66: the drain sends the oldest words that fit, whole and in order, in at most two writes split at the ring's end, and drops exactly
them from the ring. -/
def Obligations.LinkDrainSendsTheOldestWords : Prop :=
  ∀ s : State, RingInv s →
    (s.link.count = 0 → linkDrain s = s) ∧
    (s.link.count ≠ 0 →
      let a := (llAvail s).1
      let t := (llAvail s).2
      let k := min s.link.count.toNat (a / 8)
      let room := s.cfg.txLinkSize.toNat - s.link.head.toNat
      let sent := (ringWords s).take k
      let writes : List (List Byte) :=
        if k = 0 then [] else if k ≤ room then [sent.flatMap wordBytes]
        else [(sent.take room).flatMap wordBytes, (sent.drop room).flatMap wordBytes]
      linkDrain s =
        { t with
          link := { s.link with head := BitVec.ofNat 32 ((s.link.head.toNat + k) % s.cfg.txLinkSize.toNat),
                                count := s.link.count - BitVec.ofNat 32 k }
          stats := { s.stats with txBytes := s.stats.txBytes + BitVec.ofNat 64 (8 * k) }
          eofPending := s.eofPending || decide (k ≠ 0)
          out := s.out ++ writes.map Output.llSend } ∧
      ringWords (linkDrain s) = (ringWords s).drop k ∧ writes.flatten.length = 8 * k ∧ 8 * k ≤ a)

/-- R237: the EOF marker is sent exactly when it is owed, the ring is empty, no frame is PendingSend and the driver has room. -/
def Obligations.EofMarkerIsSentWhenNothingElseWaits : Prop :=
  ∀ s : State,
    if s.eofPending = false ∨ s.link.count ≠ 0 ∨ (∃ f ∈ txWindow s, (txSlot s (txIndex s f)).state = .pendingSend) then
      eofCheck s = s
    else if (llAvail s).1 < 1 then eofCheck s = (llAvail s).2
    else eofCheck s =
      { (llAvail s).2 with
        eofPending := false
        stats := { s.stats with txBytes := s.stats.txBytes + 1 }
        out := s.out ++ [.llSend [s.par.sofByte]] }

/-! ### Facade (45_facade_timer.md) -/

/-- R250, R251: INIT with a valid configuration, every register; and with one that is not, nothing. Two clauses are the model's reading: that
`reset_epoch` is 1 (log entry 24), and that INIT pulses no `wake` (log entry 21). -/
def Obligations.InitLoadsAValidConfiguration : Prop :=
  ∀ (s : State) (c : CfgRecord), s.life = .uninit → s.ctx.cbDepth = 0 →
    let valid : Prop :=
      (1 ≤ c.txWindowSize.toNat ∧ 1 ≤ c.rxWindowSize.toNat) ∧
      (c.txWindowSize.toNat ≤ 1024 ∧ c.rxWindowSize.toNat ≤ 1024) ∧
      (c.txLinkSize.toNat ≤ s.par.linkDepthMax ∧
        (c.txLinkSize.toNat = 0 → pow2Ceil c.rxWindowSize.toNat ≤ s.par.linkDepthMax)) ∧
      s.par.payloadMax + s.par.frameOverheadMax ≤ c.txBufferSize.toNat ∧
      (1 ≤ c.txTimeout.toInt ∧ c.txTimeout.toInt ≤ 2 ^ 58)
    (¬ valid → exec (.init c) s = .next { s with out := s.out ++ [.status .parameterInvalid] }) ∧
    (valid →
      ∃ (ring : List (Nat × Word64)) (cfg : Cfg) (tx : List (Nat × TxSlot)) (rx : List (Nat × RxSlot)),
        exec (.init c) s = .next
          { s with
            cfg := cfg, life := .active, conn := ⟨.disconnected, false, s.port.now⟩,
            tx := ⟨0, 0, 1, tx⟩, rx := ⟨0, 0, rx⟩, link := ⟨ring, 0, 1, 0⟩,
            eofPending := false, tickAt := s.port.now, ctx := ⟨false, 0, 1, s.port.now⟩,
            stats := ⟨0, 0, 0, 0, 0, 0⟩, fs := s.par.framer.initial, out := s.out ++ [.status .success] } ∧
        cfg.txFrameCountMax.toNat = pow2Ceil c.txWindowSize.toNat ∧
        cfg.rxWindowSize.toNat = pow2Ceil c.rxWindowSize.toNat ∧
        cfg.txLinkSize.toNat =
          (if c.txLinkSize.toNat = 0 then pow2Ceil c.rxWindowSize.toNat else c.txLinkSize.toNat) ∧
        cfg.txBufferSize = c.txBufferSize ∧ cfg.txTimeout = c.txTimeout ∧
        (∀ i, tableGet TxSlot.zero tx i = TxSlot.zero) ∧ (∀ i, tableGet RxSlot.zero rx i = RxSlot.zero) ∧
        ∀ i, tableGet 0 ring i = if i = 0 then linkWord s .reset 0 else 0)

/-- R253, R254: LL_RECV handles the framer's events in order; one that yields a single event does what the direct command of its kind
does. -/
def Obligations.LlRecvRunsTheFramersEvents : Prop :=
  ∀ (s : State) (data : List Byte) (fs' : FramerState) (events : List FramerEvent), Ready s →
    framerParse s.par s.fs data = (fs', events) →
    exec (.llRecv data) s = .next (completed (events.foldl framerEvent { entered s with fs := fs' })) ∧
    (∀ f m p, events = [.data f m p] → exec (.llRecv data) s = exec (.rxData f m p) { s with fs := fs' }) ∧
    (∀ t f, events = [.link t f] → exec (.llRecv data) s = exec (decodeRxLink s.par.codes t f) { s with fs := fs' }) ∧
    (events = [.framingError] → exec (.llRecv data) s = exec .rxFramingError { s with fs := fs' })

/-- R266, R268: STATUS_GET returns the ten values of R39 in index order, SERVICE_INTERVAL returns `max(0, tick_at - now)`; neither changes any
state (but `last_now`, which every accepted command sets, R38). -/
def Obligations.StatusReadsReturnTheirValues : Prop :=
  ∀ s : State, ReadyNested s →
    let c := framerStatus s.par s.fs
    exec .statusGet s = .next { accepted s with
      out := s.out ++
        [.snapshot [s.par.statusVersion, s.stats.rxMsgBytes, s.stats.rxDataFrames, c.totalBytes, c.ignoredBytes,
          c.resyncCount, s.stats.txBytes, s.stats.txMsgBytes, s.stats.txDataFrames, s.stats.txRetransmissions],
         .status .success] } ∧
    exec .serviceInterval s = .next { accepted s with
      out := s.out ++
        [.interval (timeOf (if s.tickAt.toInt ≤ s.port.now.toInt then 0 else s.tickAt.toInt - s.port.now.toInt)),
         .status .success] }

/-- R267: STATUS_CLEAR zeroes the six counters and `link_drops` and clears the framer's counters; protocol state is unchanged. -/
def Obligations.StatusClearZeroesTheCounters : Prop :=
  ∀ s : State, ReadyNested s →
    exec .statusClear s = .next { accepted s with
      stats := ⟨0, 0, 0, 0, 0, 0⟩
      link := { s.link with drops := 0 }
      fs := framerStatusClear s.par s.fs
      out := s.out ++ [.status .success] }

/-- R269: FINALIZE ends the block's life and does nothing else; every later command but INIT is refused with Finalized (INIT meets order 5 of
R305 first, log entry 23). -/
def Obligations.FinalizeEndsTheBlock : Prop :=
  ∀ s : State, Ready s →
    exec .finalize s = .next { accepted s with life := .finalized, out := s.out ++ [.status .success] } ∧
    ∀ (i : Instr) (t : State), t.life = .finalized → (∀ c, i ≠ .init c) →
      exec i t = .next { t with fault := t.fault ||| 32, out := t.out ++ [.refused .finalized] }

/-! ### Callbacks and wake (60_exceptions.md) -/

/-- R309: in a handler that runs while the block is Disconnected, no nested command raises an event, whatever the events would do, so callbacks
nest at most twice. -/
def Obligations.DisconnectedHandlersRaiseNoEvent : Prop :=
  ∀ (s : State) (script : List NestedCommand) (event event' : EventKind → State → State), s.conn.state = .disconnected →
    script.foldl (fun t c => nestedCommand event c t) s = script.foldl (fun t c => nestedCommand event' c t) s ∧
    (script.foldl (fun t c => nestedCommand event c t) s).conn.state = .disconnected

/-- R309, R310: inside a callback every command runs, or is refused, as the same command does at the port; and a callback, whichever its handler,
raises `cb_depth` by one, runs the handler's commands in order at the enclosing time, lowers `cb_depth`, and the procedure goes on with the
state they left. (`cb_depth` never reaches 255: callbacks nest at most twice, `DisconnectedHandlersRaiseNoEvent`.) -/
def Obligations.NestedCommandsRunAsAtThePort : Prop :=
  (∀ (i : Instr) (s : State), s.ctx.cbDepth ≠ 0 → exec i s = .next (nestedInstr upEvent i s)) ∧
  (∀ (i : Instr) (s : State), nestedInstr upEventInner i s = nestedInstr upEvent i s) ∧
  (∀ (i : Instr) (s : State), i ≠ .resetTxFromEvent → ∀ event, nestedInstr event i s = nestedInstr upEvent i s) ∧
  (∀ s : State, s.ctx.cbDepth ≠ 255 →
    let handled (o : Output) : State := (s.port.handlers.headD []).foldl (fun t c => runScripted c t) (called o s)
    let returned (t : State) : State := { t with ctx := { t.ctx with cbDepth := t.ctx.cbDepth - 1 } }
    (∀ k, upEvent k s = returned (handled (.upEvent k))) ∧
    (∀ m p, upRecv m p s = returned (handled (.upRecv m p))) ∧
    ∀ o, (handled o).ctx.cbDepth = s.ctx.cbDepth + 1 ∧ (handled o).port.now = s.port.now)

/-- R265: no command of the processing context pulses `wake`, its callbacks included. -/
def Obligations.ProcessingContextNeverPulsesWake : Prop :=
  ∀ (i : Instr) (s t : State), exec i s = .next t →
    (i = .process ∨ (∃ d, i = .llRecv d) ∨ (∃ f m p, i = .rxData f m p) ∨ (∃ c f, i = .rxLink c f) ∨
      (∃ f, i = .rxLinkAckAll f) ∨ (∃ f, i = .rxLinkAckOne f) ∨ (∃ f, i = .rxLinkNackFrameId f) ∨
      (∃ f, i = .rxLinkNackFramingError f) ∨ i = .rxLinkResetReq ∨ i = .rxLinkResetRsp ∨
      (∃ f, i = .rxLinkResetOther f) ∨ i = .rxFramingError) →
    ∃ o, t.out = s.out ++ o ∧ Output.wake ∉ o

/-- R61: the stored bytes of a TX slot are modified by SEND, the move of TX_WINDOW_SET and INIT alone (here with no nested command). -/
def Obligations.StoredFramesAreNotModified : Prop :=
  ∀ (i : Instr) (s t : State), exec i s = .next t → s.port.handlers = [] →
    (∀ c, i ≠ .init c) → (∀ a m p, i ≠ .send a m p) → (∀ n, i ≠ .txWindowSet n) →
    ∀ k, (txSlot t k).bytes = (txSlot s k).bytes ∧ (txSlot t k).len = (txSlot s k).len
end

