-- ==== Sys2Proof/Laws/FrameId.lean ====
section
/-! SUPPORT. Frame-id arithmetic (40_frame_id.md): `subtract` through the 11-bit difference, the ids of a range, and slot indexes under a
power-of-two window. -/

namespace Sys2Proof.Laws

open Sys2Proof Sys2Proof.Machine

/-! ### `subtract` -/

/-- `subtract` through the difference of the two numbers. -/
theorem idSubtract_eq (a b : FrameId) :
    idSubtract a b = if (a - b).toNat < 1024 then ((a - b).toNat : Int) else ((a - b).toNat : Int) - 2048 := by
  unfold idSubtract
  rw [BitVec.toInt_eq_toNat_cond]
  have := (a - b).isLt
  split <;> split <;> omega

theorem toNat_sub (a b : FrameId) : ((a - b).toNat : Int) = ((a.toNat : Int) - b.toNat) % 2048 := by
  rw [BitVec.toNat_sub]
  have ha := a.isLt
  have hb := b.isLt
  push_cast
  omega

theorem idSubtract_ge (a b : FrameId) : -1024 ≤ idSubtract a b := by
  rw [idSubtract_eq]; have := (a - b).isLt; split <;> omega

theorem idSubtract_le (a b : FrameId) : idSubtract a b ≤ 1023 := by
  rw [idSubtract_eq]; have := (a - b).isLt; split <;> omega

@[simp] theorem idSubtract_self (a : FrameId) : idSubtract a a = 0 := by simp [idSubtract]

theorem idSubtract_eq_zero (a b : FrameId) : idSubtract a b = 0 ↔ a = b := by
  constructor
  · intro h
    have h0 : a - b = 0 := BitVec.eq_of_toInt_eq (by simpa [idSubtract] using h)
    have : a = b + (a - b) := by rw [BitVec.add_comm, BitVec.sub_add_cancel]
    rw [this, h0]; simp
  · rintro rfl; simp

/-- A nonnegative `subtract` is the number of increments. -/
theorem idSubtract_nonneg (a b : FrameId) (h : 0 ≤ idSubtract a b) : idSubtract a b = ((a - b).toNat : Int) := by
  rw [idSubtract_eq] at h ⊢; have := (a - b).isLt; split <;> split at h <;> omega

theorem idSubtract_add (b : FrameId) (k : Nat) (h : k < 1024) : idSubtract (b + BitVec.ofNat 11 k) b = k := by
  have : b + BitVec.ofNat 11 k - b = BitVec.ofNat 11 k := by rw [BitVec.add_comm, BitVec.add_sub_cancel]
  rw [idSubtract_eq, this, BitVec.toNat_ofNat, Nat.mod_eq_of_lt (by omega), if_pos h]

/-- An id at a nonnegative distance is that many increments away. -/
theorem eq_add_of_idSubtract (a b : FrameId) (h : 0 ≤ idSubtract a b) :
    a = b + BitVec.ofNat 11 (idSubtract a b).toNat := by
  rw [idSubtract_nonneg a b h, Int.toNat_natCast, BitVec.ofNat_toNat, BitVec.setWidth_eq, BitVec.add_comm, BitVec.sub_add_cancel]

theorem idInc_eq (a : FrameId) : idInc a = a + BitVec.ofNat 11 1 := rfl

theorem add_ofNat_succ (a : FrameId) (k : Nat) : a + BitVec.ofNat 11 (k + 1) = idInc (a + BitVec.ofNat 11 k) := by
  unfold idInc
  rw [BitVec.add_assoc]; congr 1
  apply BitVec.eq_of_toNat_eq
  simp

theorem add_ofNat_add (a : FrameId) (j k : Nat) :
    a + BitVec.ofNat 11 j + BitVec.ofNat 11 k = a + BitVec.ofNat 11 (j + k) := by
  rw [BitVec.add_assoc]; congr 1
  apply BitVec.eq_of_toNat_eq
  simp

/-- Increasing both ids changes no distance. -/
theorem idSubtract_inc_inc (a b : FrameId) : idSubtract (idInc a) (idInc b) = idSubtract a b := by
  unfold idSubtract idInc
  congr 1
  apply BitVec.eq_of_toNat_eq
  simp only [BitVec.toNat_sub, BitVec.toNat_add]
  have := a.isLt; have := b.isLt
  simp; omega

/-- One increment of the far id, short of the wrap. -/
theorem idSubtract_inc_left (a b : FrameId) (h : idSubtract a b < 1023) : idSubtract (idInc a) b = idSubtract a b + 1 := by
  have e : (idInc a - b).toNat = ((a - b).toNat + 1) % 2048 := by
    simp only [idInc, BitVec.toNat_sub, BitVec.toNat_add]
    have := a.isLt; have := b.isLt
    simp; omega
  rw [idSubtract_eq] at h ⊢
  rw [idSubtract_eq, e]
  have := (a - b).isLt
  split at h <;> split <;> omega

/-- One increment of the near id, short of the wrap. -/
theorem idSubtract_inc_right (a b : FrameId) (h : -1024 < idSubtract a b) : idSubtract a (idInc b) = idSubtract a b - 1 := by
  have e : (a - b).toNat = ((a - idInc b).toNat + 1) % 2048 := by
    simp only [idInc, BitVec.toNat_sub, BitVec.toNat_add]
    have := a.isLt; have := b.isLt
    simp; omega
  have h2 := idSubtract_eq a (idInc b)
  have h1 := idSubtract_eq a b
  have hlt := (a - idInc b).isLt
  have hlt2 := (a - b).isLt
  split at h1 <;> split at h2 <;> omega

/-! ### Ranges -/

theorem idsFrom_eq_map (n : Nat) : ∀ a : FrameId, idsFrom a n = (List.range n).map fun k => a + BitVec.ofNat 11 k := by
  induction n with
  | zero => intro a; rfl
  | succ n ih =>
    intro a
    rw [idsFrom, ih, List.range_succ_eq_map, List.map_cons, List.map_map]
    congr 1
    · simp
    · apply List.map_congr_left
      intro k _
      show idInc a + _ = _
      rw [idInc_eq, add_ofNat_add, Nat.add_comm]
      rfl

theorem mem_idsFrom (a f : FrameId) (n : Nat) (h : n ≤ 2048) : f ∈ idsFrom a n ↔ (f - a).toNat < n := by
  rw [idsFrom_eq_map, List.mem_map]
  constructor
  · rintro ⟨k, hk, rfl⟩
    rw [List.mem_range] at hk
    have : a + BitVec.ofNat 11 k - a = BitVec.ofNat 11 k := by rw [BitVec.add_comm, BitVec.add_sub_cancel]
    rw [this, BitVec.toNat_ofNat, Nat.mod_eq_of_lt (by omega)]; exact hk
  · intro hk
    refine ⟨(f - a).toNat, List.mem_range.mpr hk, ?_⟩
    rw [BitVec.ofNat_toNat, BitVec.setWidth_eq, BitVec.add_comm, BitVec.sub_add_cancel]

@[simp] theorem idRange_self (a : FrameId) : idRange a a = [] := by simp [idRange, idsFrom]

theorem idRange_eq_map (a b : FrameId) : idRange a b = (List.range (b - a).toNat).map fun k => a + BitVec.ofNat 11 k :=
  idsFrom_eq_map _ _

/-- The members of `a ..< b` where `b` is at distance 0 to 1023. -/
theorem mem_idRange (a b f : FrameId) (h : 0 ≤ idSubtract b a) :
    f ∈ idRange a b ↔ 0 ≤ idSubtract f a ∧ idSubtract f a < idSubtract b a := by
  unfold idRange
  rw [mem_idsFrom _ _ _ (by omega)]
  have hb := idSubtract_le b a
  rw [idSubtract_nonneg b a h] at hb ⊢
  rw [idSubtract_eq f a]
  have := (f - a).isLt
  split <;> omega

/-! ### Slot indexes -/

theorem slotIndex_lt (f : FrameId) (c : BitVec 11) (h : 0 < c.toNat) : slotIndex f c < c.toNat := Nat.mod_lt _ h

/-- The slots of a power-of-two window: adding to an id adds to its slot, modulo the window. -/
theorem slotIndex_add (f : FrameId) (c : BitVec 11) (k j : Nat) (hc : c.toNat = 2 ^ k) (hk : k ≤ 11) :
    slotIndex (f + BitVec.ofNat 11 j) c = (slotIndex f c + j) % c.toNat := by
  unfold slotIndex
  rw [hc, BitVec.toNat_add, BitVec.toNat_ofNat]
  have hd : 2 ^ k ∣ 2 ^ 11 := pow_dvd_pow 2 hk
  rw [Nat.mod_mod_of_dvd _ hd, Nat.add_mod, Nat.mod_mod_of_dvd _ hd, ← Nat.add_mod, Nat.add_mod (f.toNat % _), Nat.mod_mod,
    ← Nat.add_mod]

/-- Two ids of a power-of-two window with one slot are one id. -/
theorem slotIndex_inj (b f g : FrameId) (c : BitVec 11) (k : Nat) (hc : c.toNat = 2 ^ k) (hk : k ≤ 10)
    (hf0 : 0 ≤ idSubtract f b) (hf : idSubtract f b < c.toNat) (hg0 : 0 ≤ idSubtract g b) (hg : idSubtract g b < c.toNat)
    (h : slotIndex f c = slotIndex g c) : f = g := by
  rw [eq_add_of_idSubtract f b hf0, eq_add_of_idSubtract g b hg0] at h ⊢
  rw [slotIndex_add _ _ k _ hc (by omega), slotIndex_add _ _ k _ hc (by omega)] at h
  have hlt : slotIndex b c < c.toNat := Nat.mod_lt _ (by rw [hc]; positivity)
  congr 2
  have h1 : (idSubtract f b).toNat < c.toNat := by omega
  have h2 : (idSubtract g b).toNat < c.toNat := by omega
  generalize (idSubtract f b).toNat = x at *
  generalize (idSubtract g b).toNat = y at *
  generalize slotIndex b c = z at *
  have e : z + x ≡ z + y [MOD c.toNat] := h
  exact Nat.ModEq.eq_of_lt_of_lt (Nat.ModEq.add_left_cancel' z e) h1 h2

/-- A window of ids no longer than the slots has distinct slots. -/
theorem slotIndex_add_inj (b : FrameId) (c : BitVec 11) (k i j : Nat) (hc : c.toNat = 2 ^ k) (hk : k ≤ 10) (hi : i < c.toNat)
    (hj : j < c.toNat) (h : slotIndex (b + BitVec.ofNat 11 i) c = slotIndex (b + BitVec.ofNat 11 j) c) : i = j := by
  rw [slotIndex_add _ _ k _ hc (by omega), slotIndex_add _ _ k _ hc (by omega)] at h
  have e : slotIndex b c + i ≡ slotIndex b c + j [MOD c.toNat] := h
  exact Nat.ModEq.eq_of_lt_of_lt (Nat.ModEq.add_left_cancel' _ e) hi hj

/-! ### `pow2_ceil` -/

theorem pow2CeilFrom_spec (fuel : Nat) : ∀ j n, n ≤ 2 ^ (j + fuel) → (∀ i, i < j → 2 ^ i < n) →
    ∃ k, pow2CeilFrom fuel (2 ^ j) n = 2 ^ k ∧ n ≤ 2 ^ k ∧ k ≤ j + fuel ∧ ∀ i, i < k → 2 ^ i < n := by
  induction fuel with
  | zero => intro j n h hj; exact ⟨j, rfl, h, le_refl _, hj⟩
  | succ fuel ih =>
    intro j n h hj
    simp only [pow2CeilFrom]
    split
    · rename_i hn; exact ⟨j, rfl, hn, by omega, hj⟩
    · rename_i hn
      have := ih (j + 1) n (by rw [show j + 1 + fuel = j + (fuel + 1) by omega]; exact h) (by
        intro i hi
        rcases Nat.lt_succ_iff_lt_or_eq.mp hi with h1 | rfl
        · exact hj i h1
        · omega)
      rw [Nat.pow_succ, Nat.mul_comm] at this
      obtain ⟨k, h1, h2, h3, h4⟩ := this
      exact ⟨k, h1, h2, by omega, h4⟩

/-- `pow2_ceil(n)` is a power of two that is at least `n`, every lower one being smaller than `n`. -/
theorem pow2Ceil_spec (n : Nat) (h : n ≤ 2 ^ 31) :
    ∃ k, pow2Ceil n = 2 ^ k ∧ n ≤ 2 ^ k ∧ k ≤ 31 ∧ ∀ i, i < k → 2 ^ i < n := by
  have := pow2CeilFrom_spec 31 0 n (by simpa using h) (by simp)
  simpa [pow2Ceil] using this

/-- A number not above 1024 has its power of two not above 1024. -/
theorem pow2Ceil_small (n : Nat) (h : n ≤ 1024) : ∃ k, k ≤ 10 ∧ pow2Ceil n = 2 ^ k ∧ n ≤ 2 ^ k := by
  obtain ⟨k, h1, h2, _, h4⟩ := pow2Ceil_spec n (by omega)
  refine ⟨k, ?_, h1, h2⟩
  by_contra hk
  have := h4 10 (by omega)
  omega

end Sys2Proof.Laws
end

