-- ==== Sys2Proof/Laws/Memory.lean ====
section
/-! SUPPORT. Laws of the sparse tables and of a slot's bytes: read after write, and every operation keeps the canonical form. -/

namespace Sys2Proof.Laws

open Sys2Proof.Machine

variable {α : Type}

/-! ### Reading -/

@[simp] theorem tableGet_nil (d : α) (i : Nat) : tableGet d [] i = d := rfl

theorem tableGet_of_not_mem (d : α) (t : List (Nat × α)) (i : Nat) (h : ∀ e ∈ t, e.1 ≠ i) : tableGet d t i = d := by
  induction t with
  | nil => rfl
  | cons e t ih =>
    have he : ¬ i = e.1 := fun hi => h e (by simp) hi.symm
    simp only [tableGet, if_neg he]
    exact ih fun x hx => h x (by simp [hx])

theorem tableGet_erase (d : α) (t : List (Nat × α)) (key i : Nat) :
    tableGet d (tableErase key t) i = if i = key then d else tableGet d t i := by
  unfold tableErase
  induction t with
  | nil => simp
  | cons e t ih =>
    obtain ⟨k, v⟩ := e
    by_cases hk : k = key
    · subst hk
      by_cases hi : i = k <;> simp_all [tableGet]
    · by_cases hi : i = k
      · subst hi; simp [tableGet, hk]
      · simp_all [tableGet]

theorem tableGet_insert (d : α) (t : List (Nat × α)) (key i : Nat) (v : α) (h : ∀ e ∈ t, e.1 ≠ key) :
    tableGet d (tableInsert key v t) i = if i = key then v else tableGet d t i := by
  induction t with
  | nil => simp [tableInsert, tableGet]
  | cons e t ih =>
    obtain ⟨k, w⟩ := e
    have hk : k ≠ key := h (k, w) (by simp)
    have ih' := ih fun x hx => h x (by simp [hx])
    simp only [tableInsert]
    split
    · simp [tableGet]
    · by_cases hi : i = k
      · subst hi; simp [tableGet, hk]
      · simp [tableGet, hi, ih']

theorem tableErase_keys (t : List (Nat × α)) (key : Nat) : ∀ e ∈ tableErase key t, e.1 ≠ key := by
  intro e he
  simpa [tableErase] using (List.mem_filter.mp he).2

/-- Read after write. -/
@[simp] theorem tableGet_put [DecidableEq α] (d : α) (t : List (Nat × α)) (key i : Nat) (v : α) :
    tableGet d (tablePut d t key v) i = if i = key then v else tableGet d t i := by
  unfold tablePut
  split
  · rename_i hv; subst hv; exact tableGet_erase v t key i
  · rw [tableGet_insert d _ key i v (tableErase_keys t key), tableGet_erase]
    split <;> rfl

@[simp] theorem tableGet_map [DecidableEq α] (d : α) (f : α → α) (hf : f d = d) (t : List (Nat × α)) (i : Nat) :
    tableGet d (tableMap d f t) i = f (tableGet d t i) := by
  induction t with
  | nil => simp [tableMap, hf]
  | cons e t ih =>
    obtain ⟨k, v⟩ := e
    simp only [tableMap, tableGet_put, ih, tableGet]
    split <;> rfl

/-! ### The canonical form -/

theorem tableWf_nil [DecidableEq α] (d : α) : tableWf d [] = true := by simp [tableWf]

theorem tableWf_iff [DecidableEq α] (d : α) (t : List (Nat × α)) :
    tableWf d t = true ↔ (t.map Prod.fst).Pairwise (· < ·) ∧ ∀ e ∈ t, e.2 ≠ d := by
  simp [tableWf]

theorem tableWf_erase [DecidableEq α] (d : α) (t : List (Nat × α)) (key : Nat) (h : tableWf d t = true) :
    tableWf d (tableErase key t) = true := by
  rw [tableWf_iff] at h ⊢
  unfold tableErase
  refine ⟨?_, fun e he => h.2 e (List.mem_filter.mp he).1⟩
  exact List.Pairwise.sublist (List.filter_sublist.map Prod.fst) h.1

theorem tableInsert_mem (key : Nat) (v : α) (t : List (Nat × α)) (e : Nat × α) :
    e ∈ tableInsert key v t ↔ e = (key, v) ∨ e ∈ t := by
  induction t with
  | nil => simp [tableInsert]
  | cons x t ih =>
    obtain ⟨k, w⟩ := x
    simp only [tableInsert]
    split
    · simp
    · simp only [List.mem_cons, ih]; tauto

theorem tableInsert_pairwise (key : Nat) (v : α) (t : List (Nat × α)) (hk : ∀ e ∈ t, e.1 ≠ key)
    (h : (t.map Prod.fst).Pairwise (· < ·)) : ((tableInsert key v t).map Prod.fst).Pairwise (· < ·) := by
  induction t with
  | nil => simp [tableInsert]
  | cons x t ih =>
    obtain ⟨k, w⟩ := x
    have hne : k ≠ key := hk (k, w) (by simp)
    simp only [List.map_cons, List.pairwise_cons] at h
    simp only [tableInsert]
    split
    · rename_i hlt
      simp only [List.map_cons, List.pairwise_cons, List.mem_cons]
      refine ⟨?_, h.1, h.2⟩
      rintro a (rfl | ha)
      · exact hlt
      · exact lt_trans hlt (h.1 a ha)
    · rename_i hge
      simp only [List.map_cons, List.pairwise_cons]
      refine ⟨?_, ih (fun e he => hk e (by simp [he])) h.2⟩
      intro a ha
      obtain ⟨e, he, rfl⟩ := List.mem_map.mp ha
      rcases (tableInsert_mem key v t e).mp he with rfl | he'
      · exact lt_of_le_of_ne (not_lt.mp hge) hne
      · exact h.1 _ (List.mem_map.mpr ⟨e, he', rfl⟩)

/-- A write keeps the canonical form. -/
theorem tableWf_put [DecidableEq α] (d : α) (t : List (Nat × α)) (key : Nat) (v : α) (h : tableWf d t = true) :
    tableWf d (tablePut d t key v) = true := by
  unfold tablePut
  split
  · exact tableWf_erase d t key h
  · rename_i hv
    have h' := (tableWf_iff d _).mp (tableWf_erase d t key h)
    rw [tableWf_iff]
    refine ⟨tableInsert_pairwise key v _ (tableErase_keys t key) h'.1, fun e he => ?_⟩
    rcases (tableInsert_mem key v _ e).mp he with rfl | he'
    · exact hv
    · exact h'.2 e he'

/-- A map over a table gives the canonical form, whatever the table was. -/
theorem tableWf_map [DecidableEq α] (d : α) (f : α → α) (t : List (Nat × α)) : tableWf d (tableMap d f t) = true := by
  induction t with
  | nil => simp [tableMap, tableWf]
  | cons e t ih => obtain ⟨k, v⟩ := e; exact tableWf_put d _ k _ ih

/-! ### The bytes of a slot -/

@[simp] theorem read_write (m : Memory) (a i : Nat) (b : Byte) :
    Memory.read (Memory.write m a b) i = if i = a then b else Memory.read m i := by
  simp [Memory.read, Memory.write]

theorem wf_write (m : Memory) (a : Nat) (b : Byte) (h : Memory.wf m = true) : Memory.wf (Memory.write m a b) = true :=
  tableWf_put _ _ _ _ h

theorem wf_writeFrom (bs : List Byte) : ∀ (m : Memory) (a : Nat), Memory.wf m = true → Memory.wf (memWriteFrom m a bs) = true := by
  induction bs with
  | nil => exact fun _ _ h => h
  | cons b bs ih => exact fun m a h => ih _ _ (wf_write m a b h)

/-- `MemWrite` keeps the canonical form. -/
theorem wf_memWrite (m : Memory) (bs : List Byte) (h : Memory.wf m = true) : Memory.wf (memWrite m bs) = true :=
  wf_writeFrom bs m 0 h

theorem read_writeFrom (bs : List Byte) : ∀ (m : Memory) (a i : Nat),
    Memory.read (memWriteFrom m a bs) i = if a ≤ i ∧ i < a + bs.length then bs.getD (i - a) 0 else Memory.read m i := by
  induction bs with
  | nil => intro m a i; simp [memWriteFrom]
  | cons b bs ih =>
    intro m a i
    simp only [memWriteFrom, ih, read_write, List.length_cons]
    by_cases h1 : i = a
    · subst h1; simp
    · rw [if_neg h1]
      by_cases h2 : a + 1 ≤ i ∧ i < a + 1 + bs.length
      · rw [if_pos h2, if_pos (by omega)]
        obtain ⟨k, rfl⟩ : ∃ k, i = a + 1 + k := ⟨i - (a + 1), by omega⟩
        rw [show a + 1 + k - (a + 1) = k by omega, show a + 1 + k - a = k + 1 by omega]
        simp
      · rw [if_neg h2, if_neg (by omega)]

/-- After `MemWrite` the written bytes read as written and the bytes behind them as before. -/
theorem read_memWrite (m : Memory) (bs : List Byte) (i : Nat) :
    Memory.read (memWrite m bs) i = if i < bs.length then bs.getD i 0 else Memory.read m i := by
  simp [memWrite, read_writeFrom]

theorem memReadFrom_length (m : Memory) (n : Nat) : ∀ a, (memReadFrom m a n).length = n := by
  induction n with
  | zero => intro a; rfl
  | succ n ih => intro a; simp [memReadFrom, ih]

@[simp] theorem memRead_length (m : Memory) (n : Nat) : (memRead m n).length = n := memReadFrom_length m n 0

theorem memReadFrom_getD (m : Memory) (n : Nat) : ∀ a k, k < n → (memReadFrom m a n)[k]? = some (Memory.read m (a + k)) := by
  induction n with
  | zero => intro a k h; omega
  | succ n ih =>
    intro a k h
    cases k with
    | zero => simp [memReadFrom]
    | succ k => simp only [memReadFrom, List.getElem?_cons_succ]; rw [ih (a + 1) k (by omega)]; congr 2; omega

/-- `MemRead` of what `MemWrite` wrote gives it back (R61, R62). -/
theorem memRead_memWrite (m : Memory) (bs : List Byte) : memRead (memWrite m bs) bs.length = bs := by
  apply List.ext_getElem?
  intro k
  by_cases hk : k < bs.length
  · rw [memRead, memReadFrom_getD _ _ _ _ hk, read_memWrite]
    simp [hk]
  · rw [List.getElem?_eq_none (by simpa using hk), List.getElem?_eq_none (by simpa using hk)]

end Sys2Proof.Laws
end

