-- ==== Sys2Proof/Laws/State.lean ====
section
/-! SUPPORT. One lemma per field per update of the state, true by rfl, so that no later proof unfolds a record update; and the same for
the conditional updates `requestTick`, `linkPush` and `llAvail`. -/

namespace Sys2Proof.Laws

open Sys2Proof.Machine

variable (s : State)


/-! ### `emit` -/

@[simp] theorem emit_par (o : Output) : (emit o s).par = s.par := rfl
@[simp] theorem emit_inq (o : Output) : (emit o s).inq = s.inq := rfl
@[simp] theorem emit_port (o : Output) : (emit o s).port = s.port := rfl
@[simp] theorem emit_out (o : Output) : (emit o s).out = s.out ++ [o] := rfl
@[simp] theorem emit_cfg (o : Output) : (emit o s).cfg = s.cfg := rfl
@[simp] theorem emit_life (o : Output) : (emit o s).life = s.life := rfl
@[simp] theorem emit_conn (o : Output) : (emit o s).conn = s.conn := rfl
@[simp] theorem emit_tx (o : Output) : (emit o s).tx = s.tx := rfl
@[simp] theorem emit_rx (o : Output) : (emit o s).rx = s.rx := rfl
@[simp] theorem emit_link (o : Output) : (emit o s).link = s.link := rfl
@[simp] theorem emit_eofPending (o : Output) : (emit o s).eofPending = s.eofPending := rfl
@[simp] theorem emit_tickAt (o : Output) : (emit o s).tickAt = s.tickAt := rfl
@[simp] theorem emit_ctx (o : Output) : (emit o s).ctx = s.ctx := rfl
@[simp] theorem emit_stats (o : Output) : (emit o s).stats = s.stats := rfl
@[simp] theorem emit_fs (o : Output) : (emit o s).fs = s.fs := rfl
@[simp] theorem emit_fault (o : Output) : (emit o s).fault = s.fault := rfl
@[simp] theorem emit_bsend (o : Output) : (emit o s).bsend = s.bsend := rfl

/-! ### `answer` -/

@[simp] theorem answer_par (st : Status) : (answer st s).par = s.par := rfl
@[simp] theorem answer_inq (st : Status) : (answer st s).inq = s.inq := rfl
@[simp] theorem answer_port (st : Status) : (answer st s).port = s.port := rfl
@[simp] theorem answer_out (st : Status) : (answer st s).out = s.out ++ [.status st] := rfl
@[simp] theorem answer_cfg (st : Status) : (answer st s).cfg = s.cfg := rfl
@[simp] theorem answer_life (st : Status) : (answer st s).life = s.life := rfl
@[simp] theorem answer_conn (st : Status) : (answer st s).conn = s.conn := rfl
@[simp] theorem answer_tx (st : Status) : (answer st s).tx = s.tx := rfl
@[simp] theorem answer_rx (st : Status) : (answer st s).rx = s.rx := rfl
@[simp] theorem answer_link (st : Status) : (answer st s).link = s.link := rfl
@[simp] theorem answer_eofPending (st : Status) : (answer st s).eofPending = s.eofPending := rfl
@[simp] theorem answer_tickAt (st : Status) : (answer st s).tickAt = s.tickAt := rfl
@[simp] theorem answer_ctx (st : Status) : (answer st s).ctx = s.ctx := rfl
@[simp] theorem answer_stats (st : Status) : (answer st s).stats = s.stats := rfl
@[simp] theorem answer_fs (st : Status) : (answer st s).fs = s.fs := rfl
@[simp] theorem answer_fault (st : Status) : (answer st s).fault = s.fault := rfl
@[simp] theorem answer_bsend (st : Status) : (answer st s).bsend = s.bsend := rfl

/-! ### `llSend` -/

@[simp] theorem llSend_par (b : List Byte) : (llSend b s).par = s.par := rfl
@[simp] theorem llSend_inq (b : List Byte) : (llSend b s).inq = s.inq := rfl
@[simp] theorem llSend_port (b : List Byte) : (llSend b s).port = s.port := rfl
@[simp] theorem llSend_out (b : List Byte) : (llSend b s).out = s.out ++ [.llSend b] := rfl
@[simp] theorem llSend_cfg (b : List Byte) : (llSend b s).cfg = s.cfg := rfl
@[simp] theorem llSend_life (b : List Byte) : (llSend b s).life = s.life := rfl
@[simp] theorem llSend_conn (b : List Byte) : (llSend b s).conn = s.conn := rfl
@[simp] theorem llSend_tx (b : List Byte) : (llSend b s).tx = s.tx := rfl
@[simp] theorem llSend_rx (b : List Byte) : (llSend b s).rx = s.rx := rfl
@[simp] theorem llSend_link (b : List Byte) : (llSend b s).link = s.link := rfl
@[simp] theorem llSend_eofPending (b : List Byte) : (llSend b s).eofPending = true := rfl
@[simp] theorem llSend_tickAt (b : List Byte) : (llSend b s).tickAt = s.tickAt := rfl
@[simp] theorem llSend_ctx (b : List Byte) : (llSend b s).ctx = s.ctx := rfl
@[simp] theorem llSend_stats (b : List Byte) : (llSend b s).stats = { s.stats with txBytes := s.stats.txBytes + BitVec.ofNat 64 b.length } := rfl
@[simp] theorem llSend_fs (b : List Byte) : (llSend b s).fs = s.fs := rfl
@[simp] theorem llSend_fault (b : List Byte) : (llSend b s).fault = s.fault := rfl
@[simp] theorem llSend_bsend (b : List Byte) : (llSend b s).bsend = s.bsend := rfl

/-! ### `llSendMarker` -/

@[simp] theorem llSendMarker_par : (llSendMarker s).par = s.par := rfl
@[simp] theorem llSendMarker_inq : (llSendMarker s).inq = s.inq := rfl
@[simp] theorem llSendMarker_port : (llSendMarker s).port = s.port := rfl
@[simp] theorem llSendMarker_out : (llSendMarker s).out = s.out ++ [.llSend [s.par.sofByte]] := rfl
@[simp] theorem llSendMarker_cfg : (llSendMarker s).cfg = s.cfg := rfl
@[simp] theorem llSendMarker_life : (llSendMarker s).life = s.life := rfl
@[simp] theorem llSendMarker_conn : (llSendMarker s).conn = s.conn := rfl
@[simp] theorem llSendMarker_tx : (llSendMarker s).tx = s.tx := rfl
@[simp] theorem llSendMarker_rx : (llSendMarker s).rx = s.rx := rfl
@[simp] theorem llSendMarker_link : (llSendMarker s).link = s.link := rfl
@[simp] theorem llSendMarker_eofPending : (llSendMarker s).eofPending = s.eofPending := rfl
@[simp] theorem llSendMarker_tickAt : (llSendMarker s).tickAt = s.tickAt := rfl
@[simp] theorem llSendMarker_ctx : (llSendMarker s).ctx = s.ctx := rfl
@[simp] theorem llSendMarker_stats : (llSendMarker s).stats = { s.stats with txBytes := s.stats.txBytes + 1 } := rfl
@[simp] theorem llSendMarker_fs : (llSendMarker s).fs = s.fs := rfl
@[simp] theorem llSendMarker_fault : (llSendMarker s).fault = s.fault := rfl
@[simp] theorem llSendMarker_bsend : (llSendMarker s).bsend = s.bsend := rfl

/-! ### `ringAppend` -/

@[simp] theorem ringAppend_par (w : Word64) : (ringAppend w s).par = s.par := rfl
@[simp] theorem ringAppend_inq (w : Word64) : (ringAppend w s).inq = s.inq := rfl
@[simp] theorem ringAppend_port (w : Word64) : (ringAppend w s).port = s.port := rfl
@[simp] theorem ringAppend_out (w : Word64) : (ringAppend w s).out = s.out := rfl
@[simp] theorem ringAppend_cfg (w : Word64) : (ringAppend w s).cfg = s.cfg := rfl
@[simp] theorem ringAppend_life (w : Word64) : (ringAppend w s).life = s.life := rfl
@[simp] theorem ringAppend_conn (w : Word64) : (ringAppend w s).conn = s.conn := rfl
@[simp] theorem ringAppend_tx (w : Word64) : (ringAppend w s).tx = s.tx := rfl
@[simp] theorem ringAppend_rx (w : Word64) : (ringAppend w s).rx = s.rx := rfl
@[simp] theorem ringAppend_link (w : Word64) : (ringAppend w s).link = { s.link with ring := tablePut 0 s.link.ring (ringIndex s s.link.count.toNat) w, count := s.link.count + 1 } := rfl
@[simp] theorem ringAppend_eofPending (w : Word64) : (ringAppend w s).eofPending = s.eofPending := rfl
@[simp] theorem ringAppend_tickAt (w : Word64) : (ringAppend w s).tickAt = s.tickAt := rfl
@[simp] theorem ringAppend_ctx (w : Word64) : (ringAppend w s).ctx = s.ctx := rfl
@[simp] theorem ringAppend_stats (w : Word64) : (ringAppend w s).stats = s.stats := rfl
@[simp] theorem ringAppend_fs (w : Word64) : (ringAppend w s).fs = s.fs := rfl
@[simp] theorem ringAppend_fault (w : Word64) : (ringAppend w s).fault = s.fault := rfl
@[simp] theorem ringAppend_bsend (w : Word64) : (ringAppend w s).bsend = s.bsend := rfl

/-! ### `setTxSlot` -/

@[simp] theorem setTxSlot_par (i : Nat) (v : TxSlot) : (setTxSlot i v s).par = s.par := rfl
@[simp] theorem setTxSlot_inq (i : Nat) (v : TxSlot) : (setTxSlot i v s).inq = s.inq := rfl
@[simp] theorem setTxSlot_port (i : Nat) (v : TxSlot) : (setTxSlot i v s).port = s.port := rfl
@[simp] theorem setTxSlot_out (i : Nat) (v : TxSlot) : (setTxSlot i v s).out = s.out := rfl
@[simp] theorem setTxSlot_cfg (i : Nat) (v : TxSlot) : (setTxSlot i v s).cfg = s.cfg := rfl
@[simp] theorem setTxSlot_life (i : Nat) (v : TxSlot) : (setTxSlot i v s).life = s.life := rfl
@[simp] theorem setTxSlot_conn (i : Nat) (v : TxSlot) : (setTxSlot i v s).conn = s.conn := rfl
@[simp] theorem setTxSlot_tx (i : Nat) (v : TxSlot) : (setTxSlot i v s).tx = { s.tx with slots := tablePut TxSlot.zero s.tx.slots i v } := rfl
@[simp] theorem setTxSlot_rx (i : Nat) (v : TxSlot) : (setTxSlot i v s).rx = s.rx := rfl
@[simp] theorem setTxSlot_link (i : Nat) (v : TxSlot) : (setTxSlot i v s).link = s.link := rfl
@[simp] theorem setTxSlot_eofPending (i : Nat) (v : TxSlot) : (setTxSlot i v s).eofPending = s.eofPending := rfl
@[simp] theorem setTxSlot_tickAt (i : Nat) (v : TxSlot) : (setTxSlot i v s).tickAt = s.tickAt := rfl
@[simp] theorem setTxSlot_ctx (i : Nat) (v : TxSlot) : (setTxSlot i v s).ctx = s.ctx := rfl
@[simp] theorem setTxSlot_stats (i : Nat) (v : TxSlot) : (setTxSlot i v s).stats = s.stats := rfl
@[simp] theorem setTxSlot_fs (i : Nat) (v : TxSlot) : (setTxSlot i v s).fs = s.fs := rfl
@[simp] theorem setTxSlot_fault (i : Nat) (v : TxSlot) : (setTxSlot i v s).fault = s.fault := rfl
@[simp] theorem setTxSlot_bsend (i : Nat) (v : TxSlot) : (setTxSlot i v s).bsend = s.bsend := rfl

/-! ### `setRxSlot` -/

@[simp] theorem setRxSlot_par (i : Nat) (v : RxSlot) : (setRxSlot i v s).par = s.par := rfl
@[simp] theorem setRxSlot_inq (i : Nat) (v : RxSlot) : (setRxSlot i v s).inq = s.inq := rfl
@[simp] theorem setRxSlot_port (i : Nat) (v : RxSlot) : (setRxSlot i v s).port = s.port := rfl
@[simp] theorem setRxSlot_out (i : Nat) (v : RxSlot) : (setRxSlot i v s).out = s.out := rfl
@[simp] theorem setRxSlot_cfg (i : Nat) (v : RxSlot) : (setRxSlot i v s).cfg = s.cfg := rfl
@[simp] theorem setRxSlot_life (i : Nat) (v : RxSlot) : (setRxSlot i v s).life = s.life := rfl
@[simp] theorem setRxSlot_conn (i : Nat) (v : RxSlot) : (setRxSlot i v s).conn = s.conn := rfl
@[simp] theorem setRxSlot_tx (i : Nat) (v : RxSlot) : (setRxSlot i v s).tx = s.tx := rfl
@[simp] theorem setRxSlot_rx (i : Nat) (v : RxSlot) : (setRxSlot i v s).rx = { s.rx with slots := tablePut RxSlot.zero s.rx.slots i v } := rfl
@[simp] theorem setRxSlot_link (i : Nat) (v : RxSlot) : (setRxSlot i v s).link = s.link := rfl
@[simp] theorem setRxSlot_eofPending (i : Nat) (v : RxSlot) : (setRxSlot i v s).eofPending = s.eofPending := rfl
@[simp] theorem setRxSlot_tickAt (i : Nat) (v : RxSlot) : (setRxSlot i v s).tickAt = s.tickAt := rfl
@[simp] theorem setRxSlot_ctx (i : Nat) (v : RxSlot) : (setRxSlot i v s).ctx = s.ctx := rfl
@[simp] theorem setRxSlot_stats (i : Nat) (v : RxSlot) : (setRxSlot i v s).stats = s.stats := rfl
@[simp] theorem setRxSlot_fs (i : Nat) (v : RxSlot) : (setRxSlot i v s).fs = s.fs := rfl
@[simp] theorem setRxSlot_fault (i : Nat) (v : RxSlot) : (setRxSlot i v s).fault = s.fault := rfl
@[simp] theorem setRxSlot_bsend (i : Nat) (v : RxSlot) : (setRxSlot i v s).bsend = s.bsend := rfl

/-! ### `refuse` -/

@[simp] theorem refuse_par (r : RefuseReason) : (refuse r s).par = s.par := rfl
@[simp] theorem refuse_inq (r : RefuseReason) : (refuse r s).inq = s.inq := rfl
@[simp] theorem refuse_port (r : RefuseReason) : (refuse r s).port = s.port := rfl
@[simp] theorem refuse_out (r : RefuseReason) : (refuse r s).out = s.out ++ [.refused r] := rfl
@[simp] theorem refuse_cfg (r : RefuseReason) : (refuse r s).cfg = s.cfg := rfl
@[simp] theorem refuse_life (r : RefuseReason) : (refuse r s).life = s.life := rfl
@[simp] theorem refuse_conn (r : RefuseReason) : (refuse r s).conn = s.conn := rfl
@[simp] theorem refuse_tx (r : RefuseReason) : (refuse r s).tx = s.tx := rfl
@[simp] theorem refuse_rx (r : RefuseReason) : (refuse r s).rx = s.rx := rfl
@[simp] theorem refuse_link (r : RefuseReason) : (refuse r s).link = s.link := rfl
@[simp] theorem refuse_eofPending (r : RefuseReason) : (refuse r s).eofPending = s.eofPending := rfl
@[simp] theorem refuse_tickAt (r : RefuseReason) : (refuse r s).tickAt = s.tickAt := rfl
@[simp] theorem refuse_ctx (r : RefuseReason) : (refuse r s).ctx = s.ctx := rfl
@[simp] theorem refuse_stats (r : RefuseReason) : (refuse r s).stats = s.stats := rfl
@[simp] theorem refuse_fs (r : RefuseReason) : (refuse r s).fs = s.fs := rfl
@[simp] theorem refuse_fault (r : RefuseReason) : (refuse r s).fault = s.fault ||| reasonBit r := rfl
@[simp] theorem refuse_bsend (r : RefuseReason) : (refuse r s).bsend = s.bsend := rfl

/-! ### `callbackEnter` -/

@[simp] theorem callbackEnter_par (o : Output) : (callbackEnter o s).par = s.par := rfl
@[simp] theorem callbackEnter_inq (o : Output) : (callbackEnter o s).inq = s.inq := rfl
@[simp] theorem callbackEnter_port (o : Output) : (callbackEnter o s).port = { s.port with handlers := s.port.handlers.tail } := rfl
@[simp] theorem callbackEnter_out (o : Output) : (callbackEnter o s).out = s.out ++ [o] := rfl
@[simp] theorem callbackEnter_cfg (o : Output) : (callbackEnter o s).cfg = s.cfg := rfl
@[simp] theorem callbackEnter_life (o : Output) : (callbackEnter o s).life = s.life := rfl
@[simp] theorem callbackEnter_conn (o : Output) : (callbackEnter o s).conn = s.conn := rfl
@[simp] theorem callbackEnter_tx (o : Output) : (callbackEnter o s).tx = s.tx := rfl
@[simp] theorem callbackEnter_rx (o : Output) : (callbackEnter o s).rx = s.rx := rfl
@[simp] theorem callbackEnter_link (o : Output) : (callbackEnter o s).link = s.link := rfl
@[simp] theorem callbackEnter_eofPending (o : Output) : (callbackEnter o s).eofPending = s.eofPending := rfl
@[simp] theorem callbackEnter_tickAt (o : Output) : (callbackEnter o s).tickAt = s.tickAt := rfl
@[simp] theorem callbackEnter_ctx (o : Output) : (callbackEnter o s).ctx = { s.ctx with cbDepth := s.ctx.cbDepth + 1 } := rfl
@[simp] theorem callbackEnter_stats (o : Output) : (callbackEnter o s).stats = s.stats := rfl
@[simp] theorem callbackEnter_fs (o : Output) : (callbackEnter o s).fs = s.fs := rfl
@[simp] theorem callbackEnter_fault (o : Output) : (callbackEnter o s).fault = s.fault := rfl
@[simp] theorem callbackEnter_bsend (o : Output) : (callbackEnter o s).bsend = s.bsend := rfl

/-! ### `callbackReturn` -/

@[simp] theorem callbackReturn_par : (callbackReturn s).par = s.par := rfl
@[simp] theorem callbackReturn_inq : (callbackReturn s).inq = s.inq := rfl
@[simp] theorem callbackReturn_port : (callbackReturn s).port = s.port := rfl
@[simp] theorem callbackReturn_out : (callbackReturn s).out = s.out := rfl
@[simp] theorem callbackReturn_cfg : (callbackReturn s).cfg = s.cfg := rfl
@[simp] theorem callbackReturn_life : (callbackReturn s).life = s.life := rfl
@[simp] theorem callbackReturn_conn : (callbackReturn s).conn = s.conn := rfl
@[simp] theorem callbackReturn_tx : (callbackReturn s).tx = s.tx := rfl
@[simp] theorem callbackReturn_rx : (callbackReturn s).rx = s.rx := rfl
@[simp] theorem callbackReturn_link : (callbackReturn s).link = s.link := rfl
@[simp] theorem callbackReturn_eofPending : (callbackReturn s).eofPending = s.eofPending := rfl
@[simp] theorem callbackReturn_tickAt : (callbackReturn s).tickAt = s.tickAt := rfl
@[simp] theorem callbackReturn_ctx : (callbackReturn s).ctx = { s.ctx with cbDepth := s.ctx.cbDepth - 1 } := rfl
@[simp] theorem callbackReturn_stats : (callbackReturn s).stats = s.stats := rfl
@[simp] theorem callbackReturn_fs : (callbackReturn s).fs = s.fs := rfl
@[simp] theorem callbackReturn_fault : (callbackReturn s).fault = s.fault := rfl
@[simp] theorem callbackReturn_bsend : (callbackReturn s).bsend = s.bsend := rfl

/-! ### `resetRegisters` -/

@[simp] theorem resetRegisters_par : (resetRegisters s).par = s.par := rfl
@[simp] theorem resetRegisters_inq : (resetRegisters s).inq = s.inq := rfl
@[simp] theorem resetRegisters_port : (resetRegisters s).port = s.port := rfl
@[simp] theorem resetRegisters_out : (resetRegisters s).out = s.out := rfl
@[simp] theorem resetRegisters_cfg : (resetRegisters s).cfg = s.cfg := rfl
@[simp] theorem resetRegisters_life : (resetRegisters s).life = s.life := rfl
@[simp] theorem resetRegisters_conn : (resetRegisters s).conn = { s.conn with activity := false, state := .disconnected } := rfl
@[simp] theorem resetRegisters_tx : (resetRegisters s).tx = ⟨0, 0, 1, tableMap TxSlot.zero resetTxSlot s.tx.slots⟩ := rfl
@[simp] theorem resetRegisters_rx : (resetRegisters s).rx = ⟨0, 0, tableMap RxSlot.zero resetRxSlot s.rx.slots⟩ := rfl
@[simp] theorem resetRegisters_link : (resetRegisters s).link = { s.link with head := 0, count := 0 } := rfl
@[simp] theorem resetRegisters_eofPending : (resetRegisters s).eofPending = s.eofPending := rfl
@[simp] theorem resetRegisters_tickAt : (resetRegisters s).tickAt = s.tickAt := rfl
@[simp] theorem resetRegisters_ctx : (resetRegisters s).ctx = { s.ctx with resetEpoch := s.ctx.resetEpoch + 1 } := rfl
@[simp] theorem resetRegisters_stats : (resetRegisters s).stats = s.stats := rfl
@[simp] theorem resetRegisters_fs : (resetRegisters s).fs = s.fs := rfl
@[simp] theorem resetRegisters_fault : (resetRegisters s).fault = s.fault := rfl
@[simp] theorem resetRegisters_bsend : (resetRegisters s).bsend = s.bsend := rfl

/-! ### `retireHead` -/

@[simp] theorem retireHead_par : (retireHead s).par = s.par := rfl
@[simp] theorem retireHead_inq : (retireHead s).inq = s.inq := rfl
@[simp] theorem retireHead_port : (retireHead s).port = s.port := rfl
@[simp] theorem retireHead_out : (retireHead s).out = s.out := rfl
@[simp] theorem retireHead_cfg : (retireHead s).cfg = s.cfg := rfl
@[simp] theorem retireHead_life : (retireHead s).life = s.life := rfl
@[simp] theorem retireHead_conn : (retireHead s).conn = s.conn := rfl
@[simp] theorem retireHead_tx : (retireHead s).tx = { s.tx with lastId := idInc s.tx.lastId, slots := tablePut TxSlot.zero s.tx.slots (txIndex s s.tx.lastId) { txSlot s (txIndex s s.tx.lastId) with state := .idle, sendCount := 0 } } := rfl
@[simp] theorem retireHead_rx : (retireHead s).rx = s.rx := rfl
@[simp] theorem retireHead_link : (retireHead s).link = s.link := rfl
@[simp] theorem retireHead_eofPending : (retireHead s).eofPending = s.eofPending := rfl
@[simp] theorem retireHead_tickAt : (retireHead s).tickAt = s.tickAt := rfl
@[simp] theorem retireHead_ctx : (retireHead s).ctx = s.ctx := rfl
@[simp] theorem retireHead_stats : (retireHead s).stats = { s.stats with txDataFrames := s.stats.txDataFrames + 1 } := rfl
@[simp] theorem retireHead_fs : (retireHead s).fs = s.fs := rfl
@[simp] theorem retireHead_fault : (retireHead s).fault = s.fault := rfl
@[simp] theorem retireHead_bsend : (retireHead s).bsend = s.bsend := rfl

/-! ### `statusClear` -/

@[simp] theorem statusClear_par : (statusClear s).par = s.par := rfl
@[simp] theorem statusClear_inq : (statusClear s).inq = s.inq := rfl
@[simp] theorem statusClear_port : (statusClear s).port = s.port := rfl
@[simp] theorem statusClear_out : (statusClear s).out = s.out := rfl
@[simp] theorem statusClear_cfg : (statusClear s).cfg = s.cfg := rfl
@[simp] theorem statusClear_life : (statusClear s).life = s.life := rfl
@[simp] theorem statusClear_conn : (statusClear s).conn = s.conn := rfl
@[simp] theorem statusClear_tx : (statusClear s).tx = s.tx := rfl
@[simp] theorem statusClear_rx : (statusClear s).rx = s.rx := rfl
@[simp] theorem statusClear_link : (statusClear s).link = { s.link with drops := 0 } := rfl
@[simp] theorem statusClear_eofPending : (statusClear s).eofPending = s.eofPending := rfl
@[simp] theorem statusClear_tickAt : (statusClear s).tickAt = s.tickAt := rfl
@[simp] theorem statusClear_ctx : (statusClear s).ctx = s.ctx := rfl
@[simp] theorem statusClear_stats : (statusClear s).stats = ⟨0, 0, 0, 0, 0, 0⟩ := rfl
@[simp] theorem statusClear_fs : (statusClear s).fs = framerStatusClear s.par s.fs := rfl
@[simp] theorem statusClear_fault : (statusClear s).fault = s.fault := rfl
@[simp] theorem statusClear_bsend : (statusClear s).bsend = s.bsend := rfl

/-! ### `latch` -/

@[simp] theorem latch_par (e : Env) (rest : List Input) : (latch e rest s).par = s.par := rfl
@[simp] theorem latch_inq (e : Env) (rest : List Input) : (latch e rest s).inq = rest := rfl
@[simp] theorem latch_port (e : Env) (rest : List Input) : (latch e rest s).port = { s.port with now := e.now, caller := e.caller, avail := e.avail, handlers := e.handlers } := rfl
@[simp] theorem latch_out (e : Env) (rest : List Input) : (latch e rest s).out = s.out := rfl
@[simp] theorem latch_cfg (e : Env) (rest : List Input) : (latch e rest s).cfg = s.cfg := rfl
@[simp] theorem latch_life (e : Env) (rest : List Input) : (latch e rest s).life = s.life := rfl
@[simp] theorem latch_conn (e : Env) (rest : List Input) : (latch e rest s).conn = s.conn := rfl
@[simp] theorem latch_tx (e : Env) (rest : List Input) : (latch e rest s).tx = s.tx := rfl
@[simp] theorem latch_rx (e : Env) (rest : List Input) : (latch e rest s).rx = s.rx := rfl
@[simp] theorem latch_link (e : Env) (rest : List Input) : (latch e rest s).link = s.link := rfl
@[simp] theorem latch_eofPending (e : Env) (rest : List Input) : (latch e rest s).eofPending = s.eofPending := rfl
@[simp] theorem latch_tickAt (e : Env) (rest : List Input) : (latch e rest s).tickAt = s.tickAt := rfl
@[simp] theorem latch_ctx (e : Env) (rest : List Input) : (latch e rest s).ctx = s.ctx := rfl
@[simp] theorem latch_stats (e : Env) (rest : List Input) : (latch e rest s).stats = s.stats := rfl
@[simp] theorem latch_fs (e : Env) (rest : List Input) : (latch e rest s).fs = s.fs := rfl
@[simp] theorem latch_fault (e : Env) (rest : List Input) : (latch e rest s).fault = s.fault := rfl
@[simp] theorem latch_bsend (e : Env) (rest : List Input) : (latch e rest s).bsend = s.bsend := rfl

/-! ### `requestTick` -/

@[simp] theorem requestTick_par : (requestTick s).par = s.par := by unfold requestTick; split <;> rfl
@[simp] theorem requestTick_inq : (requestTick s).inq = s.inq := by unfold requestTick; split <;> rfl
@[simp] theorem requestTick_port : (requestTick s).port = s.port := by unfold requestTick; split <;> rfl
@[simp] theorem requestTick_out : (requestTick s).out =
    if s.port.now.toInt < s.tickAt.toInt ∧ s.ctx.inProcess = false then s.out ++ [.wake] else s.out := by
  unfold requestTick; split <;> rfl
@[simp] theorem requestTick_cfg : (requestTick s).cfg = s.cfg := by unfold requestTick; split <;> rfl
@[simp] theorem requestTick_life : (requestTick s).life = s.life := by unfold requestTick; split <;> rfl
@[simp] theorem requestTick_conn : (requestTick s).conn = s.conn := by unfold requestTick; split <;> rfl
@[simp] theorem requestTick_tx : (requestTick s).tx = s.tx := by unfold requestTick; split <;> rfl
@[simp] theorem requestTick_rx : (requestTick s).rx = s.rx := by unfold requestTick; split <;> rfl
@[simp] theorem requestTick_link : (requestTick s).link = s.link := by unfold requestTick; split <;> rfl
@[simp] theorem requestTick_eofPending : (requestTick s).eofPending = s.eofPending := by unfold requestTick; split <;> rfl
@[simp] theorem requestTick_tickAt : (requestTick s).tickAt = timeMin s.tickAt s.port.now := by unfold requestTick; split <;> rfl
@[simp] theorem requestTick_ctx : (requestTick s).ctx = s.ctx := by unfold requestTick; split <;> rfl
@[simp] theorem requestTick_stats : (requestTick s).stats = s.stats := by unfold requestTick; split <;> rfl
@[simp] theorem requestTick_fs : (requestTick s).fs = s.fs := by unfold requestTick; split <;> rfl
@[simp] theorem requestTick_fault : (requestTick s).fault = s.fault := by unfold requestTick; split <;> rfl
@[simp] theorem requestTick_bsend : (requestTick s).bsend = s.bsend := by unfold requestTick; split <;> rfl

/-! ### `linkPush` -/

@[simp] theorem linkPush_par (t : LinkType) (g : FrameId) : (linkPush t g s).par = s.par := by
  unfold linkPush; split_ifs <;> simp
@[simp] theorem linkPush_inq (t : LinkType) (g : FrameId) : (linkPush t g s).inq = s.inq := by
  unfold linkPush; split_ifs <;> simp
@[simp] theorem linkPush_port (t : LinkType) (g : FrameId) : (linkPush t g s).port = s.port := by
  unfold linkPush; split_ifs <;> simp
@[simp] theorem linkPush_cfg (t : LinkType) (g : FrameId) : (linkPush t g s).cfg = s.cfg := by
  unfold linkPush; split_ifs <;> simp
@[simp] theorem linkPush_life (t : LinkType) (g : FrameId) : (linkPush t g s).life = s.life := by
  unfold linkPush; split_ifs <;> simp
@[simp] theorem linkPush_conn (t : LinkType) (g : FrameId) : (linkPush t g s).conn = s.conn := by
  unfold linkPush; split_ifs <;> simp
@[simp] theorem linkPush_tx (t : LinkType) (g : FrameId) : (linkPush t g s).tx = s.tx := by
  unfold linkPush; split_ifs <;> simp
@[simp] theorem linkPush_rx (t : LinkType) (g : FrameId) : (linkPush t g s).rx = s.rx := by
  unfold linkPush; split_ifs <;> simp
@[simp] theorem linkPush_eofPending (t : LinkType) (g : FrameId) : (linkPush t g s).eofPending = s.eofPending := by
  unfold linkPush; split_ifs <;> simp
@[simp] theorem linkPush_ctx (t : LinkType) (g : FrameId) : (linkPush t g s).ctx = s.ctx := by
  unfold linkPush; split_ifs <;> simp
@[simp] theorem linkPush_stats (t : LinkType) (g : FrameId) : (linkPush t g s).stats = s.stats := by
  unfold linkPush; split_ifs <;> simp
@[simp] theorem linkPush_fs (t : LinkType) (g : FrameId) : (linkPush t g s).fs = s.fs := by
  unfold linkPush; split_ifs <;> simp
@[simp] theorem linkPush_fault (t : LinkType) (g : FrameId) : (linkPush t g s).fault = s.fault := by
  unfold linkPush; split_ifs <;> simp
@[simp] theorem linkPush_bsend (t : LinkType) (g : FrameId) : (linkPush t g s).bsend = s.bsend := by
  unfold linkPush; split_ifs <;> simp

/-! ### `llAvail` -/

@[simp] theorem llAvail_par : (llAvail s).2.par = s.par := by unfold llAvail; split <;> rfl
@[simp] theorem llAvail_inq : (llAvail s).2.inq = s.inq := by unfold llAvail; split <;> rfl
@[simp] theorem llAvail_out : (llAvail s).2.out = s.out := by unfold llAvail; split <;> rfl
@[simp] theorem llAvail_cfg : (llAvail s).2.cfg = s.cfg := by unfold llAvail; split <;> rfl
@[simp] theorem llAvail_life : (llAvail s).2.life = s.life := by unfold llAvail; split <;> rfl
@[simp] theorem llAvail_conn : (llAvail s).2.conn = s.conn := by unfold llAvail; split <;> rfl
@[simp] theorem llAvail_tx : (llAvail s).2.tx = s.tx := by unfold llAvail; split <;> rfl
@[simp] theorem llAvail_rx : (llAvail s).2.rx = s.rx := by unfold llAvail; split <;> rfl
@[simp] theorem llAvail_link : (llAvail s).2.link = s.link := by unfold llAvail; split <;> rfl
@[simp] theorem llAvail_eofPending : (llAvail s).2.eofPending = s.eofPending := by unfold llAvail; split <;> rfl
@[simp] theorem llAvail_tickAt : (llAvail s).2.tickAt = s.tickAt := by unfold llAvail; split <;> rfl
@[simp] theorem llAvail_ctx : (llAvail s).2.ctx = s.ctx := by unfold llAvail; split <;> rfl
@[simp] theorem llAvail_stats : (llAvail s).2.stats = s.stats := by unfold llAvail; split <;> rfl
@[simp] theorem llAvail_fs : (llAvail s).2.fs = s.fs := by unfold llAvail; split <;> rfl
@[simp] theorem llAvail_fault : (llAvail s).2.fault = s.fault := by unfold llAvail; split <;> rfl
@[simp] theorem llAvail_bsend : (llAvail s).2.bsend = s.bsend := by unfold llAvail; split <;> rfl
@[simp] theorem llAvail_now : (llAvail s).2.port.now = s.port.now := by unfold llAvail; split <;> rfl
@[simp] theorem llAvail_caller : (llAvail s).2.port.caller = s.port.caller := by unfold llAvail; split <;> rfl
@[simp] theorem llAvail_handlers : (llAvail s).2.port.handlers = s.port.handlers := by unfold llAvail; split <;> rfl

/-! ### Slots after a write -/

@[simp] theorem txSlot_setTxSlot (i j : Nat) (v : TxSlot) : txSlot (setTxSlot i v s) j = if j = i then v else txSlot s j := by
  simp [txSlot]

@[simp] theorem rxSlot_setRxSlot (i j : Nat) (v : RxSlot) : rxSlot (setRxSlot i v s) j = if j = i then v else rxSlot s j := by
  simp [rxSlot]

@[simp] theorem txSlot_resetRegisters (i : Nat) : txSlot (resetRegisters s) i = resetTxSlot (txSlot s i) := by
  simp only [txSlot, resetRegisters_tx]; exact tableGet_map _ _ rfl _ _

@[simp] theorem rxSlot_resetRegisters (i : Nat) : rxSlot (resetRegisters s) i = resetRxSlot (rxSlot s i) := by
  simp only [rxSlot, resetRegisters_rx]; exact tableGet_map _ _ rfl _ _

/-- What a slot reads as depends on the TX unit alone. -/
theorem txSlot_congr {t : State} (h : t.tx = s.tx) (i : Nat) : txSlot t i = txSlot s i := by simp [txSlot, h]

theorem rxSlot_congr {t : State} (h : t.rx = s.rx) (i : Nat) : rxSlot t i = rxSlot s i := by simp [rxSlot, h]

theorem txIndex_congr {t : State} (h : t.tx = s.tx) (f : FrameId) : txIndex t f = txIndex s f := by simp [txIndex, h]

theorem rxIndex_congr {t : State} (h : t.cfg = s.cfg) (f : FrameId) : rxIndex t f = rxIndex s f := by simp [rxIndex, h]

theorem txWindow_congr {t : State} (h : t.tx = s.tx) : txWindow t = txWindow s := by simp [txWindow, h]

theorem ringIndex_congr {t : State} (h : t.link.head = s.link.head) (hc : t.cfg = s.cfg) (k : Nat) :
    ringIndex t k = ringIndex s k := by simp [ringIndex, h, hc]

end Sys2Proof.Laws
end

