-- ==== Sys2Proof/Laws/Ops.lean ====
section
/-! SUPPORT. For each shared operation one lemma that says once everything it does: as one record update, or as the cases it has. -/

namespace Sys2Proof.Laws

open Sys2Proof Sys2Proof.Machine

variable (s : State)

/-! ### Admission (R305) -/

/-- A command that is not INIT is admitted at top level. -/
theorem refusalOf_ready {s : State} {i : Instr} (h : Ready s) (hi : isInit i = false) : refusalOf i s = none := by
  obtain ⟨h1, h2, h3⟩ := h
  unfold refusalOf
  rw [if_neg (by simp [h1]), if_neg (by simp [hi]), if_neg (by simp [h1]), if_neg (by simp [h2]), if_neg (by omega)]

/-- A command that may nest is admitted at top level and in a callback. -/
theorem refusalOf_readyNested {s : State} {i : Instr} (h : ReadyNested s) (hi : mayNest i = true) (hn : isInit i = false) :
    refusalOf i s = none := by
  obtain ⟨h1, h3⟩ := h
  unfold refusalOf
  rw [if_neg (by simp [h1]), if_neg (by simp [hn]), if_neg (by simp [h1]), if_neg (by simp [hi]), if_neg]
  rintro ⟨_, h4, h5⟩
  exact absurd (h3 h4) (not_le.mpr h5)

theorem Ready.nested {s : State} (h : Ready s) : ReadyNested s := ⟨h.1, fun _ => h.2.2⟩

/-- INIT is admitted before INIT. -/
theorem refusalOf_init {s : State} (c : CfgRecord) (h : s.life = .uninit) (hd : s.ctx.cbDepth = 0) :
    refusalOf (.init c) s = none := by
  unfold refusalOf
  rw [if_neg (by simp [isInit]), if_neg (by simp [h]), if_neg (by simp [h]), if_neg (by simp [hd]), if_neg (by simp [h])]

theorem accept_of_none {i : Instr} {s : State} (body : State → State) (h : refusalOf i s = none) :
    accept i body s = body (accepted s) := by unfold accept; rw [h]; rfl

theorem accept_of_some {i : Instr} {s : State} {r : RefuseReason} (body : State → State) (h : refusalOf i s = some r) :
    accept i body s = refuse r s := by unfold accept; rw [h]

theorem accept_ready {i : Instr} {s : State} (body : State → State) (h : Ready s) (hi : isInit i = false) :
    accept i body s = body (accepted s) := accept_of_none body (refusalOf_ready h hi)

theorem accept_readyNested {i : Instr} {s : State} (body : State → State) (h : ReadyNested s) (hi : mayNest i = true)
    (hn : isInit i = false) : accept i body s = body (accepted s) := accept_of_none body (refusalOf_readyNested h hi hn)

/-- The frame of a processing-context command: enter, run, leave, SUCCESS. -/
theorem rxCommand_accepted (body : State → State) : rxCommand body (accepted s) = completed (body (entered s)) := rfl

/-- A processing-context command that is admitted. -/
theorem accept_rxCommand {i : Instr} {s : State} (body : State → State) (h : Ready s) (hi : isInit i = false) :
    accept i (rxCommand body) s = completed (body (entered s)) := (accept_ready _ h hi).trans rfl

/-! ### Ports and ticks -/

/-- `RequestTick()` as one update (R263). -/
theorem requestTick_eq : requestTick s =
    { s with
      tickAt := if s.tickAt.toInt ≤ s.port.now.toInt then s.tickAt else s.port.now
      out := s.out ++ (if s.port.now.toInt < s.tickAt.toInt ∧ s.ctx.inProcess = false then [.wake] else []) } := by
  unfold requestTick timeMin emit
  split
  · rfl
  · simp

/-- A tick request in the processing context makes no pulse. -/
theorem requestTick_inProcess {s : State} (h : s.ctx.inProcess = true) : requestTick s =
    { s with tickAt := if s.tickAt.toInt ≤ s.port.now.toInt then s.tickAt else s.port.now } := by
  rw [requestTick_eq]; simp [h]

/-- `LLAvail()` moves the port alone. -/
theorem llAvail_eq : (llAvail s).2 = { s with port := (llAvail s).2.port } := by
  unfold llAvail; split <;> rfl

/-! ### The link ring -/

theorem link_bv_ne_max {a b : BitVec 32} (h : a ≠ b) (hle : a.toNat ≤ b.toNat) : (a + 1).toNat = a.toNat + 1 := by
  have h1 : a.toNat ≠ b.toNat := fun e => h (BitVec.eq_of_toNat_eq e)
  have := b.isLt
  rw [BitVec.toNat_add]
  simp
  omega

theorem link_bv_add_one_eq_one (a : BitVec 32) : a + 1 = 1 ↔ a = 0 := by
  constructor
  · intro h
    have : a + 1 - 1 = 1 - 1 := by rw [h]
    simpa using this
  · rintro rfl; rfl

/-- A push to a full ring (R231). -/
theorem linkPush_full {s : State} (t : LinkType) (f : FrameId) (h : s.link.count = s.cfg.txLinkSize) :
    linkPush t f s = { s with link := { s.link with drops := s.link.drops + 1 } } := by unfold linkPush; rw [if_pos h]

/-- A push to a ring with room, as one update (R230, R232). -/
theorem linkPush_room {s : State} (t : LinkType) (f : FrameId) (h : s.link.count ≠ s.cfg.txLinkSize) :
    linkPush t f s =
      { s with
        link := { s.link with ring := tablePut 0 s.link.ring (ringIndex s s.link.count.toNat) (linkWord s t f),
                              count := s.link.count + 1 }
        tickAt := if s.link.count = 0 ∧ s.port.now.toInt < s.tickAt.toInt then s.port.now else s.tickAt
        out := s.out ++
          (if s.link.count = 0 ∧ s.port.now.toInt < s.tickAt.toInt ∧ s.ctx.inProcess = false then [.wake] else []) } := by
  unfold linkPush
  rw [if_neg h]
  simp only [link_bv_add_one_eq_one]
  by_cases h0 : s.link.count = 0
  · rw [if_pos h0, requestTick_eq]
    simp only [ringAppend, h0, true_and, linkWord]
    by_cases ht : s.tickAt.toInt ≤ s.port.now.toInt
    · simp [ht, not_lt.mpr ht]
    · simp [ht, not_le.mp ht]
  · rw [if_neg h0]; simp only [ringAppend, h0, linkWord, false_and, if_false, List.append_nil]

/-! ### Callbacks -/

/-- A callback whose handler is not wired: the call shows on the port and nothing else changes (D37). -/
theorem callback_unwired {s : State} (run : NestedCommand → State → State) (o : Output) (h : s.port.handlers = []) :
    callback run o s = emit o s := by
  obtain ⟨par, inq, port, out, cfg, life, conn, tx, rx, link, eof, tick, ctx, stats, fs, fault, bsend⟩ := s
  obtain ⟨now, caller, avail, handlers, fc⟩ := port
  obtain rfl : handlers = [] := h
  simp [callback, handlerScript, callbackEnter, callbackReturn, emit]

/-- What a callback does (R309, R310): the handler's commands run in order from the entry's state, then the return. -/
theorem callback_eq (run : NestedCommand → State → State) (o : Output) :
    callback run o s = callbackReturn ((s.port.handlers.headD []).foldl (fun t c => run c t) (called o s)) := rfl

/-! ### Times (R11) -/

/-- An exact time that i64 represents is written as it is (D52). -/
theorem timeOf_toInt {t : Int} (h0 : -2 ^ 63 ≤ t) (h1 : t < 2 ^ 63) : (timeOf t).toInt = t := by
  unfold timeOf
  rw [if_pos ⟨h0, h1⟩, BitVec.toInt_ofInt, Int.bmod_def]
  norm_num; omega

/-! ### Blocking-send records (R42) -/

theorem bsendOf_setBSend (r : BSend) (c : Nat) (rs : List BSend) :
    bsendOf c (setBSend r rs) = if c = r.caller then some r else bsendOf c rs := by
  induction rs with
  | nil =>
    by_cases h : c = r.caller
    · simp [setBSend, bsendOf, h]
    · simp [setBSend, bsendOf, h, Ne.symm h]
  | cons q rs ih =>
    simp only [setBSend]
    by_cases hq : q.caller = r.caller
    · rw [if_pos hq]
      by_cases h : c = r.caller
      · simp [bsendOf, h]
      · have h1 : ¬ r.caller = c := fun e => h e.symm
        have h2 : ¬ q.caller = c := fun e => h (e.symm.trans hq)
        simp [bsendOf, h, h1, h2]
    · rw [if_neg hq]
      by_cases h2 : q.caller = c
      · have h : ¬ c = r.caller := fun e => hq (h2.trans e)
        simp [bsendOf, h, h2]
      · have e1 : bsendOf c (q :: setBSend r rs) = bsendOf c (setBSend r rs) := by simp [bsendOf, h2]
        have e2 : bsendOf c (q :: rs) = bsendOf c rs := by simp [bsendOf, h2]
        rw [e1, e2, ih]

end Sys2Proof.Laws
end

