-- ==== Sys2Proof/Laws/Frame.lean ====
section
/-! SUPPORT. The frame that every procedure inside a command keeps: parameters, configuration, lifecycle, the latched input, both context
marks; outputs and fault bits are only added; no `wake` in the processing context. One lemma per procedure. -/

namespace Sys2Proof.Laws

open Sys2Proof Sys2Proof.Machine

/-- What no procedure inside a command changes, and what it only adds to. -/
structure Same (s t : State) : Prop where
  par : t.par = s.par
  cfg : t.cfg = s.cfg
  life : t.life = s.life
  inq : t.inq = s.inq
  now : t.port.now = s.port.now
  caller : t.port.caller = s.port.caller
  inProcess : t.ctx.inProcess = s.ctx.inProcess
  cbDepth : t.ctx.cbDepth = s.ctx.cbDepth
  fault : t.fault &&& s.fault = s.fault
  out : ∃ o, t.out = s.out ++ o ∧ (s.ctx.inProcess = true → Output.wake ∉ o)

theorem Same.refl (s : State) : Same s s :=
  ⟨rfl, rfl, rfl, rfl, rfl, rfl, rfl, rfl, BitVec.and_self, [], by simp, by simp⟩

theorem Same.trans {s t u : State} (h : Same s t) (k : Same t u) : Same s u where
  par := k.par.trans h.par
  cfg := k.cfg.trans h.cfg
  life := k.life.trans h.life
  inq := k.inq.trans h.inq
  now := k.now.trans h.now
  caller := k.caller.trans h.caller
  inProcess := k.inProcess.trans h.inProcess
  cbDepth := k.cbDepth.trans h.cbDepth
  fault := by rw [← h.fault, ← BitVec.and_assoc, k.fault]
  out := by
    obtain ⟨o, ho, hw⟩ := h.out
    obtain ⟨p, hp, hv⟩ := k.out
    refine ⟨o ++ p, by rw [hp, ho, List.append_assoc], fun hi => ?_⟩
    rw [List.mem_append, not_or]
    exact ⟨hw hi, hv (h.inProcess.trans hi)⟩

/-- An update of none of these fields. -/
theorem Same.of_eq {s t : State} (par : t.par = s.par) (cfg : t.cfg = s.cfg) (life : t.life = s.life) (inq : t.inq = s.inq)
    (now : t.port.now = s.port.now) (caller : t.port.caller = s.port.caller) (inProcess : t.ctx.inProcess = s.ctx.inProcess)
    (cbDepth : t.ctx.cbDepth = s.ctx.cbDepth) (fault : t.fault = s.fault) (out : t.out = s.out) : Same s t :=
  ⟨par, cfg, life, inq, now, caller, inProcess, cbDepth, by rw [fault, BitVec.and_self], [], by simp [out], by simp⟩

theorem same_foldl {α : Type} (f : State → α → State) (h : ∀ s a, Same s (f s a)) (l : List α) : ∀ s, Same s (l.foldl f s) := by
  induction l with
  | nil => exact fun s => .refl s
  | cons a l ih => exact fun s => (h s a).trans (ih _)

variable (s : State)

/-! ### Ports, ticks, ring, slots -/

theorem same_emit (o : Output) (h : o ≠ .wake) : Same s (emit o s) :=
  { Same.refl s with out := ⟨[o], rfl, fun _ => by simpa using h.symm⟩ }

theorem same_answer (st : Status) : Same s (answer st s) := same_emit s _ (by simp)

theorem same_llSend (b : List Byte) : Same s (llSend b s) :=
  { Same.refl s with out := ⟨[.llSend b], rfl, by simp⟩ }

theorem same_llSendMarker : Same s (llSendMarker s) :=
  { Same.refl s with out := ⟨[.llSend [s.par.sofByte]], rfl, by simp⟩ }

theorem same_llAvail : Same s (llAvail s).2 := by
  apply Same.of_eq <;> simp

theorem same_requestTick : Same s (requestTick s) := by
  rw [requestTick_eq]
  refine { Same.refl s with out := ⟨_, rfl, fun h => ?_⟩ }
  simp [h]

theorem same_ringAppend (w : Word64) : Same s (ringAppend w s) := by apply Same.of_eq <;> rfl

theorem same_linkPush (t : LinkType) (f : FrameId) : Same s (linkPush t f s) := by
  unfold linkPush
  split
  · apply Same.of_eq <;> rfl
  · split
    · exact (same_ringAppend s _).trans (same_requestTick _)
    · exact same_ringAppend s _

theorem same_setTxSlot (i : Nat) (v : TxSlot) : Same s (setTxSlot i v s) := by apply Same.of_eq <;> rfl

theorem same_setRxSlot (i : Nat) (v : RxSlot) : Same s (setRxSlot i v s) := by apply Same.of_eq <;> rfl

theorem bits_or_and (a b : BitVec 8) : (a ||| b) &&& a = a := by
  ext i hi; simp; intro h; simp [h]

theorem same_refuse (r : RefuseReason) : Same s (refuse r s) where
  par := rfl
  cfg := rfl
  life := rfl
  inq := rfl
  now := rfl
  caller := rfl
  inProcess := rfl
  cbDepth := rfl
  fault := bits_or_and _ _
  out := ⟨[.refused r], rfl, by simp⟩

theorem same_accepted : Same s (accepted s) := by apply Same.of_eq <;> rfl

theorem same_accept (i : Instr) (body : State → State) (h : ∀ s, Same s (body s)) : Same s (accept i body s) := by
  unfold accept
  split
  · exact same_refuse s _
  · exact (same_accepted s).trans (h _)

/-! ### TX engine -/

theorem same_sendAccept (m : Metadata) (p : List Byte) : Same s (sendAccept m p s) := by
  unfold sendAccept
  refine Same.trans ?_ (same_requestTick _)
  apply Same.of_eq <;> rfl

theorem same_sendAttempt (m : Metadata) (p : List Byte) : Same s (sendAttempt m p s) := by
  unfold sendAttempt; split
  · exact same_sendAccept s m p
  · exact .refl s

theorem same_bsend (rs : List BSend) : Same s { s with bsend := rs } := by apply Same.of_eq <;> rfl

theorem same_blockingRound (r : BSend) : Same s (blockingRound r s) := by
  unfold blockingRound
  have h := same_sendAttempt s r.metadata r.payload
  dsimp only
  split_ifs
  · exact (h.trans (same_bsend _ _)).trans (same_answer _ _)
  · exact (h.trans (same_bsend _ _)).trans (same_answer _ _)
  · exact (h.trans (same_bsend _ _)).trans (same_answer _ _)
  · exact h.trans (same_bsend _ _)

theorem same_sendBody (tmo : BitVec 28) (m : Metadata) (p : List Byte) : Same s (sendBody tmo m p s) := by
  unfold sendBody; split
  · exact (same_sendAttempt s m p).trans (same_answer _ _)
  · exact same_blockingRound s _

theorem same_resumeSend : Same s (resumeSend s) := by
  unfold resumeSend
  split
  · exact .refl s
  · split
    · exact .refl s
    · split
      · exact (same_bsend s _).trans (same_refuse _ _)
      · exact (same_accepted s).trans (same_blockingRound _ _)

theorem same_relocate (c : BitVec 11) : Same s (relocate c s) := by
  unfold relocate; dsimp only; split
  · exact (same_setTxSlot _ _ _).trans (same_setTxSlot _ _ _)
  · exact .refl s

theorem same_windowSet (n : BitVec 32) : Same s (windowSet n s) := by
  unfold windowSet; split
  · refine (same_relocate s (grownCount s n)).trans ?_
    apply Same.of_eq <;> rfl
  · exact .refl s

theorem same_windowSetBody (n : BitVec 32) : Same s (windowSetBody n s) := (same_windowSet s n).trans (same_answer _ _)

theorem same_timeoutScan : Same s (timeoutScan s) := by
  refine same_foldl _ (fun s f => ?_) _ s
  unfold timeoutOne; dsimp only; split
  · exact same_setTxSlot s _ _
  · exact .refl s

theorem same_retireHead : Same s (retireHead s) := by apply Same.of_eq <;> rfl

theorem same_retireMany (k : Nat) : ∀ s, Same s (retireMany k s) := by
  induction k with
  | zero => exact fun s => .refl s
  | succ k ih => exact fun s => (same_retireHead s).trans (ih _)

theorem same_retireAcked (k : Nat) : ∀ s, Same s (retireAcked k s) := by
  induction k with
  | zero => exact fun s => .refl s
  | succ k ih =>
    intro s
    unfold retireAcked; split
    · exact (same_retireHead s).trans (ih _)
    · exact .refl s

theorem same_ackAll (f : FrameId) : Same s (ackAll f s) := by
  unfold ackAll; split
  · exact .refl s
  · exact (same_retireMany _ s).trans (same_retireAcked _ _)

theorem same_ackOne (f : FrameId) : Same s (ackOne f s) := by
  unfold ackOne; dsimp only; split_ifs
  · exact .refl s
  · exact same_setTxSlot s _ _
  · exact .refl s

theorem same_nackFrame (f : FrameId) : Same s (nackFrame f s) := by
  unfold nackFrame; dsimp only; split_ifs
  · exact .refl s
  · exact (same_setTxSlot s _ _).trans (same_requestTick _)
  · exact .refl s

/-! ### Service -/

theorem same_statusGetBody : Same s (statusGetBody s) := (same_emit s _ (by simp)).trans (same_answer _ _)

theorem same_statusClear : Same s (statusClear s) := by apply Same.of_eq <;> rfl

theorem same_statusClearBody : Same s (statusClearBody s) := (same_statusClear s).trans (same_answer _ _)

theorem same_serviceIntervalBody : Same s (serviceIntervalBody s) := (same_emit s _ (by simp)).trans (same_answer _ _)

/-! ### Connection and callbacks -/

theorem same_resetRegisters : Same s (resetRegisters s) := by apply Same.of_eq <;> rfl

theorem same_resetTime (t : Time) : Same s { s with conn := { s.conn with resetTime := t } } := by apply Same.of_eq <;> rfl

theorem same_resetQuiet : Same s (resetQuiet s) :=
  ((same_resetRegisters s).trans (same_linkPush _ _ _)).trans (same_resetTime _ _)

theorem same_localResetWith (event : EventKind → State → State) (h : ∀ k s, Same s (event k s)) :
    Same s (localResetWith event s) := by
  unfold localResetWith; split
  · exact (same_resetQuiet s).trans (h _ _)
  · exact same_resetQuiet s

theorem same_nestedInstr (event : EventKind → State → State) (h : ∀ k s, Same s (event k s)) (i : Instr) :
    Same s (nestedInstr event i s) := by
  cases i
  case send a m p => exact same_accept s _ _ fun s => same_sendBody s a m p
  case txWindowSet n => exact same_accept s _ _ fun s => same_windowSetBody s n
  case statusGet => exact same_accept s _ _ same_statusGetBody
  case statusClear => exact same_accept s _ _ same_statusClearBody
  case serviceInterval => exact same_accept s _ _ same_serviceIntervalBody
  case resetTxFromEvent => exact same_accept s _ _ fun s => (same_localResetWith s event h).trans (same_answer _ _)
  all_goals exact same_refuse s _

theorem same_nestedCommand (event : EventKind → State → State) (h : ∀ k s, Same s (event k s)) (c : NestedCommand) :
    Same s (nestedCommand event c s) := by
  unfold nestedCommand; split
  · exact same_refuse s _
  · exact same_nestedInstr s event h _

theorem same_callback (run : NestedCommand → State → State) (h : ∀ c s, Same s (run c s)) (o : Output) (ho : o ≠ .wake) :
    Same s (callback run o s) := by
  unfold callback
  have k := same_foldl (fun t c => run c t) (fun s c => h c s) (handlerScript s) (callbackEnter o s)
  generalize (handlerScript s).foldl _ _ = t at k
  obtain ⟨w, hw, hv⟩ := k.out
  refine ⟨k.par, k.cfg, k.life, k.inq, k.now, k.caller, k.inProcess, ?_, k.fault, o :: w, ?_, fun hi => ?_⟩
  · show t.ctx.cbDepth - 1 = _
    rw [k.cbDepth]; exact BitVec.add_sub_cancel _ _
  · show t.out = _
    rw [hw]; simp
  · simp only [List.mem_cons, not_or]
    exact ⟨ho.symm, hv hi⟩

theorem same_upEventInner (k : EventKind) : Same s (upEventInner k s) :=
  same_callback s _ (fun c s => same_nestedCommand s _ (fun _ s => .refl s) c) _ (by simp)

theorem same_upEvent (k : EventKind) : Same s (upEvent k s) :=
  same_callback s _ (fun c s => same_nestedCommand s _ (fun k s => same_upEventInner s k) c) _ (by simp)

theorem same_upRecv (m : Metadata) (p : List Byte) : Same s (upRecv m p s) :=
  same_callback s _ (fun c s => same_nestedCommand s _ (fun k s => same_upEventInner s k) c) _ (by simp)

theorem same_localReset : Same s (localReset s) := same_localResetWith s _ fun k s => same_upEvent s k

theorem same_onReset (f : FrameId) : Same s (onReset f s) := by
  unfold onReset; split_ifs
  · unfold onResetRequest; split
    · exact same_linkPush s _ _
    · unfold resetRequestWhileActive
      have h := same_upEvent s .rxResetRequest
      dsimp only; split
      · exact (h.trans (same_localReset _)).trans (same_linkPush _ _ _)
      · exact h.trans (same_linkPush _ _ _)
  · unfold onResetResponse; split
    · exact .refl s
    · refine Same.trans ?_ (same_upEvent _ _)
      apply Same.of_eq <;> rfl
  · exact .refl s

theorem same_resetResend : Same s (resetResend s) := by
  unfold resetResend; split
  · exact (same_linkPush s _ _).trans (same_resetTime _ _)
  · exact .refl s

/-! ### RX engine -/

theorem same_deliver (m : Metadata) (p : List Byte) : Same s (deliver m p s) := by
  unfold deliver
  refine Same.trans ?_ (same_upRecv _ m p)
  apply Same.of_eq <;> rfl

theorem same_rx (r : RxUnit) : Same s { s with rx := r } := by apply Same.of_eq <;> rfl

theorem same_catchUpFrom (fuel : Nat) : ∀ (last : FrameId) (s : State), Same s (catchUpFrom fuel last s) := by
  induction fuel with
  | zero => exact fun last s => same_linkPush s _ _
  | succ fuel ih =>
    intro last s
    unfold catchUpFrom; split
    · have h := same_deliver s (rxSlot s (rxIndex s s.rx.nextId)).metadata
        (memRead (rxSlot s (rxIndex s s.rx.nextId)).payload (rxSlot s (rxIndex s s.rx.nextId)).len.toNat)
      dsimp only; split
      · exact h
      · exact ((h.trans (same_setRxSlot _ _ _)).trans (same_rx _ _)).trans (ih _ _)
    · exact same_linkPush s _ _

theorem same_exactMatch (f : FrameId) (m : Metadata) (p : List Byte) : Same s (exactMatch f m p s) := by
  unfold exactMatch; dsimp only
  have h := (same_setRxSlot s (rxIndex s f) { rxSlot s (rxIndex s f) with state := .idle }).trans (same_deliver _ m p)
  split
  · exact h
  · refine h.trans ?_
    unfold exactMatchTail; dsimp only; split
    · refine Same.trans (same_rx _ _) ((same_rx _ _).trans (same_linkPush _ _ _))
    · exact (same_rx _ _).trans (same_catchUpFrom _ _ _)

theorem same_nackGap (g : FrameId) : Same s (nackGap s g) := by
  unfold nackGap; dsimp only; split
  · exact (same_setRxSlot s _ _).trans (same_linkPush _ _ _)
  · exact .refl s

theorem same_futureInWindow (f : FrameId) (m : Metadata) (p : List Byte) : Same s (futureInWindow f m p s) := by
  unfold futureInWindow; dsimp only
  refine Same.trans ?_ (same_linkPush _ _ _)
  refine Same.trans ?_ (same_setRxSlot _ _ _)
  refine Same.trans ?_ (same_foldl _ (fun s g => same_nackGap s g) _ _)
  split
  · exact same_rx s _
  · exact .refl s

theorem same_rxDataProc (f : FrameId) (m : Metadata) (p : List Byte) : Same s (rxDataProc f m p s) := by
  unfold rxDataProc
  split
  · exact .refl s
  · have h : Same s { s with conn := { s.conn with activity := true } } := by apply Same.of_eq <;> rfl
    dsimp only
    split_ifs
    · exact h.trans (same_linkPush _ _ _)
    · exact h.trans (same_exactMatch _ _ _ _)
    · exact h.trans (same_linkPush _ _ _)
    · exact h.trans (same_linkPush _ _ _)
    · exact h.trans (same_futureInWindow _ _ _ _)

theorem same_rxFramingErrorProc : Same s (rxFramingErrorProc s) := by
  unfold rxFramingErrorProc; split
  · exact .refl s
  · exact same_linkPush s _ _

/-! ### Link control, facade -/

theorem same_rxLinkProc (t : BitVec 5) (f : FrameId) : Same s (rxLinkProc t f s) := by
  unfold rxLinkProc; split_ifs
  · exact same_ackAll s f
  · exact same_ackOne s f
  · exact same_nackFrame s f
  · exact same_nackFrame s f
  · exact same_onReset s f
  · exact .refl s

theorem same_drainWords (k : Nat) : Same s (drainWords k s) := by
  unfold drainWords; dsimp only
  have h := same_llSend s (ringBytes s s.link.head.toNat (min k (s.cfg.txLinkSize.toNat - s.link.head.toNat)))
  split
  · refine (h.trans (same_llSend _ (ringBytes s 0 (k - min k (s.cfg.txLinkSize.toNat - s.link.head.toNat))))).trans ?_
    apply Same.of_eq <;> rfl
  · refine h.trans ?_
    apply Same.of_eq <;> rfl

theorem same_linkDrain : Same s (linkDrain s) := by
  unfold linkDrain; dsimp only; split_ifs
  · exact .refl s
  · exact same_llAvail s
  · exact (same_llAvail s).trans (same_drainWords _ _)

theorem same_eofCheck : Same s (eofCheck s) := by
  unfold eofCheck; dsimp only; split_ifs
  · exact .refl s
  · exact .refl s
  · exact .refl s
  · exact same_llAvail s
  · refine ((same_llAvail s).trans (same_llSendMarker _)).trans ?_
    apply Same.of_eq <;> rfl

theorem same_transmit (i : Nat) : Same s (transmit i s) := by
  unfold transmit; dsimp only; split
  · exact same_llAvail s
  · refine Same.trans ?_ (same_setTxSlot _ _ _)
    refine Same.trans ?_ (same_llSend _ _)
    refine (same_llAvail s).trans ?_
    split
    · apply Same.of_eq <;> rfl
    · exact .refl _

theorem same_txScanFrom (l : List FrameId) : Same s (txScanFrom s l) := by
  induction l with
  | nil => exact .refl s
  | cons f l ih =>
    unfold txScanFrom; dsimp only; split
    · split
      · exact same_localReset s
      · exact same_transmit s _
    · exact ih

theorem same_rearm : Same s (rearm s) := by apply Same.of_eq <;> rfl

theorem same_processSteps : Same s (processSteps s) :=
  (((((same_resetResend s).trans (same_timeoutScan _)).trans (same_linkDrain _)).trans (same_txScanFrom _ _)).trans
    (same_eofCheck _)).trans (same_rearm _)

theorem same_framerEvent (e : FramerEvent) : Same s (framerEvent s e) := by
  cases e with
  | data f m p => exact same_rxDataProc s f m p
  | link t f => exact same_rxLinkProc s t f
  | framingError => exact same_rxFramingErrorProc s

theorem same_llRecvProc (d : List Byte) : Same s (llRecvProc d s) := by
  unfold llRecvProc
  dsimp only
  refine Same.trans ?_ (same_foldl _ (fun s e => same_framerEvent s e) _ _)
  apply Same.of_eq <;> rfl

/-! ### Whole commands -/

/-- What every command keeps, INIT and FINALIZE included. -/
structure CommandFrame (i : Instr) (s t : State) : Prop where
  par : t.par = s.par
  inq : t.inq = s.inq
  now : t.port.now = s.port.now
  caller : t.port.caller = s.port.caller
  cfg : s.life ≠ .uninit → t.cfg = s.cfg
  life : t.life = s.life ∨ (s.life = .uninit ∧ t.life = .active ∧ ∃ c, i = .init c) ∨
    (s.life = .active ∧ t.life = .finalized ∧ i = .finalize)
  inProcess : t.ctx.inProcess = s.ctx.inProcess ∨ t.ctx.inProcess = false
  cbDepth : t.ctx.cbDepth = s.ctx.cbDepth
  fault : t.fault &&& s.fault = s.fault
  out : ∃ o, t.out = s.out ++ o

theorem Same.command {i : Instr} {s t : State} (h : Same s t) : CommandFrame i s t :=
  ⟨h.par, h.inq, h.now, h.caller, fun _ => h.cfg, .inl h.life, .inl h.inProcess, h.cbDepth, h.fault,
   h.out.imp fun _ ho => ho.1⟩

theorem frame_accept {i : Instr} {s : State} {body : State → State} (h : ∀ s, Same s (body s)) :
    CommandFrame i s (accept i body s) := (same_accept s i body h).command

theorem frame_context {i : Instr} {s : State} {body : State → State} (h : ∀ s, Same s (body s)) :
    CommandFrame i s (accept i (fun t => answer .success (inContext body t)) s) := by
  unfold accept; split
  · exact (same_refuse s _).command
  · have k := h (entered s)
    obtain ⟨o, ho, hw⟩ := k.out
    exact ⟨k.par, k.inq, k.now, k.caller, fun _ => k.cfg, .inl k.life, .inr rfl, k.cbDepth, k.fault, o ++ [.status .success], by
      show (body (entered s)).out ++ _ = _
      rw [ho]; simp [entered]⟩

/-- A command of the processing context makes no `wake` pulse. -/
theorem no_wake_context {i : Instr} {s : State} {body : State → State} (h : ∀ s, Same s (body s)) :
    ∃ o, (accept i (fun t => answer .success (inContext body t)) s).out = s.out ++ o ∧ Output.wake ∉ o := by
  unfold accept; split
  · exact ⟨[.refused _], rfl, by simp⟩
  · obtain ⟨o, ho, hw⟩ := (h (entered s)).out
    refine ⟨o ++ [.status .success], ?_, by simpa using hw rfl⟩
    show (body (entered s)).out ++ _ = _
    rw [ho]; simp [entered]

theorem frame_init (c : CfgRecord) (s : State) : ∃ t, exec (.init c) s = .next t ∧ CommandFrame (.init c) s t := by
  show ∃ t, execInit c s = .next t ∧ _
  unfold execInit
  split
  · exact ⟨_, rfl, (same_refuse s _).command⟩
  · rename_i hr
    refine ⟨_, rfl, ?_⟩
    have hu : s.life = .uninit := by
      by_contra hu
      unfold refusalOf at hr
      rw [if_neg (by simp [isInit]), if_pos ⟨rfl, hu⟩] at hr
      exact absurd hr (by simp)
    have hd : s.ctx.cbDepth = 0 := by
      by_contra hd
      unfold refusalOf at hr
      rw [if_neg (by simp [isInit]), if_neg (by simp [hu]), if_neg (by simp [hu]), if_pos ⟨hd, rfl⟩] at hr
      exact absurd hr (by simp)
    unfold initBody
    split
    · have k := (same_localReset (initRegisters c s)).trans (same_answer _ .success)
      exact ⟨k.par, k.inq, k.now, k.caller, fun h => absurd hu h, .inr (.inl ⟨hu, k.life, c, rfl⟩), .inr k.inProcess,
        k.cbDepth.trans hd.symm, k.fault, k.out.imp fun _ ho => ho.1⟩
    · exact (same_answer s _).command

theorem frame_finalize (s : State) : CommandFrame .finalize s (accept .finalize finalizeBody s) := by
  unfold accept; split
  · exact (same_refuse s _).command
  · rename_i hr
    have ha : s.life = .active := by
      by_contra ha
      unfold refusalOf at hr
      cases hl : s.life
      · rw [if_pos ⟨hl, rfl⟩] at hr; exact absurd hr (by simp)
      · exact ha hl
      · rw [if_neg (by simp [hl]), if_neg (by simp [isInit]), if_pos ⟨hl, rfl⟩] at hr; exact absurd hr (by simp)
    exact ⟨rfl, rfl, rfl, rfl, fun _ => rfl, .inr (.inr ⟨ha, rfl, rfl⟩), .inl rfl, rfl, BitVec.and_self, _, rfl⟩

/-- The meaning of every instruction answers a next state and keeps the command frame. -/
theorem frame_exec (i : Instr) (s : State) : ∃ t, exec i s = .next t ∧ CommandFrame i s t := by
  cases i
  case init c => exact frame_init c s
  case send a m p => exact ⟨_, rfl, frame_accept fun s => same_sendBody s a m p⟩
  case txWindowSet n => exact ⟨_, rfl, frame_accept fun s => same_windowSetBody s n⟩
  case process => exact ⟨_, rfl, frame_context same_processSteps⟩
  case llRecv d => exact ⟨_, rfl, frame_context fun s => same_llRecvProc s d⟩
  case statusGet => exact ⟨_, rfl, frame_accept same_statusGetBody⟩
  case statusClear => exact ⟨_, rfl, frame_accept same_statusClearBody⟩
  case rxData f m p => exact ⟨_, rfl, frame_context fun s => same_rxDataProc s f m p⟩
  case rxLink t f => exact ⟨_, rfl, frame_context fun s => same_rxLinkProc s t f⟩
  case rxLinkAckAll f => exact ⟨_, rfl, frame_context fun s => same_ackAll s f⟩
  case rxLinkAckOne f => exact ⟨_, rfl, frame_context fun s => same_ackOne s f⟩
  case rxLinkNackFrameId f => exact ⟨_, rfl, frame_context fun s => same_nackFrame s f⟩
  case rxLinkNackFramingError f => exact ⟨_, rfl, frame_context fun s => same_nackFrame s f⟩
  case rxLinkResetReq => exact ⟨_, rfl, frame_context fun s => same_onReset s _⟩
  case rxLinkResetRsp => exact ⟨_, rfl, frame_context fun s => same_onReset s _⟩
  case rxLinkResetOther f => exact ⟨_, rfl, frame_context fun s => same_onReset s _⟩
  case rxFramingError => exact ⟨_, rfl, frame_context same_rxFramingErrorProc⟩
  case resetTxFromEvent => exact ⟨_, rfl, frame_accept fun s => (same_localReset s).trans (same_answer _ _)⟩
  case serviceInterval => exact ⟨_, rfl, frame_accept same_serviceIntervalBody⟩
  case finalize => exact ⟨_, rfl, frame_finalize s⟩

end Sys2Proof.Laws
end

