-- ==== Sys2Proof/Laws/Connection.lean ====
section
/-! SUPPORT. The connection state and the RX unit across nested commands and callbacks: a Disconnected block stays Disconnected in every
handler, so that callbacks nest at most twice (R309), and a handler leaves the RX unit alone unless it resets the link (R311). -/

namespace Sys2Proof.Laws

open Sys2Proof Sys2Proof.Machine

variable (s : State)

/-! ### Disconnected stays Disconnected -/

/-- A local reset of a Disconnected block calls nobody (R200). -/
theorem localResetWith_disconnected {s : State} (event event' : EventKind → State → State) (h : s.conn.state = .disconnected) :
    localResetWith event s = localResetWith event' s ∧ (localResetWith event s).conn.state = .disconnected := by
  unfold localResetWith
  simp only [h]
  exact ⟨rfl, by simp [resetQuiet]⟩

theorem sendAttempt_connState (m : Metadata) (p : List Byte) : (sendAttempt m p s).conn.state = s.conn.state := by
  unfold sendAttempt; split
  · simp [sendAccept]
  · rfl

theorem sendBody_connState (a : BitVec 28) (m : Metadata) (p : List Byte) : (sendBody a m p s).conn.state = s.conn.state := by
  unfold sendBody; split
  · simp [sendAttempt_connState]
  · unfold blockingRound; dsimp only; split_ifs <;> simp [sendAttempt_connState]

theorem windowSetBody_conn (n : BitVec 32) : (windowSetBody n s).conn = s.conn := by
  unfold windowSetBody windowSet relocate; dsimp only; split_ifs <;> simp

theorem accept_disconnected {s : State} (i : Instr) (body : State → State)
    (h : ∀ s : State, s.conn.state = .disconnected → (body s).conn.state = .disconnected) (hs : s.conn.state = .disconnected) :
    (accept i body s).conn.state = .disconnected := by
  unfold accept; split
  · exact hs
  · exact h _ hs

/-- In a Disconnected block a nested command makes no event and leaves the block Disconnected. -/
theorem nestedInstr_disconnected {s : State} (event event' : EventKind → State → State) (i : Instr)
    (h : s.conn.state = .disconnected) :
    nestedInstr event i s = nestedInstr event' i s ∧ (nestedInstr event i s).conn.state = .disconnected := by
  cases i
  case send => exact ⟨rfl, accept_disconnected _ _ (fun s h => (sendBody_connState s _ _ _).trans h) h⟩
  case txWindowSet => exact ⟨rfl, accept_disconnected _ _ (fun s h => (congrArg Conn.state (windowSetBody_conn s _)).trans h) h⟩
  case statusGet => exact ⟨rfl, accept_disconnected _ _ (fun _ h => h) h⟩
  case statusClear => exact ⟨rfl, accept_disconnected _ _ (fun _ h => h) h⟩
  case serviceInterval => exact ⟨rfl, accept_disconnected _ _ (fun _ h => h) h⟩
  case resetTxFromEvent =>
    refine ⟨?_, accept_disconnected _ _ (fun s h => (localResetWith_disconnected event event' h).2) h⟩
    show accept .resetTxFromEvent (fun t => answer .success (localResetWith event t)) s =
      accept .resetTxFromEvent (fun t => answer .success (localResetWith event' t)) s
    unfold accept; split
    · rfl
    · exact congrArg (answer .success) (localResetWith_disconnected (s := accepted s) event event' h).1
  all_goals exact ⟨rfl, h⟩

theorem nestedCommand_disconnected {s : State} (event event' : EventKind → State → State) (c : NestedCommand)
    (h : s.conn.state = .disconnected) :
    nestedCommand event c s = nestedCommand event' c s ∧ (nestedCommand event c s).conn.state = .disconnected := by
  unfold nestedCommand; split
  · exact ⟨rfl, h⟩
  · exact nestedInstr_disconnected _ _ _ h

/-- A callback made in a Disconnected block leaves it Disconnected. -/
theorem callback_disconnected {s : State} (event : EventKind → State → State) (o : Output) (h : s.conn.state = .disconnected) :
    (callback (nestedCommand event) o s).conn.state = .disconnected := by
  unfold callback
  show (List.foldl _ (callbackEnter o s) _).conn.state = _
  have k : (callbackEnter o s).conn.state = .disconnected := h
  generalize callbackEnter o s = t at k
  generalize handlerScript s = l
  induction l generalizing t with
  | nil => exact k
  | cons c l ih => exact ih _ (nestedCommand_disconnected event event c k).2

theorem upEvent_disconnected {s : State} (k : EventKind) (h : s.conn.state = .disconnected) :
    (upEvent k s).conn.state = .disconnected := callback_disconnected _ _ h

theorem upEventInner_disconnected {s : State} (k : EventKind) (h : s.conn.state = .disconnected) :
    (upEventInner k s).conn.state = .disconnected := callback_disconnected _ _ h

/-- A local reset leaves the block Disconnected, whatever its event's handler does. -/
theorem localReset_disconnected : (localReset s).conn.state = .disconnected := by
  unfold localReset localResetWith; split
  · exact upEvent_disconnected _ (by simp [resetQuiet])
  · simp [resetQuiet]

/-! ### The RX unit across a callback -/

/-- The RX unit is as before, or every RX slot is Idle. -/
def RxSafe (s t : State) : Prop := t.rx = s.rx ∨ ∀ i, (rxSlot t i).state = .idle

theorem RxSafe.refl : RxSafe s s := .inl rfl

theorem RxSafe.of_eq {s t : State} (h : t.rx = s.rx) : RxSafe s t := .inl h

theorem RxSafe.trans {s t u : State} (h : RxSafe s t) (k : RxSafe t u) : RxSafe s u := by
  rcases k with k | k
  · rcases h with h | h
    · exact .inl (k.trans h)
    · exact .inr fun i => by rw [rxSlot_congr t k]; exact h i
  · exact .inr k

theorem sendAttempt_rx (m : Metadata) (p : List Byte) : (sendAttempt m p s).rx = s.rx := by
  unfold sendAttempt; split
  · simp [sendAccept]
  · rfl

theorem sendBody_rx (a : BitVec 28) (m : Metadata) (p : List Byte) : (sendBody a m p s).rx = s.rx := by
  unfold sendBody; split
  · simp [sendAttempt_rx]
  · unfold blockingRound; dsimp only; split_ifs <;> simp [sendAttempt_rx]

theorem windowSetBody_rx (n : BitVec 32) : (windowSetBody n s).rx = s.rx := by
  unfold windowSetBody windowSet relocate; dsimp only; split_ifs <;> simp

theorem resetQuiet_idle (i : Nat) : (rxSlot (resetQuiet s) i).state = .idle := by
  have : (resetQuiet s).rx = (resetRegisters s).rx := by simp [resetQuiet]
  rw [rxSlot_congr (resetRegisters s) this, rxSlot_resetRegisters]; rfl

theorem rxSafe_localResetWith (event : EventKind → State → State) (h : ∀ k s, RxSafe s (event k s)) :
    RxSafe s (localResetWith event s) := by
  unfold localResetWith; split
  · exact (RxSafe.trans (.inr (resetQuiet_idle s)) (h _ _))
  · exact .inr (resetQuiet_idle s)

theorem rxSafe_accept (i : Instr) (body : State → State) (h : ∀ s, RxSafe s (body s)) : RxSafe s (accept i body s) := by
  unfold accept; split
  · exact .of_eq rfl
  · exact (RxSafe.of_eq rfl : RxSafe s (accepted s)).trans (h _)

theorem rxSafe_nestedCommand (event : EventKind → State → State) (h : ∀ k s, RxSafe s (event k s)) (c : NestedCommand) :
    RxSafe s (nestedCommand event c s) := by
  unfold nestedCommand; split
  · exact .of_eq rfl
  · rename_i i _
    cases i
    case send => exact rxSafe_accept s _ _ fun s => .of_eq (sendBody_rx s _ _ _)
    case txWindowSet => exact rxSafe_accept s _ _ fun s => .of_eq (windowSetBody_rx s _)
    case statusGet => exact rxSafe_accept s _ _ fun s => .of_eq rfl
    case statusClear => exact rxSafe_accept s _ _ fun s => .of_eq rfl
    case serviceInterval => exact rxSafe_accept s _ _ fun s => .of_eq rfl
    case resetTxFromEvent =>
      exact rxSafe_accept s _ _ fun s => (rxSafe_localResetWith s event h).trans (.of_eq rfl)
    all_goals exact .of_eq rfl

theorem rxSafe_callback (run : NestedCommand → State → State) (h : ∀ c s, RxSafe s (run c s)) (o : Output) :
    RxSafe s (callback run o s) := by
  have k : RxSafe s (callbackEnter o s) := .of_eq rfl
  unfold callback
  refine RxSafe.trans ?_ (.of_eq rfl : RxSafe _ (callbackReturn _))
  generalize callbackEnter o s = t at k
  generalize handlerScript s = l
  induction l generalizing t with
  | nil => exact k
  | cons c l ih => exact ih _ (k.trans (h c t))

theorem rxSafe_upEventInner (k : EventKind) : RxSafe s (upEventInner k s) :=
  rxSafe_callback s _ (fun c s => rxSafe_nestedCommand s _ (fun _ s => .refl s) c) _

theorem rxSafe_upEvent (k : EventKind) : RxSafe s (upEvent k s) :=
  rxSafe_callback s _ (fun c s => rxSafe_nestedCommand s _ (fun k s => rxSafe_upEventInner s k) c) _

theorem rxSafe_upRecv (m : Metadata) (p : List Byte) : RxSafe s (upRecv m p s) :=
  rxSafe_callback s _ (fun c s => rxSafe_nestedCommand s _ (fun k s => rxSafe_upEventInner s k) c) _

theorem rxSafe_deliver (m : Metadata) (p : List Byte) : RxSafe s (deliver m p s) :=
  (RxSafe.of_eq rfl : RxSafe s _).trans (rxSafe_upRecv _ m p)

end Sys2Proof.Laws
end

