-- ==== Sys2Proof/Laws/Decode.lean ====
section
/-! SUPPORT. What each field of an encoded word reads as (R83 to R89), and which operands a format takes. The decoder's and the encoder's
proofs cite these and never unfold a word. -/

namespace Sys2Proof.Laws

open Sys2Proof

/-! ### Fields of an appended word -/

theorem extract_append_high {v w : Nat} (x : BitVec v) (y : BitVec w) (start len : Nat) (h : w ≤ start) :
    (x ++ y).extractLsb' start len = x.extractLsb' (start - w) len := by
  apply BitVec.eq_of_getLsbD_eq
  intro i hi
  simp only [BitVec.getLsbD_extractLsb', BitVec.getLsbD_append, hi, decide_true, Bool.true_and]
  rw [if_neg (by omega)]
  congr 1; omega

theorem extract_append_low {v w : Nat} (x : BitVec v) (y : BitVec w) (start len : Nat) (h : start + len ≤ w) :
    (x ++ y).extractLsb' start len = y.extractLsb' start len := by
  apply BitVec.eq_of_getLsbD_eq
  intro i hi
  simp only [BitVec.getLsbD_extractLsb', BitVec.getLsbD_append, hi, decide_true, Bool.true_and]
  rw [if_pos (by omega)]

theorem extract_whole {w : Nat} (x : BitVec w) : x.extractLsb' 0 w = x := by
  apply BitVec.eq_of_getLsbD_eq
  intro i hi
  simp [hi]

/-- Drop a low part of the word. -/
theorem extract_peel {v w start len : Nat} {x : BitVec v} {y : BitVec w} {r : BitVec len} (h : w ≤ start)
    (hx : x.extractLsb' (start - w) len = r) : (x ++ y).extractLsb' start len = r :=
  (extract_append_high x y start len h).trans hx

/-- The lowest field. -/
theorem extract_lowest {u v : Nat} (x : BitVec u) (y : BitVec v) : (x ++ y).extractLsb' 0 v = y :=
  (extract_append_low x y 0 v (by omega)).trans (extract_whole y)

/-- Two neighbouring fields that are both 0. -/
theorem extract_zero {w : Nat} (start len : Nat) : (0 : BitVec w).extractLsb' start len = 0 := by
  apply BitVec.eq_of_getLsbD_eq
  intro i hi
  simp

/-! ### The opcode -/

theorem opcodeOf_opcodeBits (o : Opcode) : opcodeOf (opcodeBits o) = some o := by cases o <;> rfl

theorem opcodeBits_of_opcodeOf (b : BitVec 4) (o : Opcode) (h : opcodeOf b = some o) : opcodeBits o = b := by
  revert h; revert o; revert b; decide

theorem opcodeOf_eq_none (b : BitVec 4) : opcodeOf b = none ↔ b.toNat = 0 ∨ b.toNat = 14 ∨ b.toNat = 15 := by
  revert b; decide

variable (o : Opcode) (tmo : BitVec 28) (len : BitVec 16) (m : Metadata) (n : BitVec 32) (f : FrameId) (t : BitVec 5)

@[simp] theorem opField_wordN : opField (wordN o) = opcodeBits o :=
  extract_peel (w := 60) (by decide) (extract_whole _)

@[simp] theorem opField_wordS : opField (wordS tmo len m) = opcodeBits .send :=
  extract_peel (w := 16) (by decide) (extract_peel (w := 16) (by decide) (extract_peel (w := 28) (by decide) (extract_whole _)))

@[simp] theorem opField_wordW : opField (wordW o n) = opcodeBits o :=
  extract_peel (w := 32) (by decide) (extract_peel (w := 28) (by decide) (extract_whole _))

@[simp] theorem opField_wordD : opField (wordD f len m) = opcodeBits .rxData :=
  extract_peel (w := 16) (by decide) (extract_peel (w := 16) (by decide)
    (extract_peel (w := 11) (by decide) (extract_peel (w := 17) (by decide) (extract_whole _))))

@[simp] theorem opField_wordL : opField (wordL t f) = opcodeBits .rxLink :=
  extract_peel (w := 16) (by decide) (extract_peel (w := 5) (by decide) (extract_peel (w := 11) (by decide)
    (extract_peel (w := 11) (by decide) (extract_peel (w := 17) (by decide) (extract_whole _)))))

/-! ### The other fields -/

@[simp] theorem tmoField_wordS : tmoField (wordS tmo len m) = tmo :=
  extract_peel (w := 16) (by decide) (extract_peel (w := 16) (by decide) (extract_lowest _ _))

@[simp] theorem lenField_wordS : lenField (wordS tmo len m) = len :=
  extract_peel (w := 16) (by decide) (extract_lowest _ _)

@[simp] theorem metaField_wordS : metaField (wordS tmo len m) = m := extract_lowest _ _

@[simp] theorem nField_wordW : nField (wordW o n) = n := extract_lowest _ _

@[simp] theorem fidField_wordD : fidField (wordD f len m) = f :=
  extract_peel (w := 16) (by decide) (extract_peel (w := 16) (by decide) (extract_lowest _ _))

@[simp] theorem lenField_wordD : lenField (wordD f len m) = len :=
  extract_peel (w := 16) (by decide) (extract_lowest _ _)

@[simp] theorem metaField_wordD : metaField (wordD f len m) = m := extract_lowest _ _

@[simp] theorem fidField_wordL : fidField (wordL t f) = f :=
  extract_peel (w := 16) (by decide) (extract_peel (w := 5) (by decide) (extract_peel (w := 11) (by decide) (extract_lowest _ _)))

@[simp] theorem typeField_wordL : typeField (wordL t f) = t :=
  extract_peel (w := 16) (by decide) (extract_lowest _ _)

/-! ### The reserved bits -/

theorem low60_wordN : (wordN o).extractLsb' 0 60 = 0 := extract_lowest _ _

theorem gap_wordW : (wordW o n).extractLsb' 32 28 = 0 := extract_peel (w := 32) (by decide) (extract_lowest _ _)

theorem gap_wordD : (wordD f len m).extractLsb' 43 17 = 0 :=
  extract_peel (w := 16) (by decide) (extract_peel (w := 16) (by decide) (extract_peel (w := 11) (by decide) (extract_lowest _ _)))

theorem gaps_wordL : (wordL t f).extractLsb' 43 17 = 0 ∧ (wordL t f).extractLsb' 21 11 = 0 ∧ (wordL t f).extractLsb' 0 16 = 0 :=
  ⟨extract_peel (w := 16) (by decide) (extract_peel (w := 5) (by decide) (extract_peel (w := 11) (by decide)
      (extract_peel (w := 11) (by decide) (extract_lowest _ _)))),
   extract_peel (w := 16) (by decide) (extract_peel (w := 5) (by decide) (extract_lowest _ _)), extract_lowest _ _⟩

@[simp] theorem reservedClear_wordN (h : formatOf o = .n ∨ formatOf o = .i) : reservedClear (formatOf o) (wordN o) = true := by
  rcases h with h | h <;> simp [h, reservedClear, low60_wordN]

@[simp] theorem reservedClear_wordS : reservedClear .s (wordS tmo len m) = true := rfl

@[simp] theorem reservedClear_wordW : reservedClear .w (wordW o n) = true := by simp [reservedClear, gap_wordW]

@[simp] theorem reservedClear_wordB : reservedClear .b (wordW o n) = true := by simp [reservedClear, gap_wordW]

@[simp] theorem reservedClear_wordD : reservedClear .d (wordD f len m) = true := by simp [reservedClear, gap_wordD]

@[simp] theorem reservedClear_wordL : reservedClear .l (wordL t f) = true := by
  obtain ⟨h1, h2, h3⟩ := gaps_wordL f t
  simp [reservedClear, h1, h2, h3]

/-! ### A word that decodes is the word its fields make -/

theorem opField_toNat (w : Word64) : (opField w).toNat = w.toNat / 2^60 := by
  have := w.isLt
  simp [opField, BitVec.extractLsb'_toNat, Nat.shiftRight_eq_div_pow]; omega

theorem extract_eq_zero (w : Word64) (s l : Nat) : w.extractLsb' s l = 0 ↔ w.toNat / 2^s % 2^l = 0 := by
  constructor
  · intro h
    have := congrArg BitVec.toNat h
    simpa [BitVec.extractLsb'_toNat, Nat.shiftRight_eq_div_pow] using this
  · intro h
    apply BitVec.eq_of_toNat_eq
    simpa [BitVec.extractLsb'_toNat, Nat.shiftRight_eq_div_pow] using h

theorem extract_toNat (w : Word64) (s l : Nat) : (w.extractLsb' s l).toNat = w.toNat / 2^s % 2^l := by
  simp [BitVec.extractLsb'_toNat, Nat.shiftRight_eq_div_pow]

theorem append_toNat {a b : Nat} (x : BitVec a) (y : BitVec b) : (x ++ y).toNat = x.toNat * 2^b + y.toNat := by
  rw [BitVec.toNat_append, ← Nat.shiftLeft_add_eq_or_of_lt y.isLt, Nat.shiftLeft_eq]

theorem wordN_of_fields (w : Word64) (o : Opcode) (h : opcodeOf (opField w) = some o) (hr : w.extractLsb' 0 60 = 0) : wordN o = w := by
  apply BitVec.eq_of_toNat_eq
  have e : (wordN o).toNat = (opcodeBits o).toNat * 2^60 + 0 := append_toNat _ _
  rw [e, opcodeBits_of_opcodeOf _ _ h, opField_toNat]
  rw [extract_eq_zero] at hr; omega

theorem wordW_of_fields (w : Word64) (o : Opcode) (h : opcodeOf (opField w) = some o) (hr : w.extractLsb' 32 28 =
    0) : wordW o (nField w) = w := by
  apply BitVec.eq_of_toNat_eq
  have e : (wordW o (nField w)).toNat = ((opcodeBits o).toNat * 2^28 + 0) * 2^32 + (nField w).toNat := by
    unfold wordW; rw [append_toNat, append_toNat]; rfl
  rw [e, opcodeBits_of_opcodeOf _ _ h, opField_toNat, nField, extract_toNat]
  rw [extract_eq_zero] at hr; omega

theorem wordS_of_fields (w : Word64) (h : opcodeOf (opField w) = some .send) : wordS (tmoField w) (lenField w) (metaField w) = w := by
  apply BitVec.eq_of_toNat_eq
  have e : (wordS (tmoField w) (lenField w) (metaField w)).toNat =
      (((opcodeBits .send).toNat * 2^28 + (tmoField w).toNat) * 2^16 + (lenField w).toNat) * 2^16 + (metaField w).toNat := by
    unfold wordS; rw [append_toNat, append_toNat, append_toNat]
  rw [e, opcodeBits_of_opcodeOf _ _ h, opField_toNat, tmoField, lenField, metaField, extract_toNat, extract_toNat, extract_toNat]
  omega

theorem wordD_of_fields (w : Word64) (h : opcodeOf (opField w) = some .rxData) (hr : w.extractLsb' 43 17 =
    0) : wordD (fidField w) (lenField w) (metaField w) = w := by
  apply BitVec.eq_of_toNat_eq
  have e : (wordD (fidField w) (lenField w) (metaField w)).toNat =
      ((((opcodeBits .rxData).toNat * 2^17 + 0) * 2^11 + (fidField w).toNat) * 2^16 + (lenField w).toNat) * 2^16 + (metaField w).toNat := by
    unfold wordD; rw [append_toNat, append_toNat, append_toNat, append_toNat]; rfl
  rw [e, opcodeBits_of_opcodeOf _ _ h, opField_toNat, fidField, lenField, metaField, extract_toNat, extract_toNat, extract_toNat]
  rw [extract_eq_zero] at hr
  omega

theorem wordL_of_fields (w : Word64) (h : opcodeOf (opField w) = some .rxLink) (hr : w.extractLsb' 43 17 =
    0) (hr2 : w.extractLsb' 21 11 = 0) (hr3 : w.extractLsb' 0 16 = 0) : wordL (typeField w) (fidField w) = w := by
  apply BitVec.eq_of_toNat_eq
  have e : (wordL (typeField w) (fidField w)).toNat =
      (((((opcodeBits .rxLink).toNat * 2^17 + 0) * 2^11 + (fidField w).toNat) * 2^11 + 0) * 2^5 + (typeField w).toNat) * 2^16 + 0 := by
    unfold wordL; rw [append_toNat, append_toNat, append_toNat, append_toNat, append_toNat]; rfl
  rw [e, opcodeBits_of_opcodeOf _ _ h, opField_toNat, fidField, typeField, extract_toNat, extract_toNat]
  rw [extract_eq_zero] at hr hr2 hr3
  omega

/-! ### Operands -/

theorem operandFits_record (f : Format) (w : Word64) (c : CfgRecord) : operandFits f w (.record c) = true ↔ f = .i := by
  simp [operandFits]

theorem operandFits_bytes (f : Format) (w : Word64) (d : List Byte) :
    operandFits f w (.bytes d) = true ↔ f ≠ .i ∧ d.length = operandLength f w := by
  simp [operandFits]

end Sys2Proof.Laws
end

