-- ==== Sys2Proof/Laws/Invariants.lean ====
section
/-! SUPPORT. The invariants of Sys2Proof/Safety.lean across the operations: `Keeps s t` says that every one of them that holds of `s` holds of
`t`. One lemma per operation; a procedure's lemma follows from its operations' by transitivity. -/

namespace Sys2Proof.Laws

open Sys2Proof Sys2Proof.Machine

/-- Every invariant that holds of `s` holds of `t`. -/
structure Keeps (s t : State) : Prop where
  par : t.par = s.par
  cfg : t.cfg = s.cfg
  now : t.port.now = s.port.now
  ring : RingInv s → RingInv t
  mem : MemoryInv s → MemoryInv t
  tx : CfgInv s → TxCountInv s ∧ TxInv s → TxCountInv t ∧ TxInv t
  rx : CfgInv s → RxInv s → RxInv t
  retry : RetryInv s → RetryInv t
  time : timeInRange s.port.now = true → TimeInv s → TimeInv t

theorem cfgInv_congr {s t : State} (hc : t.cfg = s.cfg) (hp : t.par = s.par) (h : CfgInv s) : CfgInv t := by
  unfold CfgInv; rw [hc, hp]; exact h

theorem Keeps.refl (s : State) : Keeps s s := ⟨rfl, rfl, rfl, id, id, fun _ h => h, fun _ h => h, id, fun _ h => h⟩

theorem Keeps.trans {s t u : State} (h : Keeps s t) (k : Keeps t u) : Keeps s u where
  par := k.par.trans h.par
  cfg := k.cfg.trans h.cfg
  now := k.now.trans h.now
  ring r := k.ring (h.ring r)
  mem m := k.mem (h.mem m)
  tx c x := k.tx (cfgInv_congr h.cfg h.par c) (h.tx c x)
  rx c x := k.rx (cfgInv_congr h.cfg h.par c) (h.rx c x)
  retry r := k.retry (h.retry r)
  time n x := k.time (by rw [h.now]; exact n) (h.time n x)

/-! ### Which fields an invariant reads -/

theorem ringInv_congr {s t : State} (hc : t.cfg = s.cfg) (hh : t.link.head = s.link.head) (hn : t.link.count = s.link.count)
    (h : RingInv s) : RingInv t := by unfold RingInv; rw [hc, hh, hn]; exact h

theorem memoryInv_congr {s t : State} (ht : t.tx.slots = s.tx.slots) (hr : t.rx.slots = s.rx.slots)
    (hl : t.link.ring = s.link.ring) (h : MemoryInv s) : MemoryInv t := by
  unfold MemoryInv txSlot rxSlot; rw [ht, hr, hl]; exact h

theorem txCountInv_congr {s t : State} (hc : t.cfg = s.cfg) (ht : t.tx.count = s.tx.count) (h : TxCountInv s) : TxCountInv t := by
  unfold TxCountInv; rw [hc, ht]; exact h

theorem txInv_congr {s t : State} (ht : t.tx = s.tx) (hs : t.conn.state = .disconnected → s.conn.state = .disconnected)
    (h : TxInv s) : TxInv t := by
  refine ⟨by rw [ht]; exact h.1, fun i => ?_, fun hd => by rw [ht]; exact h.2.2 (hs hd)⟩
  simp only [txSlot_congr s ht, txWindow_congr s ht, txIndex_congr s ht]; exact h.2.1 i

theorem rxInv_congr {s t : State} (hc : t.cfg = s.cfg) (hn : t.rx.nextId = s.rx.nextId) (hs : t.rx.slots = s.rx.slots)
    (h : RxInv s) : RxInv t := by
  intro i; unfold rxSlot rxIndex; rw [hc, hn, hs]; exact h i

theorem retryInv_congr {s t : State} (ht : t.tx.slots = s.tx.slots) (h : RetryInv s) : RetryInv t := by
  unfold RetryInv txSlot; rw [ht]; exact h

/-- An update that touches no unit, and sets `last_now` to `now` at most. -/
theorem Keeps.of_eq {s t : State} (par : t.par = s.par) (cfg : t.cfg = s.cfg) (now : t.port.now = s.port.now) (tx : t.tx = s.tx)
    (rx : t.rx = s.rx) (link : t.link = s.link) (conn : t.conn = s.conn)
    (last : t.ctx.lastNow = s.ctx.lastNow ∨ t.ctx.lastNow = s.port.now) : Keeps s t where
  par := par
  cfg := cfg
  now := now
  ring := ringInv_congr cfg (by rw [link]) (by rw [link])
  mem := memoryInv_congr (by rw [tx]) (by rw [rx]) (by rw [link])
  tx _ h := ⟨txCountInv_congr cfg (by rw [tx]) h.1, txInv_congr tx (by rw [conn]; exact id) h.2⟩
  rx _ := rxInv_congr cfg (by rw [rx]) (by rw [rx])
  retry := retryInv_congr (by rw [tx])
  time n h := by
    refine ⟨?_, by rw [conn]; exact h.2.1, fun i => by rw [txSlot_congr s tx]; exact h.2.2 i⟩
    rcases last with l | l
    · rw [l]; exact h.1
    · rw [l]; exact n

theorem keeps_foldl {α : Type} (f : State → α → State) (h : ∀ s a, Keeps s (f s a)) (l : List α) :
    ∀ s, Keeps s (l.foldl f s) := by
  induction l with
  | nil => exact fun s => .refl s
  | cons a l ih => exact fun s => (h s a).trans (ih _)

/-! ### The TX window -/

theorem mem_txWindow {s : State} (h : 0 ≤ txOutstanding s.tx) (f : FrameId) :
    f ∈ txWindow s ↔ 0 ≤ idSubtract f s.tx.lastId ∧ idSubtract f s.tx.lastId < txOutstanding s.tx :=
  mem_idRange _ _ _ h

/-- The window's ids are the first ones from `tx_frame_last_id` on. -/
theorem mem_txWindow_add {s : State} (h : 0 ≤ txOutstanding s.tx) (f : FrameId) :
    f ∈ txWindow s ↔ ∃ j : Nat, (j : Int) < txOutstanding s.tx ∧ f = s.tx.lastId + BitVec.ofNat 11 j := by
  rw [mem_txWindow h]
  constructor
  · rintro ⟨h1, h2⟩
    exact ⟨(idSubtract f s.tx.lastId).toNat, by omega, eq_add_of_idSubtract _ _ h1⟩
  · rintro ⟨j, hj, rfl⟩
    have := idSubtract_le s.tx.nextId s.tx.lastId
    rw [idSubtract_add _ _ (by unfold txOutstanding at hj; omega)]
    exact ⟨by omega, hj⟩

/-- The slots of the window's ids. -/
theorem exists_txWindow {s : State} (h : 0 ≤ txOutstanding s.tx) (i : Nat) :
    (∃ f ∈ txWindow s, txIndex s f = i) ↔
      ∃ j : Nat, (j : Int) < txOutstanding s.tx ∧ txIndex s (s.tx.lastId + BitVec.ofNat 11 j) = i := by
  constructor
  · rintro ⟨f, hf, rfl⟩
    obtain ⟨j, hj, rfl⟩ := (mem_txWindow_add h f).mp hf
    exact ⟨j, hj, rfl⟩
  · rintro ⟨j, hj, rfl⟩
    exact ⟨_, (mem_txWindow_add h _).mpr ⟨j, hj, rfl⟩, rfl⟩

/-- The window's ids have distinct slots. -/
theorem txIndex_window_inj {s : State} (hc : TxCountInv s) (ho : txOutstanding s.tx ≤ s.tx.count.toNat) {i j : Nat}
    (hi : (i : Int) < txOutstanding s.tx) (hj : (j : Int) < txOutstanding s.tx)
    (h : txIndex s (s.tx.lastId + BitVec.ofNat 11 i) = txIndex s (s.tx.lastId + BitVec.ofNat 11 j)) : i = j := by
  obtain ⟨⟨k, hk⟩, hle⟩ := hc
  have hk10 : k ≤ 10 := by
    by_contra hh
    have := Nat.pow_le_pow_right (n := 2) (by norm_num) (show 11 ≤ k by omega)
    omega
  exact slotIndex_add_inj s.tx.lastId s.tx.count k i j hk hk10 (by omega) (by omega) h

theorem cfgInv_txMax {s : State} (h : CfgInv s) : 1 ≤ s.cfg.txFrameCountMax.toNat ∧ s.cfg.txFrameCountMax.toNat ≤ 1024 := by
  obtain ⟨⟨k, hk, e⟩, -⟩ := h
  rw [e]
  exact ⟨Nat.one_le_two_pow, by simpa using Nat.pow_le_pow_right (n := 2) (by norm_num) hk⟩

theorem cfgInv_rxWindow {s : State} (h : CfgInv s) : 1 ≤ s.cfg.rxWindowSize.toNat ∧ s.cfg.rxWindowSize.toNat ≤ 1024 := by
  obtain ⟨-, ⟨k, hk, e⟩, -⟩ := h
  rw [e]
  exact ⟨Nat.one_le_two_pow, by simpa using Nat.pow_le_pow_right (n := 2) (by norm_num) hk⟩

/-! ### Writes to a TX slot -/

/-- A slot write that keeps whether the slot is Idle, its bytes' form, the retry ceiling and the time range. -/
theorem keeps_setTxSlot {s : State} (i : Nat) (v : TxSlot) (idle : v.state ≠ .idle ↔ (txSlot s i).state ≠ .idle)
    (wf : Memory.wf (txSlot s i).bytes = true → Memory.wf v.bytes = true)
    (count : (txSlot s i).sendCount.toNat ≤ 25 → v.sendCount.toNat ≤ 25)
    (time : v.lastSendTime = (txSlot s i).lastSendTime ∨ v.lastSendTime = s.port.now) : Keeps s (setTxSlot i v s) where
  par := rfl
  cfg := rfl
  now := rfl
  ring := id
  mem h := by
    refine ⟨tableWf_put _ _ _ _ h.1, h.2.1, h.2.2.1, fun j => ?_, h.2.2.2.2⟩
    rw [txSlot_setTxSlot]; split
    · exact wf (h.2.2.2.1 i)
    · exact h.2.2.2.1 j
  tx _ h := by
    refine ⟨h.1, h.2.1, fun j => ?_, h.2.2.2⟩
    rw [txSlot_setTxSlot]; split
    · rename_i e; subst e; rw [idle]; exact h.2.2.1 j
    · exact h.2.2.1 j
  rx _ h := h
  retry h j := by
    rw [txSlot_setTxSlot]; split
    · exact count (h i)
    · exact h j
  time n h := by
    refine ⟨h.1, h.2.1, fun j => ?_⟩
    rw [txSlot_setTxSlot]; split
    · rcases time with e | e
      · rw [e]; exact h.2.2 i
      · rw [e]; exact n
    · exact h.2.2 j

/-- A slot that changes between two states that are not Idle. -/
theorem keeps_setTxState {s : State} (i : Nat) (st : TxState) (h : (txSlot s i).state ≠ .idle) (hst : st ≠ .idle) :
    Keeps s (setTxSlot i { txSlot s i with state := st } s) :=
  keeps_setTxSlot i _ (by simp [h, hst]) id id (.inl rfl)

/-! ### Ports, ticks, ring -/

variable (s : State)

theorem keeps_emit (o : Output) : Keeps s (emit o s) := by apply Keeps.of_eq <;> first | rfl | exact .inl rfl

theorem keeps_answer (st : Status) : Keeps s (answer st s) := keeps_emit s _

theorem keeps_requestTick : Keeps s (requestTick s) := by apply Keeps.of_eq <;> simp

theorem keeps_llAvail : Keeps s (llAvail s).2 := by apply Keeps.of_eq <;> simp

theorem keeps_llSend (b : List Byte) : Keeps s (llSend b s) := by apply Keeps.of_eq <;> first | rfl | exact .inl rfl

theorem keeps_llSendMarker : Keeps s (llSendMarker s) := by apply Keeps.of_eq <;> first | rfl | exact .inl rfl

theorem keeps_refuse (r : RefuseReason) : Keeps s (refuse r s) := by apply Keeps.of_eq <;> first | rfl | exact .inl rfl

theorem keeps_accepted : Keeps s (accepted s) := by apply Keeps.of_eq <;> first | rfl | exact .inr rfl

theorem keeps_entered : Keeps s (entered s) := by apply Keeps.of_eq <;> first | rfl | exact .inr rfl

theorem keeps_completed : Keeps s (completed s) := by apply Keeps.of_eq <;> first | rfl | exact .inl rfl

theorem keeps_bsend (rs : List BSend) : Keeps s { s with bsend := rs } := by apply Keeps.of_eq <;> first | rfl | exact .inl rfl

theorem keeps_accept (i : Instr) (body : State → State) (h : ∀ s, Keeps s (body s)) : Keeps s (accept i body s) := by
  unfold accept; split
  · exact keeps_refuse s _
  · exact (keeps_accepted s).trans (h _)

/-- A change of the ring alone. -/
theorem keeps_link {s : State} (l : LinkUnit) (hr : RingInv s → RingInv { s with link := l })
    (hw : tableWf 0 s.link.ring = true → tableWf 0 l.ring = true) : Keeps s { s with link := l } where
  par := rfl
  cfg := rfl
  now := rfl
  ring := hr
  mem h := ⟨h.1, h.2.1, hw h.2.2.1, h.2.2.2⟩
  tx _ h := h
  rx _ h := h
  retry := id
  time _ h := h

theorem keeps_ringAppend {s : State} (w : Word64) (h : s.link.count ≠ s.cfg.txLinkSize) : Keeps s (ringAppend w s) := by
  refine keeps_link _ (fun r => ⟨r.1, ?_⟩) (fun r => tableWf_put _ _ _ _ r)
  have hc := link_bv_ne_max h r.2
  have : s.link.count.toNat ≠ s.cfg.txLinkSize.toNat := fun e => h (BitVec.eq_of_toNat_eq e)
  have := r.2
  show (s.link.count + 1).toNat ≤ s.cfg.txLinkSize.toNat
  omega

theorem keeps_linkPush (t : LinkType) (f : FrameId) : Keeps s (linkPush t f s) := by
  unfold linkPush
  split
  · exact keeps_link _ id id
  · rename_i h
    split
    · exact (keeps_ringAppend _ h).trans (keeps_requestTick _)
    · exact keeps_ringAppend _ h

/-! ### SEND and TX_WINDOW_SET -/

theorem txWindowFull_false {t : TxUnit} (h : ¬ txWindowFull t = true) : txOutstanding t < t.count.toNat ∧ txOutstanding t < 1023 := by
  unfold txWindowFull at h
  rw [Bool.or_eq_true, not_or] at h
  have h1 := of_decide_eq_false (eq_false_of_ne_true h.1)
  have h2 := of_decide_eq_false (eq_false_of_ne_true h.2)
  have : (Config.outstandingLimit : Int) = 1023 := rfl
  omega

theorem keeps_sendAccept (m : Metadata) (p : List Byte) (hc : s.conn.state = .connected) (hw : ¬ txWindowFull s.tx = true) :
    Keeps s (sendAccept m p s) := by
  unfold sendAccept
  refine Keeps.trans ?_ (keeps_requestTick _)
  obtain ⟨ho1, ho2⟩ := txWindowFull_false hw
  dsimp only
  generalize hv : filledTxSlot _ _ = v
  have hvs : v.state = .pendingSend := by rw [← hv]; rfl
  refine ⟨rfl, rfl, rfl, id, fun h => ?_, fun c h => ⟨h.1, ?_⟩, fun _ h => h, fun h j => ?_, fun _ h => ?_⟩
  · refine ⟨tableWf_put _ _ _ _ h.1, h.2.1, h.2.2.1, fun j => ?_, h.2.2.2.2⟩
    show Memory.wf (txSlot (setTxSlot _ v s) j).bytes = true
    rw [txSlot_setTxSlot]; split
    · rw [← hv]; exact wf_memWrite _ _ (h.2.2.2.1 _)
    · exact h.2.2.2.1 j
  · obtain ⟨hcnt, ⟨h0, h1⟩, h2, h3⟩ := h
    have e : idSubtract (idInc s.tx.nextId) s.tx.lastId = txOutstanding s.tx + 1 := idSubtract_inc_left _ _ ho2
    have hn : s.tx.lastId + BitVec.ofNat 11 (txOutstanding s.tx).toNat = s.tx.nextId := (eq_add_of_idSubtract _ _ h0).symm
    refine ⟨?_, fun i => ?_, fun hd => ?_⟩
    · show 0 ≤ idSubtract (idInc s.tx.nextId) s.tx.lastId ∧
        idSubtract (idInc s.tx.nextId) s.tx.lastId ≤ min (s.tx.count.toNat : Int) Config.outstandingLimit
      rw [e]
      have : (Config.outstandingLimit : Int) = 1023 := rfl
      exact ⟨by omega, le_min (by omega) (by omega)⟩
    · rw [exists_txWindow (by show 0 ≤ idSubtract (idInc s.tx.nextId) s.tx.lastId; omega)]
      show (txSlot (setTxSlot _ v s) i).state ≠ .idle ↔ ∃ j : Nat,
        (j : Int) < idSubtract (idInc s.tx.nextId) s.tx.lastId ∧ txIndex s (s.tx.lastId + BitVec.ofNat 11 j) = i
      rw [e, txSlot_setTxSlot]
      split
      · rename_i ei
        refine ⟨fun _ => ⟨(txOutstanding s.tx).toNat, by omega, by rw [hn]; exact ei.symm⟩, fun _ => by rw [hvs]; simp⟩
      · rename_i ei
        rw [h2 i, exists_txWindow h0]
        constructor
        · rintro ⟨j, hj, ej⟩; exact ⟨j, by omega, ej⟩
        · rintro ⟨j, hj, ej⟩
          refine ⟨j, ?_, ej⟩
          by_contra hh
          have : j = (txOutstanding s.tx).toNat := by omega
          rw [this, hn] at ej; exact ei ej.symm
    · exact absurd (show s.conn.state = .disconnected from hd) (by simp [hc])
  · show (txSlot (setTxSlot _ v s) j).sendCount.toNat ≤ _
    rw [txSlot_setTxSlot]; split
    · rw [← hv]; simp [filledTxSlot]
    · exact h j
  · refine ⟨h.1, h.2.1, fun j => ?_⟩
    show timeInRange (txSlot (setTxSlot _ v s) j).lastSendTime = true
    rw [txSlot_setTxSlot]; split
    · rw [← hv]; exact h.2.2 _
    · exact h.2.2 j

theorem sendStatus_success {s : State} {p : List Byte} (h : sendStatus p s = .success) :
    s.conn.state = .connected ∧ ¬ txWindowFull s.tx = true ∧ payloadSizeOk s.par p = true := by
  unfold sendStatus at h
  split_ifs at h with h1 h2 h3
  exact ⟨by simpa using h1, h2, by simpa using h3⟩

theorem keeps_sendAttempt (m : Metadata) (p : List Byte) : Keeps s (sendAttempt m p s) := by
  unfold sendAttempt; split
  · rename_i h
    exact keeps_sendAccept s m p (sendStatus_success h).1 (sendStatus_success h).2.1
  · exact .refl s

theorem keeps_blockingRound (r : BSend) : Keeps s (blockingRound r s) := by
  unfold blockingRound
  have h := keeps_sendAttempt s r.metadata r.payload
  dsimp only
  split_ifs
  · exact (h.trans (keeps_bsend _ _)).trans (keeps_answer _ _)
  · exact (h.trans (keeps_bsend _ _)).trans (keeps_answer _ _)
  · exact (h.trans (keeps_bsend _ _)).trans (keeps_answer _ _)
  · exact h.trans (keeps_bsend _ _)

theorem keeps_sendBody (a : BitVec 28) (m : Metadata) (p : List Byte) : Keeps s (sendBody a m p s) := by
  unfold sendBody; split
  · exact (keeps_sendAttempt s m p).trans (keeps_answer _ _)
  · exact keeps_blockingRound s _

theorem keeps_resumeSend : Keeps s (resumeSend s) := by
  unfold resumeSend
  split
  · exact .refl s
  · split
    · exact .refl s
    · split
      · exact (keeps_bsend s _).trans (keeps_refuse _ _)
      · exact (keeps_accepted s).trans (keeps_blockingRound _ _)

/-- The window that TX_WINDOW_SET gives is a legal one (R28, R137). -/
theorem grownCount_spec {s : State} (n : BitVec 32) (hc : CfgInv s) :
    (∃ k, (grownCount s n).toNat = 2 ^ k) ∧ (grownCount s n).toNat ≤ s.cfg.txFrameCountMax.toNat := by
  obtain ⟨k, hk, e⟩ := hc.1
  unfold grownCount
  split
  · exact ⟨⟨k, e⟩, le_refl _⟩
  · rename_i hlt
    have hle : s.cfg.txFrameCountMax.toNat ≤ 1024 := (cfgInv_txMax hc).2
    obtain ⟨j, h1, h2, h3, h4⟩ := pow2Ceil_spec n.toNat (by omega)
    have hjk : j ≤ k := by
      by_contra hh
      have := h4 k (by omega)
      omega
    have hp : 2 ^ j ≤ 2 ^ k := Nat.pow_le_pow_right (by norm_num) hjk
    have he : (BitVec.ofNat 11 (pow2Ceil n.toNat)).toNat = 2 ^ j := by
      rw [h1, BitVec.toNat_ofNat, Nat.mod_eq_of_lt (by omega)]
    rw [he]
    exact ⟨⟨j, rfl⟩, by omega⟩

theorem keeps_windowSet (n : BitVec 32) : Keeps s (windowSet n s) := by
  unfold windowSet
  split
  swap
  · exact .refl s
  rename_i hs
  have h1 : s.tx.count = 1 ∧ n ≠ 0 := by
    unfold windowSetStatus at hs
    split_ifs at hs with a b
    exact ⟨by simpa using a, b⟩
  dsimp only
  set c := grownCount s n with hcdef
  have hslot : ∀ j, txSlot (relocate c s) j =
      if txOutstanding s.tx = 1 ∧ slotIndex s.tx.lastId c ≠ 0 then
        if j = 0 then { txSlot s 0 with state := .idle, sendCount := 0 }
        else if j = slotIndex s.tx.lastId c then txSlot s 0 else txSlot s j
      else txSlot s j := by
    intro j; unfold relocate; dsimp only; split
    · simp
    · rfl
  have hlast : (relocate c s).tx.lastId = s.tx.lastId ∧ (relocate c s).tx.nextId = s.tx.nextId := by
    unfold relocate; dsimp only; split <;> exact ⟨rfl, rfl⟩
  have hwf : tableWf TxSlot.zero s.tx.slots = true → tableWf TxSlot.zero (relocate c s).tx.slots = true := by
    intro h; unfold relocate; dsimp only; split
    · exact tableWf_put _ _ _ _ (tableWf_put _ _ _ _ h)
    · exact h
  have hsame : (relocate c s).par = s.par ∧ (relocate c s).cfg = s.cfg ∧ (relocate c s).port = s.port ∧
      (relocate c s).rx = s.rx ∧ (relocate c s).link = s.link ∧ (relocate c s).conn = s.conn ∧ (relocate c s).ctx = s.ctx := by
    unfold relocate; dsimp only; split <;> exact ⟨rfl, rfl, rfl, rfl, rfl, rfl, rfl⟩
  obtain ⟨p1, p2, p3, p4, p5, p6, p7⟩ := hsame
  generalize relocate c s = t at *
  refine ⟨p1, p2, by rw [p3], ringInv_congr p2 (by rw [p5]) (by rw [p5]), fun h => ?_, fun hc h => ?_, fun _ => rxInv_congr p2 (by rw [p4]) (by rw [p4]), fun h j => ?_, fun _ h => ?_⟩
  · refine ⟨hwf h.1, by rw [p4]; exact h.2.1, by rw [p5]; exact h.2.2.1, fun j => ?_, fun j => ?_⟩
    · show Memory.wf (txSlot t j).bytes = true
      rw [hslot]; split_ifs
      · exact h.2.2.2.1 0
      · exact h.2.2.2.1 0
      · exact h.2.2.2.1 j
      · exact h.2.2.2.1 j
    · show Memory.wf (rxSlot t j).payload = true
      rw [rxSlot_congr s p4]; exact h.2.2.2.2 j
  · have hg := grownCount_spec n hc
    rw [← hcdef] at hg
    have hc1 : 1 ≤ c.toNat := by obtain ⟨k, hk⟩ := hg.1; rw [hk]; exact Nat.one_le_two_pow
    obtain ⟨hcnt, ⟨h0, hle⟩, h2, h3⟩ := h
    have hone : s.tx.count.toNat = 1 := by rw [h1.1]; rfl
    have hle1 : txOutstanding s.tx ≤ 1 := by
      have := le_trans hle (min_le_left _ _); rw [hone] at this; exact_mod_cast this
    have hidx : ∀ f, txIndex s f = 0 := fun f => by unfold txIndex slotIndex; rw [hone]; exact Nat.mod_one _
    have hout : idSubtract t.tx.nextId t.tx.lastId = txOutstanding s.tx := by rw [hlast.1, hlast.2]; rfl
    refine ⟨⟨hg.1, by show c.toNat ≤ t.cfg.txFrameCountMax.toNat; rw [p2]; exact hg.2⟩, ?_, fun i => ?_, fun hd => ?_⟩
    · show 0 ≤ idSubtract t.tx.nextId t.tx.lastId ∧
        idSubtract t.tx.nextId t.tx.lastId ≤ min (c.toNat : Int) Config.outstandingLimit
      rw [hout]
      have : (Config.outstandingLimit : Int) = 1023 := rfl
      exact ⟨h0, le_min (by omega) (by omega)⟩
    · rw [exists_txWindow (by show 0 ≤ idSubtract t.tx.nextId t.tx.lastId; rw [hout]; exact h0)]
      show (txSlot t i).state ≠ .idle ↔ ∃ j : Nat, (j : Int) < idSubtract t.tx.nextId t.tx.lastId ∧
        slotIndex (t.tx.lastId + BitVec.ofNat 11 j) c = i
      rw [hout, hlast.1, hslot]
      have hs0 := h2 0
      have hsi := fun k => h2 k
      simp only [exists_txWindow h0] at hsi
      simp only [hidx] at hsi
      by_cases ho : txOutstanding s.tx = 1
      · have hex : (∃ j : Nat, (j : Int) < txOutstanding s.tx ∧ slotIndex (s.tx.lastId + BitVec.ofNat 11 j) c = i) ↔
            slotIndex s.tx.lastId c = i := by
          constructor
          · rintro ⟨j, hj, e⟩
            obtain rfl : j = 0 := by omega
            simpa using e
          · intro e; exact ⟨0, by omega, by simpa using e⟩
        rw [hex]
        have hk : ∀ k, (txSlot s k).state ≠ .idle ↔ 0 = k := by
          intro k; rw [hsi k]
          exact ⟨fun ⟨_, _, e⟩ => e, fun e => ⟨0, by omega, e⟩⟩
        by_cases hi : slotIndex s.tx.lastId c ≠ 0
        · rw [if_pos ⟨ho, hi⟩]
          split_ifs with a b
          · subst a; simpa using hi
          · subst b; simp [(hk 0).mpr rfl]
          · rw [hk]; exact ⟨fun e => absurd e.symm a, fun e => absurd e.symm b⟩
        · rw [if_neg (fun x => hi x.2), hk]
          have : slotIndex s.tx.lastId c = 0 := by simpa using hi
          rw [this]
      · have h00 : txOutstanding s.tx = 0 := by omega
        rw [if_neg (fun x => ho x.1), hsi, h00]
        constructor
        · rintro ⟨j, hj, _⟩; omega
        · rintro ⟨j, hj, _⟩; omega
    · show idSubtract t.tx.nextId t.tx.lastId = 0
      rw [hout]
      exact h3 (by have : t.conn.state = .disconnected := hd; rw [p6] at this; exact this)
  · show (txSlot t j).sendCount.toNat ≤ _
    rw [hslot]; split_ifs
    · simp
    · exact h 0
    · exact h j
    · exact h j
  · refine ⟨by show timeInRange t.ctx.lastNow = true; rw [p7]; exact h.1, by show timeInRange t.conn.resetTime = true; rw [p6]; exact h.2.1, fun j => ?_⟩
    show timeInRange (txSlot t j).lastSendTime = true
    rw [hslot]; split_ifs
    · exact h.2.2 0
    · exact h.2.2 0
    · exact h.2.2 j
    · exact h.2.2 j

theorem keeps_windowSetBody (n : BitVec 32) : Keeps s (windowSetBody n s) := (keeps_windowSet s n).trans (keeps_answer _ _)

/-! ### Retirement and acknowledgements -/

theorem keeps_retireHead (h : 0 < txOutstanding s.tx) : Keeps s (retireHead s) := by
  have hslot : ∀ j, txSlot (retireHead s) j = if j = txIndex s s.tx.lastId then
      { txSlot s (txIndex s s.tx.lastId) with state := .idle, sendCount := 0 } else txSlot s j := by
    intro j; simp [txSlot]
  refine ⟨rfl, rfl, rfl, id, fun m => ?_, fun hc x => ⟨x.1, ?_⟩, fun _ h => h, fun r j => ?_, fun _ x => ⟨x.1, x.2.1, fun j => ?_⟩⟩
  · refine ⟨tableWf_put _ _ _ _ m.1, m.2.1, m.2.2.1, fun j => ?_, m.2.2.2.2⟩
    rw [hslot]; split
    · exact m.2.2.2.1 _
    · exact m.2.2.2.1 j
  · obtain ⟨hcnt, ⟨h0, hle⟩, h2, h3⟩ := x
    have e : idSubtract s.tx.nextId (idInc s.tx.lastId) = txOutstanding s.tx - 1 :=
      idSubtract_inc_right _ _ (by unfold txOutstanding at h; omega)
    refine ⟨?_, fun i => ?_, fun hd => ?_⟩
    · show 0 ≤ idSubtract s.tx.nextId (idInc s.tx.lastId) ∧
        idSubtract s.tx.nextId (idInc s.tx.lastId) ≤ min (s.tx.count.toNat : Int) Config.outstandingLimit
      rw [e]
      exact ⟨by omega, by omega⟩
    · rw [exists_txWindow (by show 0 ≤ idSubtract s.tx.nextId (idInc s.tx.lastId); omega), hslot]
      show _ ↔ ∃ j : Nat, (j : Int) < idSubtract s.tx.nextId (idInc s.tx.lastId) ∧
        txIndex s (idInc s.tx.lastId + BitVec.ofNat 11 j) = i
      rw [e]
      have hadd : ∀ j, idInc s.tx.lastId + BitVec.ofNat 11 j = s.tx.lastId + BitVec.ofNat 11 (j + 1) := by
        intro j; rw [idInc_eq, add_ofNat_add, Nat.add_comm]
      have hinj := fun {a b : Nat} => txIndex_window_inj (i := a) (j := b) hcnt (le_trans hle (min_le_left _ _))
      simp only [hadd]
      split
      · rename_i ei
        refine ⟨fun x => absurd rfl x, fun ⟨j, hj, ej⟩ => ?_⟩
        have := hinj (a := j + 1) (b := 0) (by push_cast; omega) (by simpa using h) (by rw [ej, ei]; simp)
        omega
      · rename_i ei
        rw [h2 i, exists_txWindow h0]
        constructor
        · rintro ⟨j, hj, ej⟩
          cases j with
          | zero => exact absurd (by rw [← ej]; simp) ei
          | succ j => exact ⟨j, by push_cast at hj; omega, ej⟩
        · rintro ⟨j, hj, ej⟩
          exact ⟨j + 1, by push_cast; omega, ej⟩
    · have := h3 hd; omega
  · rw [hslot]; split
    · simp
    · exact r j
  · rw [hslot]; split
    · exact x.2.2 _
    · exact x.2.2 j

theorem retireHead_outstanding (h : 0 < txOutstanding s.tx) : txOutstanding (retireHead s).tx = txOutstanding s.tx - 1 := by
  show idSubtract s.tx.nextId (idInc s.tx.lastId) = _
  exact idSubtract_inc_right _ _ (by unfold txOutstanding at h; omega)

theorem keeps_retireMany (k : Nat) : ∀ s : State, (k : Int) ≤ txOutstanding s.tx →
    Keeps s (retireMany k s) ∧ txOutstanding (retireMany k s).tx = txOutstanding s.tx - k := by
  induction k with
  | zero => exact fun s _ => ⟨.refl s, by simp [retireMany]⟩
  | succ k ih =>
    intro s h
    push_cast at h
    obtain ⟨h1, h2⟩ := ih (retireHead s) (by rw [retireHead_outstanding s (by omega)]; omega)
    refine ⟨(keeps_retireHead s (by omega)).trans h1, ?_⟩
    show txOutstanding (retireMany k (retireHead s)).tx = _
    rw [h2, retireHead_outstanding s (by omega)]; push_cast; omega

theorem keeps_retireAcked (k : Nat) : ∀ s : State, Keeps s (retireAcked k s) := by
  induction k with
  | zero => exact fun s => .refl s
  | succ k ih =>
    intro s
    unfold retireAcked; split
    · rename_i h; exact (keeps_retireHead s h.1).trans (ih _)
    · exact .refl s

theorem txInWindow_iff (t : TxUnit) (f : FrameId) :
    txInWindow t f = true ↔ 0 ≤ idSubtract f t.lastId ∧ idSubtract f t.lastId < txOutstanding t := by
  unfold txInWindow; rw [Bool.and_eq_true]; exact and_congr decide_eq_true_iff decide_eq_true_iff

theorem keeps_ackAll (f : FrameId) : Keeps s (ackAll f s) := by
  unfold ackAll; split
  · exact .refl s
  · rename_i h
    have h' := (txInWindow_iff s.tx f).mp (by simpa using h)
    exact (keeps_retireMany _ s (by omega)).1.trans (keeps_retireAcked _ _)

theorem keeps_ackOne (f : FrameId) : Keeps s (ackOne f s) := by
  unfold ackOne; dsimp only; split_ifs with a b
  · exact .refl s
  · exact keeps_setTxState _ _ (by rcases b with b | b <;> simp [b]) (by simp)
  · exact .refl s

theorem keeps_nackFrame (f : FrameId) : Keeps s (nackFrame f s) := by
  unfold nackFrame; dsimp only; split_ifs with a b
  · exact .refl s
  · exact (keeps_setTxState _ _ b (by simp)).trans (keeps_requestTick _)
  · exact .refl s

theorem keeps_timeoutScan : Keeps s (timeoutScan s) := by
  refine keeps_foldl _ (fun s f => ?_) _ s
  unfold timeoutOne; dsimp only; split
  · rename_i h
    refine keeps_setTxState _ _ ?_ (by simp)
    unfold timedOut at h
    rw [Bool.and_eq_true] at h
    rw [of_decide_eq_true h.1]; simp
  · exact .refl s

/-! ### Service -/

theorem keeps_statusClear : Keeps s (statusClear s) := by
  have h : Keeps s { s with stats := ⟨0, 0, 0, 0, 0, 0⟩, fs := framerStatusClear s.par s.fs } := by
    apply Keeps.of_eq <;> first | rfl | exact .inl rfl
  exact h.trans (keeps_link { s.link with drops := 0 } id id)

/-! ### Reset and callbacks -/

theorem txSlot_resetQuiet (i : Nat) : txSlot (resetQuiet s) i = resetTxSlot (txSlot s i) := by
  have : (resetQuiet s).tx = (resetRegisters s).tx := by simp [resetQuiet]
  rw [txSlot_congr (resetRegisters s) this, txSlot_resetRegisters]

theorem txInv_resetRegisters : TxCountInv s ∨ CfgInv s → TxCountInv (resetRegisters s) ∧ TxInv (resetRegisters s) := by
  intro h
  have h1 : 1 ≤ s.cfg.txFrameCountMax.toNat := by
    rcases h with ⟨⟨k, hk⟩, hle⟩ | hc
    · have : 1 ≤ 2 ^ k := Nat.one_le_two_pow
      omega
    · exact (cfgInv_txMax hc).1
  have h0 : txOutstanding (resetRegisters s).tx = 0 := idSubtract_self 0
  have hc : (resetRegisters s).tx.count.toNat = 1 := rfl
  have hl : (Config.outstandingLimit : Int) = 1023 := rfl
  refine ⟨⟨⟨0, rfl⟩, h1⟩, ⟨?_, fun i => ?_, fun _ => h0⟩⟩
  · rw [h0, hc, hl]; decide
  rw [txSlot_resetRegisters]
  have : txWindow (resetRegisters s) = [] := idRange_self 0
  simp [this, resetTxSlot]

theorem keeps_resetRegisters : Keeps s (resetRegisters s) where
  par := rfl
  cfg := rfl
  now := rfl
  ring h := ⟨by show 0 < s.cfg.txLinkSize.toNat; have := h.1; omega, by simp⟩
  mem h := by
    refine ⟨tableWf_map _ _ _, tableWf_map _ _ _, h.2.2.1, fun i => ?_, fun i => ?_⟩
    · rw [txSlot_resetRegisters]; exact h.2.2.2.1 i
    · rw [rxSlot_resetRegisters]; exact h.2.2.2.2 i
  tx _ h := txInv_resetRegisters s (.inl h.1)
  rx _ _ i hi := by rw [rxSlot_resetRegisters] at hi; exact absurd rfl hi
  retry h i := by rw [txSlot_resetRegisters]; simp [resetTxSlot]
  time _ h := ⟨h.1, h.2.1, fun i => by rw [txSlot_resetRegisters]; exact h.2.2 i⟩

/-- A change of the connection unit: `reset_time` to `now` at most, the state to Connected at most. -/
theorem keeps_conn {s : State} (c : Conn) (hs : c.state = .disconnected → s.conn.state = .disconnected)
    (ht : c.resetTime = s.conn.resetTime ∨ c.resetTime = s.port.now) : Keeps s { s with conn := c } where
  par := rfl
  cfg := rfl
  now := rfl
  ring := id
  mem := id
  tx _ h := ⟨h.1, txInv_congr (s := s) rfl hs h.2⟩
  rx _ h := h
  retry := id
  time n h := by
    refine ⟨h.1, ?_, h.2.2⟩
    show timeInRange c.resetTime = true
    rcases ht with e | e
    · rw [e]; exact h.2.1
    · rw [e]; exact n

theorem keeps_resetQuiet : Keeps s (resetQuiet s) := by
  have h := (keeps_resetRegisters s).trans (keeps_linkPush (resetRegisters s) .reset Config.resetRequestId)
  exact h.trans (keeps_conn _ id (.inr h.now.symm))

theorem keeps_localResetWith (event : EventKind → State → State) (h : ∀ k s, Keeps s (event k s)) :
    Keeps s (localResetWith event s) := by
  unfold localResetWith; split
  · exact (keeps_resetQuiet s).trans (h _ _)
  · exact keeps_resetQuiet s

theorem keeps_nestedInstr (event : EventKind → State → State) (h : ∀ k s, Keeps s (event k s)) (i : Instr) :
    Keeps s (nestedInstr event i s) := by
  cases i
  case send a m p => exact keeps_accept s _ _ fun s => keeps_sendBody s a m p
  case txWindowSet n => exact keeps_accept s _ _ fun s => keeps_windowSetBody s n
  case statusGet => exact keeps_accept s _ _ fun s => (keeps_emit s _).trans (keeps_answer _ _)
  case statusClear => exact keeps_accept s _ _ fun s => (keeps_statusClear s).trans (keeps_answer _ _)
  case serviceInterval => exact keeps_accept s _ _ fun s => (keeps_emit s _).trans (keeps_answer _ _)
  case resetTxFromEvent => exact keeps_accept s _ _ fun s => (keeps_localResetWith s event h).trans (keeps_answer _ _)
  all_goals exact keeps_refuse s _

theorem keeps_nestedCommand (event : EventKind → State → State) (h : ∀ k s, Keeps s (event k s)) (c : NestedCommand) :
    Keeps s (nestedCommand event c s) := by
  unfold nestedCommand; split
  · exact keeps_refuse s _
  · exact keeps_nestedInstr s event h _

theorem keeps_callback (run : NestedCommand → State → State) (h : ∀ c s, Keeps s (run c s)) (o : Output) :
    Keeps s (callback run o s) := by
  have k : Keeps s (callbackEnter o s) := by apply Keeps.of_eq <;> first | rfl | exact .inl rfl
  unfold callback
  refine (k.trans (keeps_foldl (fun t c => run c t) (fun s c => h c s) (handlerScript s) _)).trans ?_
  apply Keeps.of_eq <;> first | rfl | exact .inl rfl

theorem keeps_upEventInner (k : EventKind) : Keeps s (upEventInner k s) :=
  keeps_callback s _ (fun c s => keeps_nestedCommand s _ (fun _ s => .refl s) c) _

theorem keeps_upEvent (k : EventKind) : Keeps s (upEvent k s) :=
  keeps_callback s _ (fun c s => keeps_nestedCommand s _ (fun k s => keeps_upEventInner s k) c) _

theorem keeps_upRecv (m : Metadata) (p : List Byte) : Keeps s (upRecv m p s) :=
  keeps_callback s _ (fun c s => keeps_nestedCommand s _ (fun k s => keeps_upEventInner s k) c) _

theorem keeps_localReset : Keeps s (localReset s) := keeps_localResetWith s _ fun k s => keeps_upEvent s k

theorem keeps_onReset (f : FrameId) : Keeps s (onReset f s) := by
  unfold onReset; split_ifs
  · unfold onResetRequest; split
    · exact keeps_linkPush s _ _
    · unfold resetRequestWhileActive
      have h := keeps_upEvent s .rxResetRequest
      dsimp only; split
      · exact (h.trans (keeps_localReset _)).trans (keeps_linkPush _ _ _)
      · exact h.trans (keeps_linkPush _ _ _)
  · unfold onResetResponse; split
    · exact .refl s
    · exact (keeps_conn { s.conn with state := .connected } (by simp) (.inl rfl)).trans (keeps_upEvent _ _)
  · exact .refl s

theorem keeps_resetResend : Keeps s (resetResend s) := by
  unfold resetResend; split
  · have h := keeps_linkPush s .reset Config.resetRequestId
    exact h.trans (keeps_conn _ id (.inr h.now.symm))
  · exact .refl s

/-! ### The RX unit -/

/-- A change of `rx_max_frame_id` alone. -/
theorem keeps_rxMax {s : State} (r : RxUnit) (hn : r.nextId = s.rx.nextId) (hs : r.slots = s.rx.slots) :
    Keeps s { s with rx := r } where
  par := rfl
  cfg := rfl
  now := rfl
  ring := id
  mem := memoryInv_congr rfl hs rfl
  tx _ h := h
  rx _ := rxInv_congr rfl hn hs
  retry := id
  time _ h := h

/-- A slot write that makes the slot Idle, or marks it for an id of the window whose slot it is. -/
theorem keeps_setRxSlot {s : State} (i : Nat) (v : RxSlot)
    (hv : v.state ≠ .idle → (CfgInv s → idInRange v.frameId s.rx.nextId s.cfg.rxWindowSize.toNat = true) ∧ rxIndex s v.frameId = i)
    (wf : Memory.wf (rxSlot s i).payload = true → Memory.wf v.payload = true) : Keeps s (setRxSlot i v s) where
  par := rfl
  cfg := rfl
  now := rfl
  ring := id
  mem h := by
    refine ⟨h.1, tableWf_put _ _ _ _ h.2.1, h.2.2.1, h.2.2.2.1, fun j => ?_⟩
    rw [rxSlot_setRxSlot]; split
    · exact wf (h.2.2.2.2 i)
    · exact h.2.2.2.2 j
  tx _ h := h
  rx hc h j hj := by
    rw [rxSlot_setRxSlot] at hj ⊢
    split
    · rename_i e
      rw [if_pos e] at hj
      exact ⟨(hv hj).1 hc, by rw [e]; exact (hv hj).2⟩
    · rename_i e
      rw [if_neg e] at hj
      exact h j hj
  retry := id
  time _ h := h

theorem keeps_setRxIdle {s : State} (i : Nat) (v : RxSlot) (hv : v.state = .idle) (hp : v.payload = (rxSlot s i).payload) :
    Keeps s (setRxSlot i v s) := keeps_setRxSlot i v (fun h => absurd hv h) (by rw [hp]; exact id)

theorem idInRange_iff (f b : FrameId) (n : Nat) :
    idInRange f b n = true ↔ 0 ≤ idSubtract f b ∧ idSubtract f b < n := by
  unfold idInRange; rw [Bool.and_eq_true]; exact and_congr decide_eq_true_iff decide_eq_true_iff

/-- The RX window moves on by one, past an Idle slot. -/
theorem keeps_rxAdvance {s : State} (r : RxUnit) (hn : r.nextId = idInc s.rx.nextId) (hs : r.slots = s.rx.slots)
    (hi : (rxSlot s (rxIndex s s.rx.nextId)).state = .idle) : Keeps s { s with rx := r } where
  par := rfl
  cfg := rfl
  now := rfl
  ring := id
  mem := memoryInv_congr rfl hs rfl
  tx _ h := h
  rx _ h := by
    intro i
    have e : rxSlot { s with rx := r } i = rxSlot s i := by unfold rxSlot; dsimp only; rw [hs]
    rw [e]
    intro hne
    obtain ⟨h1, h2⟩ := h i hne
    refine ⟨?_, h2⟩
    rw [idInRange_iff] at h1 ⊢
    show 0 ≤ idSubtract (rxSlot s i).frameId r.nextId ∧ idSubtract (rxSlot s i).frameId r.nextId < s.cfg.rxWindowSize.toNat
    rw [hn, idSubtract_inc_right _ _ (by omega)]
    have hz : idSubtract (rxSlot s i).frameId s.rx.nextId ≠ 0 := by
      intro hz
      rw [idSubtract_eq_zero] at hz
      rw [hz] at h2
      rw [h2] at hi; exact hne hi
    omega
  retry := id
  time _ h := h

/-- Every RX slot Idle: the RX invariants hold, whatever the registers. -/
theorem keeps_rxAllIdle {s : State} (r : RxUnit) (hs : r.slots = s.rx.slots) (hi : ∀ i, (rxSlot s i).state = .idle) :
    Keeps s { s with rx := r } where
  par := rfl
  cfg := rfl
  now := rfl
  ring := id
  mem := memoryInv_congr rfl hs rfl
  tx _ h := h
  rx _ _ i hne := by
    have e : rxSlot { s with rx := r } i = rxSlot s i := by unfold rxSlot; dsimp only; rw [hs]
    rw [e] at hne
    exact absurd (hi i) hne
  retry := id
  time _ h := h

theorem keeps_stats (x : Stats) : Keeps s { s with stats := x } := by apply Keeps.of_eq <;> first | rfl | exact .inl rfl

theorem keeps_deliver (m : Metadata) (p : List Byte) : Keeps s (deliver m p s) := (keeps_stats s _).trans (keeps_upRecv _ m p)

theorem keeps_catchUpFrom (fuel : Nat) : ∀ (last : FrameId) (s : State), Keeps s (catchUpFrom fuel last s) := by
  induction fuel with
  | zero => exact fun last s => keeps_linkPush s _ _
  | succ fuel ih =>
    intro last s
    unfold catchUpFrom; split
    swap
    · exact keeps_linkPush s _ _
    dsimp only
    have h := keeps_deliver s (rxSlot s (rxIndex s s.rx.nextId)).metadata
      (memRead (rxSlot s (rxIndex s s.rx.nextId)).payload (rxSlot s (rxIndex s s.rx.nextId)).len.toNat)
    have hr := rxSafe_deliver s (rxSlot s (rxIndex s s.rx.nextId)).metadata
      (memRead (rxSlot s (rxIndex s s.rx.nextId)).payload (rxSlot s (rxIndex s s.rx.nextId)).len.toNat)
    generalize deliver _ _ s = t at h hr
    split
    · exact h
    · refine h.trans (Keeps.trans ?_ (ih _ _))
      have h1 := keeps_setRxIdle (s := t) (rxIndex s s.rx.nextId) { rxSlot t (rxIndex s s.rx.nextId) with state := .idle } rfl rfl
      rcases hr with hr | hr
      · refine h1.trans (keeps_rxAdvance _ rfl rfl ?_)
        have : rxIndex (setRxSlot (rxIndex s s.rx.nextId) { rxSlot t (rxIndex s s.rx.nextId) with state := .idle } t) t.rx.nextId =
            rxIndex s s.rx.nextId := by
          rw [rxIndex_congr s (by exact h.cfg), hr]
        show (rxSlot _ (rxIndex (setRxSlot _ _ t) t.rx.nextId)).state = _
        rw [this, rxSlot_setRxSlot, if_pos rfl]
      · refine h1.trans (keeps_rxAllIdle _ rfl fun i => ?_)
        rw [rxSlot_setRxSlot]; split
        · rfl
        · exact hr i

theorem keeps_exactMatch (m : Metadata) (p : List Byte) : Keeps s (exactMatch s.rx.nextId m p s) := by
  unfold exactMatch; dsimp only
  have h0 := keeps_setRxIdle (s := s) (rxIndex s s.rx.nextId) { rxSlot s (rxIndex s s.rx.nextId) with state := .idle } rfl rfl
  have hi : (rxSlot (setRxSlot (rxIndex s s.rx.nextId) { rxSlot s (rxIndex s s.rx.nextId) with state := .idle } s)
      (rxIndex s s.rx.nextId)).state = .idle := by rw [rxSlot_setRxSlot, if_pos rfl]
  generalize hu : setRxSlot (rxIndex s s.rx.nextId) { rxSlot s (rxIndex s s.rx.nextId) with state := .idle } s = u at h0 hi
  have hun : u.rx.nextId = s.rx.nextId := by rw [← hu]; rfl
  have h := h0.trans (keeps_deliver u m p)
  have hr := rxSafe_deliver u m p
  generalize deliver m p u = t at h hr
  split
  · exact h
  · refine h.trans ?_
    have key : Keeps t { t with rx := { t.rx with nextId := idInc s.rx.nextId } } := by
      rcases hr with hr | hr
      · refine keeps_rxAdvance _ (by show idInc s.rx.nextId = _; rw [hr, hun]) rfl ?_
        have : rxIndex t t.rx.nextId = rxIndex s s.rx.nextId := by rw [rxIndex_congr s h.cfg, hr, hun]
        rw [this, rxSlot_congr u hr]; exact hi
      · exact keeps_rxAllIdle _ rfl hr
    unfold exactMatchTail; dsimp only; split
    · exact (key.trans (keeps_rxMax { nextId := idInc s.rx.nextId, maxId := s.rx.nextId, slots := t.rx.slots } rfl rfl)).trans
        (keeps_linkPush _ _ _)
    · exact key.trans (keeps_catchUpFrom _ _ _)

theorem keeps_nackGap (g : FrameId) (hg : 0 ≤ idSubtract g s.rx.nextId) (hlt : idSubtract g s.rx.nextId < s.cfg.rxWindowSize.toNat) :
    Keeps s (nackGap s g) := by
  unfold nackGap; dsimp only; split
  · refine Keeps.trans ?_ (keeps_linkPush _ _ _)
    exact keeps_setRxSlot _ _ (fun _ => ⟨fun _ => (idInRange_iff _ _ _).mpr ⟨hg, hlt⟩, rfl⟩) id
  · exact .refl s

theorem nackGap_rxNextId (g : FrameId) : (nackGap s g).rx.nextId = s.rx.nextId := by
  unfold nackGap; dsimp only; split <;> simp

theorem nackGap_cfg (g : FrameId) : (nackGap s g).cfg = s.cfg := by
  unfold nackGap; dsimp only; split <;> simp

theorem keeps_nackGaps (l : List FrameId) : ∀ s : State,
    (∀ g ∈ l, 0 ≤ idSubtract g s.rx.nextId ∧ idSubtract g s.rx.nextId < s.cfg.rxWindowSize.toNat) →
    Keeps s (l.foldl nackGap s) ∧ (l.foldl nackGap s).rx.nextId = s.rx.nextId ∧ (l.foldl nackGap s).cfg = s.cfg := by
  induction l with
  | nil => exact fun s _ => ⟨.refl s, rfl, rfl⟩
  | cons g l ih =>
    intro s h
    obtain ⟨h1, h2, h3⟩ := ih (nackGap s g) (by
      intro x hx; rw [nackGap_rxNextId, nackGap_cfg]; exact h x (by simp [hx]))
    have hg := h g (by simp)
    exact ⟨(keeps_nackGap s g hg.1 hg.2).trans h1, h2.trans (nackGap_rxNextId s g), h3.trans (nackGap_cfg s g)⟩

theorem keeps_futureInWindow (f : FrameId) (m : Metadata) (p : List Byte) (h0 : 0 < idSubtract f s.rx.nextId)
    (hlt : idSubtract f s.rx.nextId < s.cfg.rxWindowSize.toNat) : Keeps s (futureInWindow f m p s) := by
  unfold futureInWindow; dsimp only
  refine Keeps.trans ?_ (keeps_linkPush _ _ _)
  have h1 : Keeps s (if 0 < idSubtract f s.rx.maxId then { s with rx := { s.rx with maxId := f } } else s) := by
    split
    · exact keeps_rxMax _ rfl rfl
    · exact .refl s
  have hn : (if 0 < idSubtract f s.rx.maxId then { s with rx := { s.rx with maxId := f } } else s).rx.nextId = s.rx.nextId := by
    split <;> rfl
  generalize (if 0 < idSubtract f s.rx.maxId then { s with rx := { s.rx with maxId := f } } else s) = t at h1 hn
  obtain ⟨h2, h3, h4⟩ := keeps_nackGaps (idRange t.rx.nextId f) t (by
    intro g hg
    rw [hn] at hg
    rw [hn, h1.cfg]
    have := (mem_idRange _ _ _ (le_of_lt h0)).mp hg
    omega)
  refine (h1.trans h2).trans (keeps_setRxSlot _ _ (fun _ => ⟨fun _ => (idInRange_iff _ _ _).mpr ?_, rfl⟩) (wf_memWrite _ _))
  show 0 ≤ idSubtract f _ ∧ idSubtract f _ < _
  rw [h3, h4, hn, h1.cfg]; omega

theorem keeps_rxDataProc (f : FrameId) (m : Metadata) (p : List Byte) : Keeps s (rxDataProc f m p s) := by
  unfold rxDataProc
  split
  · exact .refl s
  · have h : Keeps s { s with conn := { s.conn with activity := true } } := keeps_conn _ id (.inl rfl)
    refine h.trans ?_
    generalize ({ s with conn := { s.conn with activity := true } } : State) = t
    dsimp only
    split_ifs with a b c d
    · exact keeps_linkPush _ _ _
    · rw [idSubtract_eq_zero] at b
      rw [b]; exact keeps_exactMatch t m p
    · exact keeps_linkPush _ _ _
    · exact keeps_linkPush _ _ _
    · exact keeps_futureInWindow t f m p (by omega) (by omega)

theorem keeps_rxFramingErrorProc : Keeps s (rxFramingErrorProc s) := by
  unfold rxFramingErrorProc; split
  · exact .refl s
  · exact keeps_linkPush s _ _

/-! ### Link control and facade -/

theorem keeps_rxLinkProc (t : BitVec 5) (f : FrameId) : Keeps s (rxLinkProc t f s) := by
  unfold rxLinkProc; split_ifs
  · exact keeps_ackAll s f
  · exact keeps_ackOne s f
  · exact keeps_nackFrame s f
  · exact keeps_nackFrame s f
  · exact keeps_onReset s f
  · exact .refl s

theorem keeps_drainWords (k : Nat) (hk : k ≤ s.link.count.toNat) : Keeps s (drainWords k s) := by
  unfold drainWords; dsimp only
  have h := keeps_llSend s (ringBytes s s.link.head.toNat (min k (s.cfg.txLinkSize.toNat - s.link.head.toNat)))
  have key : ∀ u : State, u.link = s.link → u.cfg = s.cfg →
      Keeps u { u with link := { u.link with head := BitVec.ofNat 32 (ringIndex s k),
                                             count := u.link.count - BitVec.ofNat 32 k } } := by
    intro u hl hc
    refine keeps_link _ (fun r => ?_) id
    have hlt := s.cfg.txLinkSize.isLt
    have hcl := s.link.count.isLt
    obtain ⟨r1, r2⟩ := r
    rw [hl, hc] at r1 r2
    have hm : ringIndex s k < s.cfg.txLinkSize.toNat := Nat.mod_lt _ (by omega)
    refine ⟨?_, ?_⟩
    · show (BitVec.ofNat 32 (ringIndex s k)).toNat < u.cfg.txLinkSize.toNat
      rw [hc, BitVec.toNat_ofNat, Nat.mod_eq_of_lt (by omega)]; exact hm
    · show (u.link.count - BitVec.ofNat 32 k).toNat ≤ u.cfg.txLinkSize.toNat
      rw [hc, hl, BitVec.toNat_sub, BitVec.toNat_ofNat, Nat.mod_eq_of_lt (show k < 2 ^ 32 by omega)]
      omega
  split
  · exact (h.trans (keeps_llSend _ (ringBytes s 0 (k - min k (s.cfg.txLinkSize.toNat - s.link.head.toNat))))).trans
      (key _ rfl rfl)
  · exact h.trans (key _ rfl rfl)

theorem keeps_linkDrain : Keeps s (linkDrain s) := by
  unfold linkDrain; dsimp only; split_ifs
  · exact .refl s
  · exact keeps_llAvail s
  · exact (keeps_llAvail s).trans (keeps_drainWords _ _ (min_le_left _ _))

theorem keeps_eof (b : Bool) : Keeps s { s with eofPending := b } := by apply Keeps.of_eq <;> first | rfl | exact .inl rfl

theorem keeps_eofCheck : Keeps s (eofCheck s) := by
  unfold eofCheck; dsimp only; split_ifs
  · exact .refl s
  · exact .refl s
  · exact .refl s
  · exact keeps_llAvail s
  · exact ((keeps_llAvail s).trans (keeps_llSendMarker _)).trans (keeps_eof _ _)

theorem keeps_transmit (i : Nat) (hp : (txSlot s i).state = .pendingSend) (hc : (txSlot s i).sendCount.toNat < 25) :
    Keeps s (transmit i s) := by
  unfold transmit; dsimp only; split
  · exact keeps_llAvail s
  · have h1 : Keeps s (if 1 ≤ (txSlot s i).sendCount.toNat then
        { (llAvail s).2 with stats := { (llAvail s).2.stats with txRetransmissions := (llAvail s).2.stats.txRetransmissions + 1 } }
        else (llAvail s).2) := by
      refine (keeps_llAvail s).trans ?_
      split
      · exact keeps_stats _ _
      · exact .refl _
    have htx : (if 1 ≤ (txSlot s i).sendCount.toNat then
        { (llAvail s).2 with stats := { (llAvail s).2.stats with txRetransmissions := (llAvail s).2.stats.txRetransmissions + 1 } }
        else (llAvail s).2).tx = s.tx := by split <;> simp
    generalize (if 1 ≤ (txSlot s i).sendCount.toNat then
        { (llAvail s).2 with stats := { (llAvail s).2.stats with txRetransmissions := (llAvail s).2.stats.txRetransmissions + 1 } }
        else (llAvail s).2) = u at h1 htx
    have h2 := h1.trans (keeps_llSend u (memRead (txSlot s i).bytes (txSlot s i).len.toNat))
    have hs : txSlot (llSend (memRead (txSlot s i).bytes (txSlot s i).len.toNat) u) i = txSlot s i := txSlot_congr s htx i
    refine h2.trans (keeps_setTxSlot i _ (by rw [hs, hp]; simp) (by rw [hs]; exact id) (fun _ => ?_) (.inr h2.now.symm))
    show ((txSlot s i).sendCount + 1).toNat ≤ 25
    rw [BitVec.toNat_add]; simp; omega

theorem keeps_txScanFrom (l : List FrameId) : Keeps s (txScanFrom s l) := by
  induction l with
  | nil => exact .refl s
  | cons f l ih =>
    unfold txScanFrom; dsimp only; split
    · rename_i hp
      split
      · exact keeps_localReset s
      · rename_i hc
        exact keeps_transmit s _ hp (by have : Config.retryMax = 25 := rfl; omega)
    · exact ih

theorem keeps_rearm : Keeps s (rearm s) := by apply Keeps.of_eq <;> first | rfl | exact .inl rfl

theorem keeps_processSteps : Keeps s (processSteps s) :=
  (((((keeps_resetResend s).trans (keeps_timeoutScan _)).trans (keeps_linkDrain _)).trans (keeps_txScanFrom _ _)).trans
    (keeps_eofCheck _)).trans (keeps_rearm _)

theorem keeps_framerEvent (e : FramerEvent) : Keeps s (framerEvent s e) := by
  cases e with
  | data f m p => exact keeps_rxDataProc s f m p
  | link t f => exact keeps_rxLinkProc s t f
  | framingError => exact keeps_rxFramingErrorProc s

theorem keeps_llRecvProc (d : List Byte) : Keeps s (llRecvProc d s) := by
  unfold llRecvProc
  dsimp only
  refine Keeps.trans ?_ (keeps_foldl _ (fun s e => keeps_framerEvent s e) _ _)
  apply Keeps.of_eq <;> first | rfl | exact .inl rfl

end Sys2Proof.Laws
end

