-- ==== Sys2Proof/Laws/Link.lean ====
section
/-! SUPPORT. The link ring as bytes (R63, R234): a run of ring entries and the bytes of a list of words. -/

namespace Sys2Proof.Laws

open Sys2Proof Sys2Proof.Machine

theorem ringIndex_mod (h k N j : Nat) : ((h + k) % N + j) % N = (h + (k + j)) % N := by
  rw [Nat.mod_add_mod, Nat.add_assoc]

theorem ringBytes_eq (s : State) (i n : Nat) : ringBytes s i n = ((List.range n).map fun k => ringRead s (i + k)).flatMap wordBytes := by
  induction n generalizing i with
  | zero => rfl
  | succ n ih =>
    rw [ringBytes, ih, List.range_succ_eq_map]
    simp [List.flatMap_cons, Function.comp_def, Nat.add_assoc, Nat.add_comm 1, List.map_map, Nat.succ_eq_add_one]

theorem wordBytes_length (l : List Word64) : (l.flatMap wordBytes).length = 8 * l.length := by
  induction l with
  | nil => rfl
  | cons w l ih => rw [List.flatMap_cons, List.length_append, ih, List.length_cons]; simp [wordBytes]; omega

end Sys2Proof.Laws
end

