-- ==== Sys2Proof/Laws/PerInstr.lean ====
section
/-! SUPPORT. The per-instruction family `EncodedForm`: the encoded word of every instruction has its row's opcode, no reserved bit set, and
the operand length its fields state. -/

namespace Sys2Proof.Laws

open Sys2Proof

/-- The opcode of an instruction (R81): the seven RX_LINK sub-forms share one. -/
def opcodeFor : Instr → Opcode
  | .init _ => .init
  | .send _ _ _ => .send
  | .txWindowSet _ => .txWindowSet
  | .process => .process
  | .llRecv _ => .llRecv
  | .statusGet => .statusGet
  | .statusClear => .statusClear
  | .rxData _ _ _ => .rxData
  | .rxLink _ _ => .rxLink
  | .rxLinkAckAll _ => .rxLink
  | .rxLinkAckOne _ => .rxLink
  | .rxLinkNackFrameId _ => .rxLink
  | .rxLinkNackFramingError _ => .rxLink
  | .rxLinkResetReq => .rxLink
  | .rxLinkResetRsp => .rxLink
  | .rxLinkResetOther _ => .rxLink
  | .rxFramingError => .rxFramingError
  | .resetTxFromEvent => .resetTxFromEvent
  | .serviceInterval => .serviceInterval
  | .finalize => .finalize

/-- What the decoder's three tests (R305, orders 1 to 3) see of an encoded instruction. -/
def EncodedForm.Statement (i : Instr) : Prop :=
  ∀ c : LinkCodes, i.wellFormed c = true →
    opcodeOf (opField (encode c i).1) = some (opcodeFor i) ∧
    reservedClear (formatOf (opcodeFor i)) (encode c i).1 = true ∧
    operandFits (formatOf (opcodeFor i)) (encode c i).1 (encode c i).2 = true

theorem EncodedForm.init (c : CfgRecord) : EncodedForm.Statement (.init c) := fun _ _ =>
  ⟨by simp only [encode, opField_wordN, opcodeOf_opcodeBits, opcodeFor], reservedClear_wordN _ (.inr rfl), rfl⟩

theorem EncodedForm.send (a : BitVec 28) (m : Metadata) (p : List Byte) : EncodedForm.Statement (.send a m p) := by
  intro c h
  have hp : p.length < 2 ^ 16 := by simpa [Instr.wellFormed] using h
  refine ⟨?_, ?_, ?_⟩
  · simp only [encode, opField_wordS, opcodeOf_opcodeBits, opcodeFor]
  · exact reservedClear_wordS _ _ _
  · refine (operandFits_bytes _ _ _).mpr ⟨by simp [opcodeFor, formatOf], ?_⟩
    simp only [encode, opcodeFor, formatOf, operandLength, lenField_wordS, BitVec.toNat_ofNat]
    omega

theorem EncodedForm.txWindowSet (n : BitVec 32) : EncodedForm.Statement (.txWindowSet n) := fun _ _ =>
  ⟨by simp only [encode, opField_wordW, opcodeOf_opcodeBits, opcodeFor], reservedClear_wordW _ _, rfl⟩

theorem EncodedForm.process : EncodedForm.Statement .process := fun _ _ =>
  ⟨by simp only [encode, opField_wordN, opcodeOf_opcodeBits, opcodeFor], reservedClear_wordN _ (.inl rfl), rfl⟩

theorem EncodedForm.llRecv (d : List Byte) : EncodedForm.Statement (.llRecv d) := by
  intro c h
  have hp : d.length < 2 ^ 32 := by simpa [Instr.wellFormed] using h
  refine ⟨?_, ?_, ?_⟩
  · simp only [encode, opField_wordW, opcodeOf_opcodeBits, opcodeFor]
  · exact reservedClear_wordB _ _
  · refine (operandFits_bytes _ _ _).mpr ⟨by simp [opcodeFor, formatOf], ?_⟩
    simp only [encode, opcodeFor, formatOf, operandLength, nField_wordW, BitVec.toNat_ofNat]
    omega

theorem EncodedForm.statusGet : EncodedForm.Statement .statusGet := fun _ _ =>
  ⟨by simp only [encode, opField_wordN, opcodeOf_opcodeBits, opcodeFor], reservedClear_wordN _ (.inl rfl), rfl⟩

theorem EncodedForm.statusClear : EncodedForm.Statement .statusClear := fun _ _ =>
  ⟨by simp only [encode, opField_wordN, opcodeOf_opcodeBits, opcodeFor], reservedClear_wordN _ (.inl rfl), rfl⟩

theorem EncodedForm.rxData (f : FrameId) (m : Metadata) (p : List Byte) : EncodedForm.Statement (.rxData f m p) := by
  intro c h
  have hp : p.length < 2 ^ 16 := by simpa [Instr.wellFormed] using h
  refine ⟨?_, ?_, ?_⟩
  · simp only [encode, opField_wordD, opcodeOf_opcodeBits, opcodeFor]
  · exact reservedClear_wordD _ _ _
  · refine (operandFits_bytes _ _ _).mpr ⟨by simp [opcodeFor, formatOf], ?_⟩
    simp only [encode, opcodeFor, formatOf, operandLength, lenField_wordD, BitVec.toNat_ofNat]
    omega

theorem EncodedForm.rxLink (t : BitVec 5) (f : FrameId) : EncodedForm.Statement (.rxLink t f) := fun _ _ =>
  ⟨by simp only [encode, opField_wordL, opcodeOf_opcodeBits, opcodeFor], reservedClear_wordL _ _, rfl⟩

theorem EncodedForm.rxLinkAckAll (f : FrameId) : EncodedForm.Statement (.rxLinkAckAll f) := fun _ _ =>
  ⟨by simp only [encode, opField_wordL, opcodeOf_opcodeBits, opcodeFor], reservedClear_wordL _ _, rfl⟩

theorem EncodedForm.rxLinkAckOne (f : FrameId) : EncodedForm.Statement (.rxLinkAckOne f) := fun _ _ =>
  ⟨by simp only [encode, opField_wordL, opcodeOf_opcodeBits, opcodeFor], reservedClear_wordL _ _, rfl⟩

theorem EncodedForm.rxLinkNackFrameId (f : FrameId) : EncodedForm.Statement (.rxLinkNackFrameId f) := fun _ _ =>
  ⟨by simp only [encode, opField_wordL, opcodeOf_opcodeBits, opcodeFor], reservedClear_wordL _ _, rfl⟩

theorem EncodedForm.rxLinkNackFramingError (f : FrameId) : EncodedForm.Statement (.rxLinkNackFramingError f) := fun _ _ =>
  ⟨by simp only [encode, opField_wordL, opcodeOf_opcodeBits, opcodeFor], reservedClear_wordL _ _, rfl⟩

theorem EncodedForm.rxLinkResetReq : EncodedForm.Statement .rxLinkResetReq := fun _ _ =>
  ⟨by simp only [encode, opField_wordL, opcodeOf_opcodeBits, opcodeFor], reservedClear_wordL _ _, rfl⟩

theorem EncodedForm.rxLinkResetRsp : EncodedForm.Statement .rxLinkResetRsp := fun _ _ =>
  ⟨by simp only [encode, opField_wordL, opcodeOf_opcodeBits, opcodeFor], reservedClear_wordL _ _, rfl⟩

theorem EncodedForm.rxLinkResetOther (f : FrameId) : EncodedForm.Statement (.rxLinkResetOther f) := fun _ _ =>
  ⟨by simp only [encode, opField_wordL, opcodeOf_opcodeBits, opcodeFor], reservedClear_wordL _ _, rfl⟩

theorem EncodedForm.rxFramingError : EncodedForm.Statement .rxFramingError := fun _ _ =>
  ⟨by simp only [encode, opField_wordN, opcodeOf_opcodeBits, opcodeFor], reservedClear_wordN _ (.inl rfl), rfl⟩

theorem EncodedForm.resetTxFromEvent : EncodedForm.Statement .resetTxFromEvent := fun _ _ =>
  ⟨by simp only [encode, opField_wordN, opcodeOf_opcodeBits, opcodeFor], reservedClear_wordN _ (.inl rfl), rfl⟩

theorem EncodedForm.serviceInterval : EncodedForm.Statement .serviceInterval := fun _ _ =>
  ⟨by simp only [encode, opField_wordN, opcodeOf_opcodeBits, opcodeFor], reservedClear_wordN _ (.inl rfl), rfl⟩

theorem EncodedForm.finalize : EncodedForm.Statement .finalize := fun _ _ =>
  ⟨by simp only [encode, opField_wordN, opcodeOf_opcodeBits, opcodeFor], reservedClear_wordN _ (.inl rfl), rfl⟩

end Sys2Proof.Laws
end

