-- ==== Sys2Proof/Laws/RxEngine.lean ====
section
/-! SUPPORT. The loops of the RX engine: the gap walk of a future frame (R178) and the catch-up of an expected one (R175), each said once as
one update of the RX unit and the pushes or deliveries it makes; and that the catch-up's bound is never reached (log entry 16). -/

namespace Sys2Proof.Laws

open Sys2Proof Sys2Proof.Machine

/-- A push neither reads nor writes the RX unit. -/
theorem linkPush_withRx (t : LinkType) (f : FrameId) (s : State) (r : RxUnit) :
    linkPush t f { s with rx := r } = { linkPush t f s with rx := r } := by
  by_cases h : s.link.count = s.cfg.txLinkSize
  · rw [linkPush_full t f h, linkPush_full t f (s := { s with rx := r }) h]
  · rw [linkPush_room t f h, linkPush_room t f (s := { s with rx := r }) h]; rfl

theorem pushAll_withRx (l : List (LinkType × FrameId)) : ∀ (s : State) (r : RxUnit),
    pushAll l { s with rx := r } = { pushAll l s with rx := r } := by
  induction l with
  | nil => intro s r; rfl
  | cons w l ih => intro s r; unfold pushAll at *; rw [List.foldl_cons, List.foldl_cons, linkPush_withRx, ih]

/-- The slot of a gap id once it is NACKed. -/
def nackedSlot (s : State) (g : FrameId) : RxSlot := { rxSlot s (rxIndex s g) with state := .nacked, frameId := g }

/-- The ids whose slots are Idle. -/
def idleIds (s : State) (l : List FrameId) : List FrameId := l.filter fun g => decide ((rxSlot s (rxIndex s g)).state = .idle)

/-- Their NACKs, in order. -/
def gapNacks (s : State) (l : List FrameId) : List (LinkType × FrameId) := (idleIds s l).map fun g => (LinkType.nackFrameId, g)

/-- The gap walk over ids with distinct slots: one NACK for each Idle slot, in order, and that slot marked (R178). -/
theorem nackGaps_spec (l : List FrameId) : ∀ s : State,
    (∀ a ∈ l, ∀ b ∈ l, rxIndex s a = rxIndex s b → a = b) → l.Nodup →
    ∃ slots, l.foldl nackGap s = { pushAll (gapNacks s l) s with rx := { s.rx with slots := slots } } ∧
      (∀ g ∈ l, (rxSlot s (rxIndex s g)).state = .idle →
        tableGet RxSlot.zero slots (rxIndex s g) = nackedSlot s g) ∧
      (∀ i, (∀ g ∈ l, (rxSlot s (rxIndex s g)).state = .idle → rxIndex s g ≠ i) →
        tableGet RxSlot.zero slots i = rxSlot s i) := by
  induction l with
  | nil => intro s _ _; exact ⟨s.rx.slots, rfl, by simp, fun i _ => rfl⟩
  | cons g l ih =>
    intro s hinj hnd
    rw [List.foldl_cons]
    have hinj' : ∀ a ∈ l, ∀ b ∈ l, rxIndex s a = rxIndex s b → a = b :=
      fun a ha b hb => hinj a (by simp [ha]) b (by simp [hb])
    have hne : ∀ a ∈ l, rxIndex s a ≠ rxIndex s g := fun a ha e => by
      have := hinj a (by simp [ha]) g (by simp) e
      subst this; exact (List.nodup_cons.mp hnd).1 ha
    by_cases hg : (rxSlot s (rxIndex s g)).state = .idle
    · have e1 : nackGap s g = linkPush .nackFrameId g (setRxSlot (rxIndex s g) (nackedSlot s g) s) := by
        unfold nackGap; dsimp only; rw [if_pos hg]; rfl
      have hix : ∀ a, rxIndex (nackGap s g) a = rxIndex s a := fun a => rxIndex_congr s (nackGap_cfg s g) a
      have hsl : ∀ i, rxSlot (nackGap s g) i = if i = rxIndex s g then nackedSlot s g else rxSlot s i := by
        intro i
        rw [e1, rxSlot_congr (setRxSlot (rxIndex s g) (nackedSlot s g) s) (linkPush_rx _ _ _), rxSlot_setRxSlot]
      have hsl2 : ∀ a ∈ l, rxSlot (nackGap s g) (rxIndex s a) = rxSlot s (rxIndex s a) :=
        fun a ha => by rw [hsl, if_neg (hne a ha)]
      obtain ⟨slots, h1, h2, h3⟩ := ih (nackGap s g) (by simpa only [hix] using hinj') (List.nodup_cons.mp hnd).2
      simp only [hix] at h1 h2 h3
      have hf : idleIds (nackGap s g) l = idleIds s l := by
        apply List.filter_congr; intro a ha; rw [hix, hsl2 a ha]
      unfold gapNacks at h1; rw [hf] at h1
      refine ⟨slots, ?_, ?_, ?_⟩
      · have hcons : gapNacks s (g :: l) = (LinkType.nackFrameId, g) :: gapNacks s l := by
          unfold gapNacks idleIds; rw [List.filter_cons, if_pos (by simp [hg]), List.map_cons]
        have hp : pushAll (gapNacks s (g :: l)) s = pushAll (gapNacks s l) (linkPush .nackFrameId g s) := by rw [hcons]; rfl
        rw [h1, hp]
        have e2 : nackGap s g = { linkPush .nackFrameId g s with rx := (nackGap s g).rx } := by
          rw [e1]; unfold setRxSlot; rw [linkPush_withRx]
        rw [e2, pushAll_withRx]
        have : (nackGap s g).rx.nextId = s.rx.nextId ∧ (nackGap s g).rx.maxId = s.rx.maxId := by rw [e1]; simp
        simp [this, gapNacks]
      · intro a ha hs
        rcases List.mem_cons.mp ha with rfl | ha
        · rw [h3 _ (fun b hb _ => hne b hb), hsl, if_pos rfl]
        · have := h2 a ha (by rw [hsl2 a ha]; exact hs)
          rw [this]; unfold nackedSlot; rw [hix, hsl2 a ha]
      · intro i hi
        have h0 : rxIndex s g ≠ i := hi g (by simp) hg
        rw [h3 i (fun a ha hs => hi a (by simp [ha]) (by rw [← hsl2 a ha]; exact hs)), hsl,
          if_neg (Ne.symm h0)]
    · have e1 : nackGap s g = s := by unfold nackGap; dsimp only; rw [if_neg hg]
      rw [e1]
      obtain ⟨slots, h1, h2, h3⟩ := ih s hinj' (List.nodup_cons.mp hnd).2
      refine ⟨slots, ?_, ?_, ?_⟩
      · rw [h1]; unfold gapNacks idleIds; rw [List.filter_cons, if_neg (by simp [hg])]
      · intro a ha hs
        rcases List.mem_cons.mp ha with rfl | ha
        · exact absurd hs hg
        · exact h2 a ha hs
      · intro i hi; exact h3 i (fun a ha => hi a (by simp [ha]))

/-- A delivery whose handler is not wired (R175, D37). -/
theorem deliver_unwired (m : Metadata) (p : List Byte) (s : State) (h : s.port.handlers = []) :
    deliver m p s =
      { s with
        out := s.out ++ [.upRecv m p]
        stats := { s.stats with rxMsgBytes := s.stats.rxMsgBytes + BitVec.ofNat 64 p.length,
                                rxDataFrames := s.stats.rxDataFrames + 1 } } := by
  unfold deliver upRecv
  rw [callback_unwired _ _ (by exact h)]; rfl

/-- The slot of the id `k` places after the one that is due. -/
def heldSlot (s : State) (k : Nat) : RxSlot := rxSlot s (rxIndex s (s.rx.nextId + BitVec.ofNat 11 k))

/-- What the catch-up over `n` stored frames delivers, in order. -/
def heldOutputs (s : State) (n : Nat) : List Output :=
  (List.range n).map fun k => .upRecv (heldSlot s k).metadata (memRead (heldSlot s k).payload (heldSlot s k).len.toNat)

/-- The payload bytes it delivers. -/
def heldBytes (s : State) (n : Nat) : Nat := ((List.range n).map fun k => (heldSlot s k).len.toNat).sum

/-- The catch-up over `n` stored frames and no more, with no handler wired (R175). -/
theorem catchUpFrom_spec (n : Nat) : ∀ (fuel : Nat) (last : FrameId) (s : State), s.port.handlers = [] → n < fuel →
    (∀ k, k < n → (heldSlot s k).state = .stored ∧ (heldSlot s k).frameId = s.rx.nextId + BitVec.ofNat 11 k) →
    (∀ j k, j < k → k < n → rxIndex s (s.rx.nextId + BitVec.ofNat 11 j) ≠ rxIndex s (s.rx.nextId + BitVec.ofNat 11 k)) →
    ((∀ k, k < n → rxIndex s (s.rx.nextId + BitVec.ofNat 11 k) ≠ rxIndex s (s.rx.nextId + BitVec.ofNat 11 n)) →
      ¬ ((heldSlot s n).state = .stored ∧ (heldSlot s n).frameId = s.rx.nextId + BitVec.ofNat 11 n)) →
    ∃ slots : List (Nat × RxSlot),
      catchUpFrom fuel last s =
        linkPush .ackAll (if n = 0 then last else s.rx.nextId + BitVec.ofNat 11 (n - 1))
          { s with
            rx := { s.rx with nextId := s.rx.nextId + BitVec.ofNat 11 n, slots := slots }
            stats := { s.stats with rxMsgBytes := s.stats.rxMsgBytes + BitVec.ofNat 64 (heldBytes s n),
                                    rxDataFrames := s.stats.rxDataFrames + BitVec.ofNat 64 n }
            out := s.out ++ heldOutputs s n } ∧
      ∀ i, tableGet RxSlot.zero slots i =
        if ∃ k, k < n ∧ rxIndex s (s.rx.nextId + BitVec.ofNat 11 k) = i then { rxSlot s i with state := .idle }
        else rxSlot s i := by
  induction n with
  | zero =>
    intro fuel last s hh hf _ _ hend
    obtain ⟨fuel, rfl⟩ : ∃ k, fuel = k + 1 := ⟨fuel - 1, by omega⟩
    have := hend (by intro k hk; omega)
    have hns : rxNextStored s = false := by
      rw [← Bool.not_eq_true]
      intro hs
      unfold rxNextStored at hs
      rw [Bool.and_eq_true] at hs
      apply this
      unfold heldSlot
      simp only [BitVec.add_zero]
      exact ⟨of_decide_eq_true hs.1, of_decide_eq_true hs.2⟩
    refine ⟨s.rx.slots, ?_, fun i => by simp; rfl⟩
    unfold catchUpFrom; rw [hns]; simp [heldOutputs, heldBytes]
  | succ n ih =>
    intro fuel last s hh hf hst hdist hend
    obtain ⟨fuel, rfl⟩ : ∃ k, fuel = k + 1 := ⟨fuel - 1, by omega⟩
    have hns : rxNextStored s = true := by
      have := hst 0 (by omega)
      unfold heldSlot at this; simp only [BitVec.add_zero] at this
      unfold rxNextStored
      rw [Bool.and_eq_true]; exact ⟨decide_eq_true this.1, decide_eq_true this.2⟩
    unfold catchUpFrom; rw [if_pos hns]; dsimp only
    rw [deliver_unwired _ _ _ hh]
    dsimp only
    rw [if_neg (by simp)]
    set i0 := rxIndex s s.rx.nextId with hi0
    set t : State :=
      { s with
        out := s.out ++ [.upRecv (rxSlot s i0).metadata (memRead (rxSlot s i0).payload (rxSlot s i0).len.toNat)]
        stats := { s.stats with
          rxMsgBytes := s.stats.rxMsgBytes + BitVec.ofNat 64 (memRead (rxSlot s i0).payload (rxSlot s i0).len.toNat).length
          rxDataFrames := s.stats.rxDataFrames + 1 } } with ht
    set u : State := { (setRxSlot i0 { rxSlot t i0 with state := .idle } t) with rx := { (setRxSlot i0 { rxSlot t i0 with state :=
        .idle } t).rx with nextId := idInc (setRxSlot i0 { rxSlot t i0 with state := .idle } t).rx.nextId } } with hu
    have hun : u.rx.nextId = idInc s.rx.nextId := rfl
    have hadd : ∀ k, u.rx.nextId + BitVec.ofNat 11 k = s.rx.nextId + BitVec.ofNat 11 (k+1) := by
      intro k; rw [hun, idInc_eq, add_ofNat_add, Nat.add_comm]
    have hix : ∀ g, rxIndex u g = rxIndex s g := fun _ => rfl
    have h0 : rxIndex s (s.rx.nextId + BitVec.ofNat 11 0) = i0 := by simp [hi0]
    have hsl : ∀ i, rxSlot u i = if i = i0 then { rxSlot s i0 with state := .idle } else rxSlot s i := by
      intro i
      have : rxSlot u i = rxSlot (setRxSlot i0 { rxSlot t i0 with state := .idle } t) i := rfl
      rw [this, rxSlot_setRxSlot]; rfl
    have hheld : ∀ k, k < n → heldSlot u k = heldSlot s (k+1) := by
      intro k hk
      unfold heldSlot; rw [hadd, hix, hsl, if_neg]
      have := hdist 0 (k+1) (by omega) (by omega)
      rw [h0] at this; exact this.symm
    obtain ⟨slots, e1, e2⟩ := ih fuel s.rx.nextId u hh (by omega) (by
        intro k hk; rw [hheld k hk, hadd]; exact hst (k+1) (by omega)) (by
        intro j k hj hk; simp only [hadd, hix]; exact hdist _ _ (by omega) (by omega)) (by
        intro hne hs
        simp only [hadd, hix] at hne hs
        unfold heldSlot at hs
        rw [hadd, hix, hsl] at hs
        by_cases hz : rxIndex s (s.rx.nextId + BitVec.ofNat 11 (n+1)) = i0
        · rw [if_pos hz] at hs; simp at hs
        · rw [if_neg hz] at hs
          refine hend ?_ hs
          intro k hk
          cases k with
          | zero => rw [h0]; exact fun e => hz e.symm
          | succ k => exact hne k (by omega))
    refine ⟨slots, ?_, ?_⟩
    · show catchUpFrom fuel s.rx.nextId u = _
      rw [e1]
      have hlast : (if n = 0 then s.rx.nextId else u.rx.nextId + BitVec.ofNat 11 (n-1)) = (if n + 1 =
          0 then last else s.rx.nextId + BitVec.ofNat 11 (n + 1 - 1)) := by
        rw [if_neg (show ¬ n + 1 = 0 by omega), hadd]
        split
        · rename_i h; subst h; simp
        · rename_i h; rw [show n - 1 + 1 = n + 1 - 1 by omega]
      rw [hlast]
      congr 1
      have h0h : heldSlot s 0 = rxSlot s i0 := by unfold heldSlot; rw [h0]
      have hmap : ∀ {α : Type} (g : RxSlot → α), (List.range (n+1)).map (fun k => g (heldSlot s k)) =
          g (rxSlot s i0) :: (List.range n).map fun k => g (heldSlot u k) := by
        intro α g
        rw [List.range_succ_eq_map, List.map_cons, h0h, List.map_map]
        congr 1
        apply List.map_congr_left
        intro k hk
        rw [List.mem_range] at hk
        rw [hheld k hk]; rfl
      unfold heldOutputs heldBytes
      rw [hmap (fun x => x.len.toNat), hmap (fun x => Output.upRecv x.metadata (memRead x.payload x.len.toNat)), List.sum_cons]
      rw [hu, ht]
      dsimp only [setRxSlot_stats, setRxSlot_out, setRxSlot_rx, setRxSlot]
      rw [← hun, ← hadd]
      congr 1
      · simp
      · rw [memRead_length]
        congr 1
        · rw [BitVec.add_assoc]; congr 1
          apply BitVec.eq_of_toNat_eq; simp
        · rw [BitVec.add_assoc]; congr 1
          apply BitVec.eq_of_toNat_eq; simp; omega
    · intro i
      rw [e2]; simp only [hadd, hix, hsl]
      by_cases hz : i = i0
      · have : ∃ k, k < n + 1 ∧ rxIndex s (s.rx.nextId + BitVec.ofNat 11 k) = i := ⟨0, by omega, by rw [h0, hz]⟩
        rw [if_pos this, if_pos hz, hz]; split <;> rfl
      · rw [if_neg hz]
        have : (∃ k, k < n + 1 ∧ rxIndex s (s.rx.nextId + BitVec.ofNat 11 k) = i) ↔ ∃ k, k < n ∧
            rxIndex s (s.rx.nextId + BitVec.ofNat 11 (k+1)) = i := by
          constructor
          · rintro ⟨k, hk, e⟩
            cases k with
            | zero => rw [h0] at e; exact absurd e.symm hz
            | succ k => exact ⟨k, by omega, e⟩
          · rintro ⟨k, hk, e⟩; exact ⟨k+1, by omega, e⟩
        simp only [this]

/-! ### The catch-up's bound is never reached -/

/-- How many slots of the window hold a received frame. -/
def storedCount (s : State) (w : Nat) : Nat := (List.range w).countP fun i => decide ((rxSlot s i).state = .stored)

theorem storedCount_le (s : State) (w : Nat) : storedCount s w ≤ w :=
  List.countP_le_length.trans (by rw [List.length_range])

/-- One stored slot emptied and none filled makes fewer. -/
theorem storedCount_lt (s u : State) (w i : Nat) (hi : i < w) (h1 : (rxSlot s i).state = .stored)
    (h2 : (rxSlot u i).state ≠ .stored) (h : ∀ j, (rxSlot u j).state = .stored → (rxSlot s j).state = .stored) :
    storedCount u w < storedCount s w := by
  have mono (l : List Nat) : l.countP (fun j => decide ((rxSlot u j).state = .stored)) ≤
      l.countP fun j => decide ((rxSlot s j).state = .stored) :=
    List.countP_mono_left fun j _ hj => by simpa using h j (by simpa using hj)
  induction w with
  | zero => omega
  | succ w ih =>
    unfold storedCount at *
    rw [List.range_succ, List.countP_append, List.countP_append]
    by_cases hw : i < w
    · have := ih hw; have := mono [w]; omega
    · obtain rfl : i = w := by omega
      have := mono (List.range i)
      simp [h1, h2]; omega

theorem rxNextStored_iff (s : State) : rxNextStored s = true ↔
    (rxSlot s (rxIndex s s.rx.nextId)).state = .stored ∧ (rxSlot s (rxIndex s s.rx.nextId)).frameId = s.rx.nextId := by
  unfold rxNextStored; dsimp only; rw [Bool.and_eq_true]; exact and_congr decide_eq_true_iff decide_eq_true_iff

/-- Two bounds above the number of held frames make no difference, whatever the handlers do: a delivery empties a slot and no handler
fills one. -/
theorem catchUpFrom_bound (w : Nat) (hp : 0 < w) : ∀ (a b : Nat) (last : FrameId) (s : State), s.cfg.rxWindowSize.toNat = w →
    storedCount s w < a → storedCount s w < b → catchUpFrom a last s = catchUpFrom b last s := by
  intro a
  induction a with
  | zero => intro b last s _ h; omega
  | succ a ih =>
    intro b last s hw ha hb
    obtain ⟨b, rfl⟩ : ∃ k, b = k + 1 := ⟨b - 1, by omega⟩
    unfold catchUpFrom
    split
    · rename_i hs
      dsimp only
      split
      · rfl
      · set i := rxIndex s s.rx.nextId
        set t := deliver _ _ s with ht
        have hst := ((rxNextStored_iff s).mp hs).1
        have hsafe : RxSafe s t := rxSafe_deliver _ _ _
        have hi : i < w := by
          show slotIndex _ _ < w
          unfold slotIndex; rw [hw]; exact Nat.mod_lt _ hp
        apply ih
        · show t.cfg.rxWindowSize.toNat = w
          rw [(same_deliver s _ _).cfg]; exact hw
        all_goals
          refine lt_of_lt_of_le (storedCount_lt s _ w i hi hst ?_ ?_) (by omega)
          · show (rxSlot (setRxSlot i _ t) i).state ≠ .stored
            rw [rxSlot_setRxSlot, if_pos rfl]; simp
          · intro j
            show (rxSlot (setRxSlot i _ t) j).state = .stored → _
            rw [rxSlot_setRxSlot]
            split
            · intro h; cases h
            · rcases hsafe with h | h
              · rw [rxSlot_congr _ h]; exact id
              · intro x; rw [h] at x; cases x
    · rfl

end Sys2Proof.Laws
end

