-- ==== Sys2Proof/Laws/Step.lean ====
section
/-! SUPPORT. What one step can be: nothing, an operation on the latched state that keeps the frame, or one command's meaning. -/

namespace Sys2Proof.Laws

open Sys2Proof Sys2Proof.Machine

theorem isInit_iff (i : Instr) : isInit i = true ↔ ∃ c, i = .init c := by
  cases i <;> simp [isInit]

theorem mayNest_iff (i : Instr) :
    mayNest i = true ↔ (∃ t m p, i = .send t m p) ∨ (∃ n, i = .txWindowSet n) ∨ i = .statusGet ∨ i = .statusClear ∨
      i = .resetTxFromEvent ∨ i = .serviceInterval := by
  cases i <;> simp [mayNest]

/-- A refused command is refused, whatever its meaning (R305). -/
theorem exec_refused (i : Instr) (s : State) (r : RefuseReason) (h : refusalOf i s = some r) :
    exec i s = .next (refuse r s) := by
  cases i
  case init c => show execInit c s = _; unfold execInit; rw [h]
  all_goals exact congrArg Host.Outcome.next (accept_of_some _ h)

/-- No input stops the block: every step answers a next state. -/
theorem exec_next (i : Instr) (s : State) : ∃ t, exec i s = .next t :=
  (frame_exec i s).imp fun _ h => h.1

/-- What a step answers: nothing happens on an empty port; a command's word is refused or runs as `exec`; an attempt is a turn of the caller's
blocking SEND. -/
theorem step_frame (s t : State) (h : step s = .next t) :
    (s.inq = [] ∧ t = s) ∨ ∃ x rest, s.inq = x :: rest ∧
      (Same (latch x.env rest s) t ∨ ∃ i, CommandFrame i (latch x.env rest s) t ∧ exec i (latch x.env rest s) = .next t) := by
  unfold step at h
  split at h
  · rename_i h0; cases h; exact .inl ⟨h0, rfl⟩
  · rename_i x rest hq
    refine .inr ⟨x, rest, hq, ?_⟩
    unfold runInput at h
    split at h
    · unfold runWord at h
      split at h
      · cases h; exact .inl (same_refuse _ _)
      · rename_i i _
        obtain ⟨t', h1, h2⟩ := frame_exec i (latch ‹_› ‹_› s)
        rw [h1] at h; cases h; exact .inr ⟨_, h2, h1⟩
    · cases h; exact .inl (same_resumeSend _)

/-- Every step answers a next state. -/
theorem step_next (s : State) : ∃ t, step s = .next t := by
  unfold step
  split
  · exact ⟨_, rfl⟩
  · unfold runInput; split
    · unfold runWord; split
      · exact ⟨_, rfl⟩
      · exact exec_next _ _
    · exact ⟨_, rfl⟩

end Sys2Proof.Laws
end

