-- ==== Sys2Proof/Laws/TxEngine.lean ====
section
/-! SUPPORT. The retirement loops of the TX engine (R144, R148), each said once as one update of the TX unit. -/

namespace Sys2Proof.Laws

open Sys2Proof Sys2Proof.Machine

/-- Retiring `k` frames of the window moves the window's start by `k` and makes exactly their slots Idle (R144). -/
theorem retireMany_spec (k : Nat) : ∀ s : State, CfgInv s → TxCountInv s → TxInv s → (k : Int) ≤ txOutstanding s.tx →
    ∃ slots, retireMany k s = { s with tx := { s.tx with lastId := s.tx.lastId + BitVec.ofNat 11 k, slots := slots }, stats := { s.stats with txDataFrames := s.stats.txDataFrames + BitVec.ofNat 64 k } } ∧
      ∀ i, tableGet TxSlot.zero slots i =
          if ∃ j, j < k ∧ txIndex s (s.tx.lastId + BitVec.ofNat 11 j) = i then
            { txSlot s i with state := .idle, sendCount := 0 }
          else txSlot s i := by
  induction k with
  | zero => intro s _ _ _ _; exact ⟨s.tx.slots, by simp [retireMany], fun i => by simp; rfl⟩
  | succ k ih =>
    intro s hc hn hi ho
    push_cast at ho
    have h1 : 0 < txOutstanding s.tx := by omega
    have k1 := keeps_retireHead s h1
    obtain ⟨a, b⟩ := k1.tx hc ⟨hn, hi⟩
    obtain ⟨slots, e1, e2⟩ := ih (retireHead s) (cfgInv_congr k1.cfg k1.par hc) a b (by rw [retireHead_outstanding s h1]; omega)
    refine ⟨slots, ?_, fun i => ?_⟩
    · show retireMany k (retireHead s) = _
      rw [e1]
      unfold retireHead setTxSlot idInc; dsimp only
      congr 1
      · congr 1
        rw [BitVec.add_assoc]; congr 1
        apply BitVec.eq_of_toNat_eq; simp; omega
      · congr 1
        rw [BitVec.add_assoc]; congr 1
        apply BitVec.eq_of_toNat_eq; simp; omega
    · rw [e2]
      have hslot : txSlot (retireHead s) i = if i = txIndex s s.tx.lastId then { txSlot s (txIndex s s.tx.lastId) with state := .idle, sendCount := 0 } else txSlot s i := by simp [txSlot]
      have hix : ∀ j, txIndex (retireHead s) ((retireHead s).tx.lastId + BitVec.ofNat 11 j) = txIndex s (s.tx.lastId + BitVec.ofNat 11 (j+1)) := by
        intro j
        show slotIndex (idInc s.tx.lastId + _) s.tx.count = slotIndex _ _
        rw [idInc_eq, add_ofNat_add, Nat.add_comm]
      simp only [hix, hslot]
      by_cases hz : i = txIndex s s.tx.lastId
      · rw [if_pos hz]
        have : (∃ j, j < k + 1 ∧ txIndex s (s.tx.lastId + BitVec.ofNat 11 j) = i) := ⟨0, by omega, by simpa using hz.symm⟩
        rw [if_pos this, ← hz]
        split <;> rfl
      · rw [if_neg hz]
        have : (∃ j, j < k + 1 ∧ txIndex s (s.tx.lastId + BitVec.ofNat 11 j) = i) ↔ ∃ j, j < k ∧ txIndex s (s.tx.lastId + BitVec.ofNat 11 (j+1)) = i := by
          constructor
          · rintro ⟨j, hj, e⟩
            cases j with
            | zero => exact absurd (by simpa using e.symm) hz
            | succ j => exact ⟨j, by omega, e⟩
          · rintro ⟨j, hj, e⟩; exact ⟨j+1, by omega, e⟩
        simp only [this]

/-- The catch-up of ACK_ALL retires the Acked frames at the head of the window, up to the first that is not (R148). -/
theorem retireAcked_spec (fuel : Nat) : ∀ s : State, CfgInv s → TxCountInv s → TxInv s → txOutstanding s.tx ≤ fuel → 
    ∃ n : Nat, retireAcked fuel s = retireMany n s ∧ (n : Int) ≤ txOutstanding s.tx ∧
      (∀ j : Nat, j < n → (txSlot s (txIndex s (s.tx.lastId + BitVec.ofNat 11 j))).state = .acked) ∧
      ((n : Int) < txOutstanding s.tx → (txSlot s (txIndex s (s.tx.lastId + BitVec.ofNat 11 n))).state ≠ .acked) := by
  induction fuel with
  | zero => intro s hc hn hi ho; exact ⟨0, rfl, hi.1.1, by simp, fun h => by push_cast at h ho; omega⟩
  | succ fuel ih =>
    intro s hc hn hi ho
    unfold retireAcked
    split
    · rename_i h
      have k1 := keeps_retireHead s h.1
      obtain ⟨a, b⟩ := k1.tx hc ⟨hn, hi⟩
      have hout := retireHead_outstanding s h.1
      obtain ⟨n, e1, e2, e3, e4⟩ := ih (retireHead s) (cfgInv_congr k1.cfg k1.par hc) a b (by rw [hout]; push_cast at ho; omega)
      have hslot : ∀ i, txSlot (retireHead s) i = if i = txIndex s s.tx.lastId then { txSlot s (txIndex s s.tx.lastId) with state := .idle, sendCount := 0 } else txSlot s i := by intro i; simp [txSlot]
      have hix : ∀ j, txIndex (retireHead s) ((retireHead s).tx.lastId + BitVec.ofNat 11 j) = txIndex s (s.tx.lastId + BitVec.ofNat 11 (j+1)) := by
        intro j
        show slotIndex (idInc s.tx.lastId + _) s.tx.count = slotIndex _ _
        rw [idInc_eq, add_ofNat_add, Nat.add_comm]
      have hne : ∀ j : Nat, ((j:Int)+1) < txOutstanding s.tx → txIndex s (s.tx.lastId + BitVec.ofNat 11 (j+1)) ≠ txIndex s s.tx.lastId := by
        intro j hj e
        have := txIndex_window_inj hn (le_trans hi.1.2 (min_le_left _ _)) (i := j+1) (j := 0) (by push_cast; omega) (by simpa using h.1) (by rw [e]; simp)
        omega
      simp only [hix, hslot] at e3 e4
      rw [hout] at e2 e4
      refine ⟨n + 1, e1, by push_cast; omega, ?_, ?_⟩
      · intro j hj
        cases j with
        | zero => simpa using h.2
        | succ j =>
          have := e3 j (by omega)
          rwa [if_neg (hne j (by omega))] at this
      · intro hlt
        push_cast at hlt
        have := e4 (by omega)
        rwa [if_neg (hne n hlt)] at this
    · rename_i h
      refine ⟨0, rfl, hi.1.1, by simp, fun hlt => ?_⟩
      intro hs
      exact h ⟨by simpa using hlt, by simpa using hs⟩

theorem retireMany_add (a : Nat) : ∀ (b : Nat) (s : State), retireMany b (retireMany a s) = retireMany (a + b) s := by
  induction a with
  | zero => intro b s; simp [retireMany]
  | succ a ih => intro b s; rw [Nat.succ_add]; exact ih b (retireHead s)

end Sys2Proof.Laws
end

