-- ==== Sys2Proof/Tests/Slice0.lean ====
section
/-! SUPPORT. Tests on fixed values: ill-formed instructions are refused by the well-formedness check; every constructor's word, written out
from the formats of R83 to R89, decodes to it; single steps against the vectors of 95_test_vectors.md; and, for each statement with
hypotheses, a state that meets them. -/

namespace Sys2Proof.Tests

open Sys2Proof Sys2Proof.Machine

-- One theorem after another: hundreds of small kernel checks at once would take a thread, with its stack, each.
set_option Elab.async false

/-! ### Well-formedness: one ill-formed term for each check -/

theorem test_wf_send_too_long (a : BitVec 28) (m : Metadata) :
    (Instr.send a m (List.replicate 65536 0)).wellFormed LinkCodes.default = false := by
  simp only [Instr.wellFormed, List.length_replicate, decide_eq_false_iff_not]; omega

theorem test_wf_rxData_too_long (f : FrameId) (m : Metadata) :
    (Instr.rxData f m (List.replicate 65536 0)).wellFormed LinkCodes.default = false := by
  simp only [Instr.wellFormed, List.length_replicate, decide_eq_false_iff_not]; omega

theorem test_wf_llRecv_too_long : (Instr.llRecv (List.replicate 4294967296 0)).wellFormed LinkCodes.default = false := by
  simp only [Instr.wellFormed, List.length_replicate, decide_eq_false_iff_not]; omega

theorem test_wf_rxLink_known_type : (Instr.rxLink 0x0F 3).wellFormed LinkCodes.default = false := by decide

theorem test_wf_reset_other_request : (Instr.rxLinkResetOther 0).wellFormed LinkCodes.default = false := by decide

theorem test_wf_reset_other_response : (Instr.rxLinkResetOther 1).wellFormed LinkCodes.default = false := by decide

/-! ### Decoding: words written out from the formats of R83 to R89 and the opcodes of R81 -/

/-- `INIT tx=8 rx=6 link=0 buf=272 tmo=1000` (vector I1): the record crosses the port as values (R64, R86). -/
theorem test_decode_init :
    decode LinkCodes.default 0x1000000000000000 (.record ⟨8, 6, 0, 272, 1000⟩) = .ok (.init ⟨8, 6, 0, 272, 1000⟩) := by decide

theorem test_decode_send : decode LinkCodes.default 0x2FFFFFFF0003BEEF (.bytes [1, 2, 3]) = .ok (.send (-1) 0xBEEF [1, 2, 3]) := by decide

theorem test_decode_txWindowSet : decode LinkCodes.default 0x3000000080000001 (.bytes []) = .ok (.txWindowSet 0x80000001) := by decide

theorem test_decode_process : decode LinkCodes.default 0x4000000000000000 (.bytes []) = .ok .process := by decide

theorem test_decode_llRecv : decode LinkCodes.default 0x5000000000000002 (.bytes [0x55, 9]) = .ok (.llRecv [0x55, 9]) := by decide

theorem test_decode_statusGet : decode LinkCodes.default 0x6000000000000000 (.bytes []) = .ok .statusGet := by decide

theorem test_decode_statusClear : decode LinkCodes.default 0x7000000000000000 (.bytes []) = .ok .statusClear := by decide

theorem test_decode_rxData : decode LinkCodes.default 0x800007FE0002ABCD (.bytes [7, 8]) = .ok (.rxData 0x7FE 0xABCD [7, 8]) := by decide

theorem test_decode_rxLink : decode LinkCodes.default 0x9000040000100000 (.bytes []) = .ok (.rxLink 0x10 0x400) := by decide

theorem test_decode_ackAll : decode LinkCodes.default 0x900007FF000F0000 (.bytes []) = .ok (.rxLinkAckAll 0x7FF) := by decide

theorem test_decode_ackOne : decode LinkCodes.default 0x9000000100170000 (.bytes []) = .ok (.rxLinkAckOne 1) := by decide

theorem test_decode_nackFrameId : decode LinkCodes.default 0x90000001001B0000 (.bytes []) = .ok (.rxLinkNackFrameId 1) := by decide

theorem test_decode_nackFramingError : decode LinkCodes.default 0x90000002001D0000 (.bytes []) = .ok (.rxLinkNackFramingError 2) := by decide

theorem test_decode_resetReq : decode LinkCodes.default 0x90000000001E0000 (.bytes []) = .ok .rxLinkResetReq := by decide

theorem test_decode_resetRsp : decode LinkCodes.default 0x90000001001E0000 (.bytes []) = .ok .rxLinkResetRsp := by decide

theorem test_decode_resetOther : decode LinkCodes.default 0x90000002001E0000 (.bytes []) = .ok (.rxLinkResetOther 2) := by decide

theorem test_decode_rxFramingError : decode LinkCodes.default 0xA000000000000000 (.bytes []) = .ok .rxFramingError := by decide

theorem test_decode_resetTxFromEvent : decode LinkCodes.default 0xB000000000000000 (.bytes []) = .ok .resetTxFromEvent := by decide

theorem test_decode_serviceInterval : decode LinkCodes.default 0xC000000000000000 (.bytes []) = .ok .serviceInterval := by decide

theorem test_decode_finalize : decode LinkCodes.default 0xD000000000000000 (.bytes []) = .ok .finalize := by decide

/-- R91: reserved opcodes, a reserved bit, a wrong operand length; and, with log entry 14, an operand of the wrong kind. -/
theorem test_decode_refusals :
    decode LinkCodes.default 0 (.bytes []) = .error .reservedOpcode ∧ decode LinkCodes.default 0xE000000000000000 (.bytes []) = .error .reservedOpcode ∧
    decode LinkCodes.default 0xF000000000000000 (.bytes []) = .error .reservedOpcode ∧
    decode LinkCodes.default 0x4000000000000001 (.bytes []) = .error .reservedField ∧
    decode LinkCodes.default 0x90000001001E0001 (.bytes []) = .error .reservedField ∧
    decode LinkCodes.default 0x8000080000000000 (.bytes []) = .error .reservedField ∧
    decode LinkCodes.default 0x8000000000020000 (.bytes [1]) = .error .operandLength ∧
    decode LinkCodes.default 0x1000000000000000 (.bytes []) = .error .operandLength ∧
    decode LinkCodes.default 0x4000000000000000 (.record CfgRecord.zero) = .error .operandLength := by decide

/-- Rows of opcode_table.json through the table's own numbering. -/
theorem test_table_words :
    decodeTableWord 64 0x4000000000000000 = some .process ∧ decodeTableWord 64 0x9000000000000000 = some (.rxLink 0 0) ∧
    decodeTableWord 64 0x2000000000020007 = some (.send 0 7 [0, 0]) ∧ decodeTableWord 64 0xE000000000000000 = none := by decide

/-- A table's word is the first instruction after reset: the block refuses PROCESS there (vector R5v), INIT it runs (vector I2). -/
theorem test_first_instruction :
    (∃ t, step (State.reset.withFetchWord 64 0x4000000000000000) = .next t ∧ t.fault = 8 ∧ t.inq = []) ∧
    (∃ t, step (State.reset.withFetchWord 64 0x1000000000000000) = .next t ∧ t.fault = 0 ∧ t.out = [.status .parameterInvalid]) :=
  ⟨⟨_, rfl, by decide, rfl⟩, ⟨_, rfl, by decide, by decide⟩⟩

/-! ### Test states (95_test_vectors.md, section 0) -/

/-- A stand-in for the encoded link frame of a type and an id. -/
def linkFrame (k f : Byte) : LinkBytes := ⟨0x55, k, f, 0, 0, 0, 0, 0x99⟩

/-- The framer calls that the tests make. -/
def testFramer : FramerTables where
  dataEncode := [((0, 1, [1]), [0xD0, 1]), ((0x7FF, 0, [1]), [0xDF, 1])]
  linkEncode := [((.reset, 0), linkFrame 5 0), ((.reset, 1), linkFrame 5 1), ((.ackAll, 0), linkFrame 1 0), ((.ackAll, 1), linkFrame 1 1),
    ((.ackAll, 3), linkFrame 1 3), ((.ackAll, 0x7FF), linkFrame 1 0xFF), ((.nackFrameId, 0), linkFrame 3 0),
    ((.nackFrameId, 1), linkFrame 3 1), ((.nackFrameId, 8), linkFrame 3 8), ((.ackOne, 2), linkFrame 2 2), ((.nackFramingError, 0),
        linkFrame 4 0)]
  parse := [((0, [0x55]), (1, [.link 0x0F 0])), ((0, [0x56]), (2, [.framingError])), ((0, [0x57]), (3, [.data 0 1 [1]])),
    ((0, [0x58]), (4, [.link 0x1E 1])), ((0, []), (0, []))]
  status := [(0, ⟨11, 12, 13⟩), (9, ⟨0, 0, 0⟩)]
  statusClear := [(0, 9)]

/-- The parameters of the vectors: `MIN_INTERVAL = 10`. -/
def testPar : Params := { minInterval := 10, framer := testFramer }

/-- S8: Connected, windows of 8, nothing outstanding, at time 10, with driver space 64. -/
def s8 : State :=
  { State.reset with
    par := testPar, life := .active, cfg := ⟨8, 8, 8, 272, 1000⟩, conn := ⟨.connected, false, 0⟩, tx := ⟨0, 0, 8, []⟩,
    tickAt := 16000, ctx := ⟨false, 0, 1, 10⟩, port := ⟨10, 0, [64, 64, 64], [], 0⟩ }

/-- S8 at a later time. -/
def s8At (now : Time) : State := { s8 with port := { s8.port with now := now } }

/-- S8 with a TX unit of its own. -/
def s8Tx (now : Time) (tx : TxUnit) : State := { s8At now with tx := tx }

/-- S8 with an RX unit of its own. -/
def s8Rx (rx : RxUnit) : State := { s8 with rx := rx }

/-- S0: Disconnected, the first RESET request queued. -/
def s0 : State :=
  { s8 with conn := ⟨.disconnected, false, 0⟩, tx := ⟨0, 0, 1, []⟩, tickAt := 0, ctx := ⟨false, 0, 1, 0⟩, port := ⟨0, 0, [64, 64, 64],
      [], 0⟩,
            link := ⟨[(0, packWord (linkFrame 5 0))], 0, 1, 0⟩ }

/-- A sent frame of two bytes. -/
def sentSlot (at' : Time) (n : BitVec 8) : TxSlot := ⟨.sent, n, at', 2, [(0, 0xD0), (1, 1)]⟩

/-- A stored frame of one byte. -/
def storedSlot (f : FrameId) : RxSlot := ⟨.stored, f, 5, 1, [(0, 0x11)]⟩

/-- A block in use: frame 0 Sent, frame 1 PendingSend, received frame 2 held and its gaps NACKed, one word queued. -/
def busy : State :=
  { s8Tx 20 ⟨0, 2, 8, [(0, sentSlot 10 1), (1, ⟨.pendingSend, 0, 0, 2, [(0, 0xD1), (1, 1)]⟩)]⟩ with
    rx := ⟨0, 2, [(0, ⟨.nacked, 0, 0, 0, []⟩), (1, ⟨.nacked, 1, 0, 0, []⟩), (2, storedSlot 2)]⟩
    link := ⟨[(3, packWord (linkFrame 2 2))], 3, 1, 0⟩
    eofPending := true
    inq := [.command 0x4000000000000000 (.bytes []) ⟨20, 0, [64, 64, 64], []⟩] }

/-- What a step answers, where it answers a next state. -/
def after (o : Host.Outcome State Fault Refusal) : State :=
  match o with
  | .next t => t
  | .refused _ => State.reset

/-! ### Single steps, against the vectors -/

/-- I1, with R252 (a). -/
theorem test_init :
    let t := after (exec (.init ⟨8, 6, 0, 272, 1000⟩) { State.reset with par := testPar })
    t.cfg = ⟨8, 8, 8, 272, 1000⟩ ∧ t.link.count = 1 ∧ t.tx.count = 1 ∧ t.ctx.resetEpoch = 1 ∧ t.out = [.status .success] := by
  decide +kernel

/-- I7: `tmo = 2^58` is accepted, one more is not. -/
theorem test_init_timeout :
    (after (exec (.init ⟨8, 8, 0, 272, 0x400000000000000⟩) { State.reset with par := testPar })).life = .active ∧
    (after (exec (.init ⟨8, 8, 0, 272, 0x400000000000001⟩) { State.reset with par := testPar })).life = .uninit := by decide +kernel

/-- S2. -/
theorem test_send :
    let t := after (exec (.send 0 1 [1]) s8)
    txSlot t 0 = ⟨.pendingSend, 0, 0, 2, [(0, 0xD0), (1, 1)]⟩ ∧ t.tx.nextId = 1 ∧ t.tickAt = 10 ∧ t.out = [.wake, .status .success] := by
  decide +kernel

/-- S9: the id wraps and slot 7 is used. -/
theorem test_send_wraps :
    let t := after (exec (.send 0 0 [1]) (s8Tx 10 ⟨2047, 2047, 8, []⟩))
    t.tx.nextId = 0 ∧ (txSlot t 7).state = .pendingSend ∧ t.conn.activity = true := by decide +kernel

/-- W7: the frame in flight moves from slot 0 to slot 1. -/
theorem test_txWindowSet_moves :
    let t := after (exec (.txWindowSet 8) (s8Tx 50 ⟨9, 10, 1, [(0, sentSlot 40 1)]⟩))
    t.tx.count = 8 ∧ txSlot t 1 = sentSlot 40 1 ∧ (txSlot t 0).state = .idle ∧ (txSlot t 0).sendCount = 0 := by decide +kernel

/-- W4: 3 is rounded up to 4. -/
theorem test_txWindowSet_rounds : (after (exec (.txWindowSet 3) (s8Tx 10 ⟨0, 0, 1, []⟩))).tx.count = 4 := by decide +kernel

/-- P1v: one tick too early. -/
theorem test_process_not_due :
    let t := after (exec .process (s8Tx 999 ⟨0, 1, 8, [(0, sentSlot 0 1)]⟩))
    t.out = [.status .success] ∧ t.tickAt = 1009 := by decide +kernel

/-- P2v: due at equality; the frame is sent again, then the marker. -/
theorem test_process_resends :
    let t := after (exec .process (s8Tx 1000 ⟨0, 1, 8, [(0, sentSlot 0 1)]⟩))
    t.out = [.llSend [0xD0, 1], .llSend [0x55], .status .success] ∧ txSlot t 0 = sentSlot 1000 2 ∧ t.stats.txBytes = 3 ∧
      t.stats.txRetransmissions = 1 ∧ t.tickAt = 2000 := by decide +kernel

/-- R254: a link event from the framer does what RX_LINK.ACK_ALL does. -/
theorem test_llRecv : (after (exec (.llRecv [0x55]) (s8Tx 20 ⟨0, 1, 8, [(0, sentSlot 10 1)]⟩))).tx.lastId = 1 := by decide +kernel

/-- R266: index order. -/
theorem test_statusGet :
    (after (exec .statusGet { s8 with stats := ⟨1, 2, 6, 7, 8, 9⟩ })).out = [.snapshot [0, 1, 2, 11, 12, 13, 6, 7, 8, 9],
        .status .success] := by
  decide +kernel

/-- L2, T7. -/
theorem test_statusClear :
    let t := after (exec .statusClear { s8 with stats := ⟨1, 2, 6, 7, 8, 9⟩, link := ⟨[], 0, 0, 4⟩ })
    t.stats = ⟨0, 0, 0, 0, 0, 0⟩ ∧ t.link.drops = 0 ∧ t.fs = 9 := by decide +kernel

/-- X11, with one held frame: the frames are delivered in order and one ACK_ALL names the last. -/
theorem test_rxData_catches_up :
    let t := after (exec (.rxData 0 0 [0]) (s8Rx ⟨0, 1, [(1, storedSlot 1)]⟩))
    t.out = [.upRecv 0 [0], .upRecv 5 [0x11], .status .success] ∧ t.rx.nextId = 2 ∧
      t.link = ⟨[(0, packWord (linkFrame 1 1))], 0, 1, 0⟩ := by decide +kernel

/-- X8, the first command: the gap walk starts at the expected id. -/
theorem test_rxData_gaps :
    let t := after (exec (.rxData 2 5 [0x11]) s8)
    (rxSlot t 0).state = .nacked ∧ (rxSlot t 1).frameId = 1 ∧ rxSlot t 2 = storedSlot 2 ∧ t.rx.maxId = 2 ∧ t.link.count = 3 ∧
      ringRead t 2 = packWord (linkFrame 2 2) := by decide +kernel

/-- A12. -/
theorem test_rxLink_unknown : (after (exec (.rxLink 0 0) s8)).tx = s8.tx ∧ (after (exec (.rxLink 0 0) s8)).link = s8.link :=
    by decide +kernel

/-- A1: frame 0 and the Acked frame 1 are retired. -/
theorem test_ackAll :
    let t := after (exec (.rxLinkAckAll 0) (s8Tx 20 ⟨0, 3, 8, [(0, sentSlot 0 1), (1, ⟨.acked, 1, 0, 2, []⟩), (2, sentSlot 0 1)]⟩))
    t.tx.lastId = 2 ∧ t.stats.txDataFrames = 2 ∧ (txSlot t 1).state = .idle ∧ (txSlot t 2).state = .sent := by decide +kernel

/-- A3: `dec(last)` is outside the window. -/
theorem test_ackAll_outside :
    (after (exec (.rxLinkAckAll 2047) (s8Tx 20 ⟨0, 1, 8, [(0, sentSlot 0 1)]⟩))).tx = ⟨0, 1, 8, [(0, sentSlot 0 1)]⟩ := by decide +kernel

/-- A5. -/
theorem test_ackOne :
    let t := after (exec (.rxLinkAckOne 1) (s8Tx 20 ⟨0, 2, 8, [(0, sentSlot 0 1), (1, sentSlot 0 1)]⟩))
    (txSlot t 1).state = .acked ∧ (txSlot t 0).state = .sent ∧ t.tx.lastId = 0 := by decide +kernel

/-- A7: an Acked frame is reverted too, and no wake is pulsed. -/
theorem test_nackFrameId :
    let t := after (exec (.rxLinkNackFrameId 0) (s8Tx 200 ⟨0, 1, 8, [(0, ⟨.acked, 1, 0, 2, []⟩)]⟩))
    (txSlot t 0).state = .pendingSend ∧ t.tickAt = 200 ∧ t.out = [.status .success] := by decide +kernel

/-- A9. -/
theorem test_nackFramingError :
    let t := after (exec (.rxLinkNackFramingError 0) (s8Tx 20 ⟨0, 2, 8, [(0, sentSlot 0 1), (1, sentSlot 0 1)]⟩))
    (txSlot t 0).state = .pendingSend ∧ (txSlot t 1).state = .sent := by decide +kernel

/-- C3: the report, the reset and its event, then the response. -/
theorem test_resetReq_active :
    let t := after (exec .rxLinkResetReq { s8At 20 with conn := ⟨.connected, true, 0⟩ })
    t.out = [.upEvent .rxResetRequest, .upEvent .txDisconnected, .status .success] ∧ t.link.count = 2 ∧
      ringRead t 0 = packWord (linkFrame 5 0) ∧ ringRead t 1 = packWord (linkFrame 5 1) ∧ t.conn = ⟨.disconnected, false, 20⟩ := by
  decide +kernel

/-- C4: the handler of the report has reset the link already, so the block does not. -/
theorem test_resetReq_nested_reset :
    let t := after (exec .rxLinkResetReq
      { s8At 20 with conn := ⟨.connected, true, 0⟩, port := ⟨20, 0, [], [[⟨0xB000000000000000, .bytes []⟩]], 0⟩ })
    t.ctx.resetEpoch = 2 ∧ t.link.count = 2 ∧ t.ctx.cbDepth = 0 ∧
      t.out = [.upEvent .rxResetRequest, .upEvent .txDisconnected, .status .success, .status .success] := by decide +kernel

/-- C5. -/
theorem test_resetRsp :
    let t := after (exec .rxLinkResetRsp s0)
    t.conn.state = .connected ∧ t.out = [.upEvent .txConnected, .status .success] ∧ t.link = s0.link := by decide +kernel

/-- C7. -/
theorem test_resetOther : (after (exec (.rxLinkResetOther 2) s8)).conn = s8.conn ∧ (after (exec (.rxLinkResetOther 2) s8)).link =
    s8.link := by
  decide +kernel

/-- E11, with 0 expected. -/
theorem test_rxFramingError : ringRead (after (exec .rxFramingError s8)) 0 = packWord (linkFrame 4 0) := by decide +kernel

/-- C8. -/
theorem test_resetTxFromEvent :
    let t := after (exec .resetTxFromEvent (s8At 30))
    t.out = [.wake, .upEvent .txDisconnected, .status .success] ∧ t.conn = ⟨.disconnected, false, 30⟩ ∧ t.tickAt = 30 := by decide +kernel

/-- T4. -/
theorem test_serviceInterval :
    (after (exec .serviceInterval { s8At 5000 with tickAt := 5800 })).out = [.interval 800, .status .success] ∧
    (after (exec .serviceInterval { s8At 6000 with tickAt := 5800 })).out = [.interval 0, .status .success] := by decide +kernel

/-- T8. -/
theorem test_finalize : (after (exec .statusGet (after (exec .finalize s8)))).fault = 0x20 := by decide +kernel

/-- L5, L6: a drain that wraps past the ring's end makes two writes; a smaller space sends what fits. -/
theorem test_drain_wraps :
    let r : State := { s8 with cfg := ⟨8, 8, 4, 272, 1000⟩, link := ⟨[(0, 2), (1, 3), (3, 1)], 3, 3, 0⟩ }
    (linkDrain { r with port := ⟨10, 0, [100], [], 0⟩ }).out =
      [.llSend [1, 0, 0, 0, 0, 0, 0, 0], .llSend [2, 0, 0, 0, 0, 0, 0, 0, 3, 0, 0, 0, 0, 0, 0, 0]] ∧
    (linkDrain { r with port := ⟨10, 0, [100], [], 0⟩ }).link.head = 2 ∧
    (linkDrain { r with port := ⟨10, 0, [15], [], 0⟩ }).link.head = 0 := by decide +kernel

/-- F1, F3, F11. -/
theorem test_frame_ids :
    idSubtract 0 2047 = 1 ∧ idSubtract 2047 0 = -1 ∧ idSubtract 1024 0 = -1024 ∧ idSubtract 0 1024 = -1024 ∧ pow2Ceil 5 = 8 ∧
      pow2Ceil 1000 = 1024 := by decide +kernel

/-! ### The block in use meets every invariant -/

theorem busy_txSlot (i : Nat) : txSlot busy i =
    if i = 0 then sentSlot 10 1 else if i = 1 then ⟨.pendingSend, 0, 0, 2, [(0, 0xD1), (1, 1)]⟩ else TxSlot.zero := rfl

theorem busy_rxSlot (i : Nat) : rxSlot busy i =
    if i = 0 then ⟨.nacked, 0, 0, 0, []⟩ else if i = 1 then ⟨.nacked, 1, 0, 0, []⟩ else if i = 2 then storedSlot 2 else RxSlot.zero := rfl

theorem busy_cfgInv : CfgInv busy :=
  ⟨⟨3, by decide, rfl⟩, ⟨3, by decide, rfl⟩, by decide, by decide, by decide⟩

theorem busy_txCountInv : TxCountInv busy := ⟨⟨3, rfl⟩, by decide⟩

theorem busy_txInv : TxInv busy := by
  refine ⟨by decide, fun i => ?_, by decide⟩
  rw [show txWindow busy = [0, 1] by decide]
  simp only [List.mem_cons, List.not_mem_nil, or_false, exists_eq_or_imp, exists_eq_left, show txIndex busy 0 = 0 by decide,
    show txIndex busy 1 = 1 by decide, busy_txSlot]
  by_cases h0 : i = 0
  · subst h0; decide
  · by_cases h1 : i = 1
    · subst h1; decide
    · rw [if_neg h0, if_neg h1]
      exact ⟨fun h => absurd rfl h, fun h => by omega⟩

theorem busy_rxInv : RxInv busy := by
  intro i h
  by_cases h0 : i = 0
  · subst h0; decide
  · by_cases h1 : i = 1
    · subst h1; decide
    · by_cases h2 : i = 2
      · subst h2; decide
      · rw [busy_rxSlot, if_neg h0, if_neg h1, if_neg h2] at h; exact absurd rfl h

theorem busy_ringInv : RingInv busy := by unfold RingInv; decide

theorem busy_memoryInv : MemoryInv busy := by
  refine ⟨by decide, by decide, by decide +kernel, fun i => ?_, fun i => ?_⟩
  · rw [busy_txSlot]; split <;> [decide; (split <;> decide)]
  · rw [busy_rxSlot]; split <;> [decide; (split <;> [decide; (split <;> decide)])]

theorem busy_timeInv : TimeInv busy := by
  refine ⟨by decide, by decide, fun i => ?_⟩
  rw [busy_txSlot]; split <;> [decide; (split <;> decide)]

theorem busy_retryInv : RetryInv busy := by
  intro i
  rw [busy_txSlot]; split <;> [decide; (split <;> decide)]

theorem busy_protocolInv : ProtocolInv busy := ⟨busy_cfgInv, busy_txCountInv, busy_txInv, busy_rxInv, busy_ringInv⟩

theorem busy_steps : ∃ t, step busy = .next t ∧ t.life ≠ .uninit := ⟨_, rfl, by decide +kernel⟩

theorem s8_cfgInv : CfgInv s8 := ⟨⟨3, by decide, rfl⟩, ⟨3, by decide, rfl⟩, by decide, by decide, by decide⟩

theorem s8_ready : Ready s8 := ⟨rfl, rfl, by decide⟩

theorem s0_ready : Ready s0 := ⟨rfl, rfl, by decide⟩

theorem busy_ready : Ready busy := ⟨rfl, rfl, by decide⟩

/-- A command may also arrive at the very time of the last one, or inside a callback. -/
theorem s8_readyNested : ReadyNested s8 ∧ ReadyNested { s8 with ctx := ⟨true, 1, 1, 10⟩ } :=
  ⟨⟨rfl, fun _ => by decide⟩, ⟨rfl, fun h => absurd h (by decide)⟩⟩

/-! ### For each statement with hypotheses, values that meet them, at the ends of their ranges -/

theorem witness_SubtractIsTheSignedDifference :
    (((0 : FrameId).toNat : Int) - (2047 : FrameId).toNat) % 2048 ≠ 1024 ∧
        (((1024 : FrameId).toNat : Int) - (0 : FrameId).toNat) % 2048 = 1024 ∧
    ((-1024 : Int) ≤ -1024 ∧ (-1024 : Int) ≤ 1023 ∧ idSubtract (idAdd 5 (-1024)) 5 = -1024) ∧ idSubtract (idAdd 5 1023) 5 = 1023 :=
        by decide

theorem witness_SlotIndexMasksAndCommutesWithInc :
    (s8Tx 10 ⟨0, 0, 1, []⟩).tx.count.toNat = 2 ^ 0 ∧ (s8Tx 10 ⟨0, 0, 1024, []⟩).tx.count.toNat = 2 ^ 10 ∧
    { s8 with cfg := ⟨1, 1, 1, 272, 1⟩ }.cfg.rxWindowSize.toNat = 2 ^ 0 ∧
    { s8 with cfg := ⟨1024, 1024, 1, 272, 1⟩ }.cfg.rxWindowSize.toNat = 2 ^ 10 := by decide

theorem witness_Pow2CeilIsTheLeastPowerOfTwo :
    (1 ≤ 1 ∧ 1 ≤ 2 ^ 31 ∧ pow2Ceil 1 = 1) ∧ 1 ≤ 2 ^ 31 ∧ pow2Ceil (2 ^ 31) = 2 ^ 31 ∧ pow2Ceil (2 ^ 30 + 1) = 2 ^ 31 := by decide +kernel

theorem witness_DecodeOfEncodeIsTheInstruction :
    LinkCodes.default.legal = true ∧ (Instr.send (-1) 0xFFFF []).wellFormed LinkCodes.default = true ∧
    (Instr.rxLinkResetOther 2).wellFormed LinkCodes.default = true ∧ (Instr.rxLink 0 2047).wellFormed LinkCodes.default = true := by decide

/-- The longest payload that an encoding states. -/
theorem witness_DecodeOfEncode_longest (f : FrameId) (m : Metadata) :
    (Instr.rxData f m (List.replicate 65535 0)).wellFormed LinkCodes.default = true := by
  simp only [Instr.wellFormed, List.length_replicate, decide_eq_true_eq]; omega

theorem witness_DecodedCommandsHaveOneEncoding : decode LinkCodes.default 0x800007FF0001FFFF (.bytes [9]) = .ok (.rxData 2047 0xFFFF [9]) :=
    by decide

/-- A state with one input waiting. -/
def waiting (x : Input) : State := { s8 with inq := [x] }

theorem witness_MalformedCommandsAreRefused :
    (waiting (.command 0xE000000000000000 (.bytes []) ⟨0, 0, [], []⟩)).inq = .command 0xE000000000000000 (.bytes []) ⟨0, 0, [], []⟩ :: [] ∧
    (0x0FFFFFFFFFFFFFFF : Word64).toNat / 2 ^ 60 = 0 ∧ (0xE000000000000000 : Word64).toNat / 2 ^ 60 = 0xE ∧
    (0xF000000000000000 : Word64).toNat / 2 ^ 60 = 0xF ∧
    (0x9000000000000001 : Word64) &&& reservedMask 9 ≠ 0 ∧ (0x8000080000000000 : Word64) &&& reservedMask 8 ≠ 0 ∧
    (0x800007FF0001FFFF : Word64) &&& reservedMask 8 = 0 ∧ statedOperand 0x800007FF0001FFFF (.bytes [9]) ∧
    ¬ statedOperand 0x800007FF0001FFFF (.bytes []) ∧ ¬ statedOperand 0x800007FF0001FFFF (.bytes [9, 9]) ∧
    statedOperand 0x1000000000000000 (.record ⟨8, 6, 0, 272, 1000⟩) ∧ ¬ statedOperand 0x1000000000000000 (.bytes []) ∧
    ¬ statedOperand 0x4000000000000000 (.record CfgRecord.zero) := by
  unfold statedOperand; decide

theorem witness_StepRunsTheDecodedCommand :
    s8.inq = [] ∧ busy.inq = .command 0x4000000000000000 (.bytes []) ⟨20, 0, [64, 64, 64], []⟩ :: [] ∧
    decode busy.par.codes 0x4000000000000000 (.bytes []) = .ok .process := by decide

/-- The first time below `last_now` (10), and a negative one; each step is the refusal (D51). -/
theorem witness_NoInputStopsTheBlock :
    decode s8.par.codes 0x4000000000000000 (.bytes []) = .ok .process ∧ (∀ c, Instr.process ≠ .init c) ∧ s8.life = .active ∧
    s8.ctx.cbDepth = 0 ∧ (9 : Time).toInt < s8.ctx.lastNow.toInt ∧ (-1 : Time).toInt < s8.ctx.lastNow.toInt ∧
    (∃ t, step (waiting (.command 0x4000000000000000 (.bytes []) ⟨9, 0, [], []⟩)) = .next t ∧ t.fault = 0x80) ∧
    (∃ t, step (waiting (.command 0x4000000000000000 (.bytes []) ⟨-1, 0, [], []⟩)) = .next t ∧ t.fault = 0x80 ∧ t.tickAt = 16000) :=
  ⟨by decide, by simp, rfl, rfl, by decide, by decide, ⟨_, rfl, by decide +kernel⟩, ⟨_, rfl, by decide +kernel⟩⟩

theorem witness_RefusalConditionsInOrder :
    State.reset.life = .uninit ∧ s8.life ≠ .uninit ∧ { s8 with life := Life.finalized }.life = .finalized ∧
    (State.reset.life = .uninit ∧ { State.reset with ctx := ⟨false, 1, 0, 0⟩ }.ctx.cbDepth ≠ 0) ∧
    (s8.life = .active ∧ { s8 with ctx := ⟨true, 1, 1, 10⟩ }.ctx.cbDepth ≠ 0) ∧
    (s8.life = .active ∧ s8.ctx.cbDepth = 0 ∧ (s8At 9).port.now.toInt < (s8At 9).ctx.lastNow.toInt) := by decide

theorem witness_FaultIsNeverCleared : ∃ t, step { waiting (.command 0 (.bytes []) ⟨10, 0, [], []⟩) with fault := 0x80 } = .next t ∧ t.fault = 0x81 :=
  ⟨_, rfl, by decide⟩

theorem witness_LifecycleMovesOnlyForward :
    (∃ t, exec .finalize s8 = .next t ∧ t.life = .finalized) ∧ (∃ t, exec .process State.reset = .next t ∧ State.reset.life ≠ .active) ∧
    (∃ t, exec (.init ⟨8, 8, 8, 272, 1000⟩) s8 = .next t ∧ s8.life ≠ .uninit) :=
  ⟨⟨_, rfl, by decide⟩, ⟨_, rfl, by decide⟩, ⟨_, rfl, by decide⟩⟩

theorem witness_StepKeepsParametersConfigurationAndPastOutputs : ∃ t, step busy = .next t ∧ busy.life ≠ .uninit := ⟨_, rfl, by decide⟩

theorem witness_StepKeepsQuiescence : Quiescent busy ∧ ∃ t, step busy = .next t := ⟨⟨rfl, rfl⟩, _, rfl⟩

theorem witness_StepKeepsMemoryForm : MemoryInv busy ∧ ∃ t, step busy = .next t := ⟨busy_memoryInv, _, rfl⟩

theorem witness_StepKeepsRingBounds : (busy.life ≠ .uninit → RingInv busy) ∧ ∃ t, step busy = .next t ∧ t.life ≠ .uninit :=
  ⟨fun _ => busy_ringInv, busy_steps⟩

theorem witness_StepKeepsTxInvariants :
    (busy.life ≠ .uninit → CfgInv busy ∧ TxCountInv busy ∧ TxInv busy) ∧ ∃ t, step busy = .next t ∧ t.life ≠ .uninit :=
  ⟨fun _ => ⟨busy_cfgInv, busy_txCountInv, busy_txInv⟩, busy_steps⟩

theorem witness_StepKeepsRxInvariants :
    (busy.life ≠ .uninit → CfgInv busy ∧ RxInv busy) ∧ ∃ t, step busy = .next t ∧ t.life ≠ .uninit :=
  ⟨fun _ => ⟨busy_cfgInv, busy_rxInv⟩, busy_steps⟩

theorem witness_StepKeepsRetryCeiling : RetryInv busy ∧ ∃ t, step busy = .next t := ⟨busy_retryInv, _, rfl⟩

theorem witness_StepKeepsTimesInRange :
    TimeInv busy ∧ (∀ x ∈ busy.inq.head?, timeInRange x.env.now = true) ∧ ∃ t, step busy = .next t :=
  ⟨busy_timeInv, by decide, _, rfl⟩

theorem witness_SendMakesOneAttempt :
    ReadyNested s8 ∧ (0 : BitVec 28).toInt ≤ 0 ∧ (BitVec.ofInt 28 (-1)).toInt ≤ 0 ∧ s0.conn.state ≠ .connected ∧
    (1 : Int) ≤ idSubtract (s8Tx 10 ⟨0, 1, 1, []⟩).tx.nextId 0 ∧ (1023 : Int) ≤ idSubtract (s8Tx 10 ⟨0, 1023, 1024, []⟩).tx.nextId 0 ∧
    ([] : List Byte).length = 0 ∧ (List.replicate 256 (0 : Byte)).length ≤ s8.par.payloadMax ∧
    s8.par.payloadMax < (List.replicate 257 (0 : Byte)).length := by
  refine ⟨s8_readyNested.1, ?_⟩; decide +kernel

theorem witness_BlockingSendEndsOrWaits :
    ReadyNested s8 ∧ 0 < (1 : BitVec 28).toInt ∧ ((8 : BitVec 11).toNat : Int) ≤ idSubtract (s8Tx 10 ⟨0, 8, 8, []⟩).tx.nextId 0 ∧
    { s8Tx 10 ⟨0, 8, 8, []⟩ with ctx := ⟨true, 1, 1, 10⟩ }.ctx.inProcess = true ∧
    (s8.port.now.toInt < (timeOf (s8.port.now.toInt + 1 * s8.par.ticksPerSecond / 1000)).toInt) ∧
    (timeOf (10 + 1 * ({ testPar with ticksPerSecond := 0 } : Params).ticksPerSecond / 1000)).toInt ≤ s8.port.now.toInt := by
  refine ⟨s8_readyNested.1, ?_⟩; decide +kernel

/-- Caller 0 waits to send, with a full window. -/
def sendWaits (now deadline nextTry : Time) : State :=
  { s8Tx 10 ⟨0, 8, 8, []⟩ with bsend := [⟨0, true, 10, deadline, 1, [1], nextTry⟩], inq := [.attempt ⟨now, 0, [], []⟩] }

theorem witness_WaitingSendTriesAgain :
    (sendWaits 11 20 11).inq = .attempt ⟨11, 0, [], []⟩ :: [] ∧
    bsendOf 0 (sendWaits 11 20 11).bsend = some ⟨0, true, 10, 20, 1, [1], 11⟩ ∧ (sendWaits 11 20 11).life = .active ∧
    (sendWaits 11 20 11).ctx.lastNow.toInt ≤ (11 : Time).toInt ∧ (sendWaits 11 20 11).ctx.inProcess = false ∧
    (11 : Time).toInt < (20 : Time).toInt ∧ (20 : Time).toInt ≤ (20 : Time).toInt ∧
    (∃ t, step (sendWaits 11 20 11) = .next t ∧ t.out = []) ∧
    (∃ t, step (sendWaits 20 20 11) = .next t ∧ t.out = [.status .timedOut]) ∧
    (∃ t, step (sendWaits 10 20 11) = .next t ∧ t.out = []) :=
  ⟨rfl, by decide, rfl, by decide, rfl, by decide, by decide, ⟨_, rfl, by decide +kernel⟩, ⟨_, rfl, by decide +kernel⟩,
    ⟨_, rfl, by decide +kernel⟩⟩

/-- With room: the SEND that waits is accepted. -/
theorem witness_WaitingSend_accepted :
    ¬ ((8 : BitVec 11).toNat : Int) ≤ idSubtract (s8Tx 10 ⟨0, 7, 8, []⟩).tx.nextId 0 ∧
    (∃ t, step { sendWaits 11 20 11 with tx := ⟨0, 7, 8, []⟩ } = .next t ∧ t.tx.nextId = 8) :=
  ⟨by decide, _, rfl, by decide +kernel⟩

/-- The refused attempts: before INIT, after FINALIZE, and at a time before `last_now`, whether or not it lies before the end of the wait. -/
theorem witness_WaitingSend_refused :
    (∃ t, step { sendWaits 11 20 11 with life := .uninit } = .next t ∧ t.fault = 8) ∧
    (∃ t, step { sendWaits 11 20 11 with life := .finalized } = .next t ∧ t.fault = 32 ∧
      bsendOf 0 t.bsend = some ⟨0, false, 10, 20, 1, [1], 11⟩) ∧
    (∃ t, step { sendWaits 11 20 11 with ctx := ⟨false, 0, 1, 12⟩ } = .next t ∧ t.fault = 128 ∧ t.ctx.lastNow = 12) ∧
    (∃ t, step (sendWaits 9 20 11) = .next t ∧ t.fault = 128 ∧ t.ctx.lastNow = 10) ∧
    (∃ t, step (sendWaits (-1) 20 11) = .next t ∧ t.fault = 128 ∧ t.out = [.refused .timeRegression]) :=
  ⟨⟨_, rfl, by decide +kernel⟩, ⟨_, rfl, by decide +kernel⟩, ⟨_, rfl, by decide +kernel⟩, ⟨_, rfl, by decide +kernel⟩,
    ⟨_, rfl, by decide +kernel⟩⟩

theorem witness_TxWindowSetGrowsOnceAndMovesTheFrame :
    ReadyNested s8 ∧ s8.tx.count ≠ 1 ∧ s0.tx.count = 1 ∧ s0.cfg.txFrameCountMax.toNat ≤ (8 : BitVec 32).toNat ∧
    idSubtract (s8Tx 50 ⟨9, 10, 1, [(0, sentSlot 40 1)]⟩).tx.nextId 9 = 1 ∧ (9 : FrameId).toNat % 8 ≠ 0 ∧ (8 : FrameId).toNat % 8 = 0 := by
  refine ⟨s8_readyNested.1, ?_⟩; decide

theorem witness_ProcessRunsItsSixSteps : Ready busy := busy_ready

theorem witness_TransmissionScanServesTheFirstPendingFrame :
    (∀ f ∈ txWindow s8, (txSlot s8 (txIndex s8 f)).state ≠ .pendingSend) ∧ txWindow busy = [0] ++ 1 :: [] ∧
    (∀ g ∈ [0], (txSlot busy (txIndex busy g)).state ≠ .pendingSend) ∧ (txSlot busy (txIndex busy 1)).state = .pendingSend ∧
    (txSlot busy (txIndex busy 1)).sendCount.toNat < 25 ∧ (txSlot busy (txIndex busy 1)).len.toNat ≤ (llAvail busy).1 ∧
    (llAvail { busy with port := ⟨20, 0, [1], [], 0⟩ }).1 < (txSlot busy (txIndex busy 1)).len.toNat ∧
    25 ≤ (⟨.pendingSend, 25, 0, 2, []⟩ : TxSlot).sendCount.toNat := by decide +kernel

theorem witness_TxDeadlineIsTheEarliest :
    (∃ f ∈ txWindow busy, (txSlot busy (txIndex busy f)).state = .pendingSend) ∧
    (∀ f ∈ txWindow s8, (txSlot s8 (txIndex s8 f)).state ≠ .pendingSend ∧ (txSlot s8 (txIndex s8 f)).state ≠ .sent) ∧
    txDeadline (s8Tx 50 ⟨0, 1, 8, [(0, sentSlot 40 1)]⟩) = some 1040 := by decide +kernel

theorem witness_NextDeadlineIsTheLeastTerm :
    (∀ d : Int, ¬ (txDeadline s8 = some d ∨ ((0 < s8.link.count.toNat ∨ s8.eofPending = true) ∧ d = s8.port.now.toInt) ∨
      (s8.conn.state = .disconnected ∧ d = s8.conn.resetTime.toInt + 16 * s8.cfg.txTimeout.toInt))) ∧ 0 < busy.link.count.toNat := by
  refine ⟨fun d h => ?_, by decide⟩
  rcases h with h | ⟨h | h, _⟩ | ⟨h, _⟩
  · cases h
  · exact absurd h (by decide)
  · cases h
  · cases h

theorem witness_RearmClampsWithoutOverflow :
    CfgInv busy ∧ TimeInv busy ∧ timeInRange busy.port.now = true ∧ busy.par.minInterval ≤ 2 ^ 60 :=
  ⟨busy_cfgInv, busy_timeInv, by decide, by decide⟩

theorem witness_AckOneMarksTheFrameAcked :
    Ready busy ∧ 0 ≤ idSubtract 0 busy.tx.lastId ∧ idSubtract 1 busy.tx.lastId < idSubtract busy.tx.nextId busy.tx.lastId ∧
    ¬ idSubtract 2 busy.tx.lastId < idSubtract busy.tx.nextId busy.tx.lastId ∧ (txSlot busy 0).state = .sent ∧
    (txSlot busy 1).state = .pendingSend := by
  refine ⟨busy_ready, ?_⟩; decide

theorem witness_AckAllRetiresThroughTheId :
    Ready busy ∧ txInWindow busy.tx 2 = false ∧ txInWindow busy.tx 0 = true ∧ txInWindow busy.tx 1 = true ∧ CfgInv busy ∧
    TxCountInv busy ∧ TxInv busy :=
  ⟨busy_ready, by decide, by decide, by decide, busy_cfgInv, busy_txCountInv, busy_txInv⟩

theorem witness_AckAllTwiceRetiresOnce :
    Ready busy ∧ CfgInv busy ∧ TxCountInv busy ∧ TxInv busy ∧ txInWindow busy.tx 0 = true ∧ txInWindow busy.tx 1 = true :=
  ⟨busy_ready, busy_cfgInv, busy_txCountInv, busy_txInv, by decide, by decide⟩

theorem witness_NacksRevertTheNamedFrame :
    Ready busy ∧ (Instr.rxLinkNackFrameId 0 = .rxLinkNackFrameId 0 ∨ Instr.rxLinkNackFrameId 0 = .rxLinkNackFramingError 0) ∧
    0 ≤ idSubtract 0 busy.tx.lastId ∧ idSubtract 0 busy.tx.lastId < idSubtract busy.tx.nextId busy.tx.lastId ∧
    (txSlot busy (txIndex busy 0)).state ≠ .idle ∧ ¬ 0 ≤ idSubtract 2047 busy.tx.lastId := by
  refine ⟨busy_ready, ?_⟩; decide

theorem witness_RxDataAnswersWithoutDelivery :
    Ready s8 ∧ Ready s0 ∧ s0.conn.state = .disconnected ∧ s8.conn.state = .connected ∧ ([] : List Byte).length = 0 ∧
    s8.par.payloadMax < (List.replicate 257 (0 : Byte)).length ∧ (List.replicate 256 (0 : Byte)).length ≤ s8.par.payloadMax ∧
    idSubtract 2047 s8.rx.nextId = -1 ∧ idSubtract 1024 s8.rx.nextId = -1024 ∧
        (s8.cfg.rxWindowSize.toNat : Int) ≤ idSubtract 8 s8.rx.nextId ∧
    idSubtract 1023 s8.rx.nextId = 1023 := by
  refine ⟨s8_ready, s0_ready, ?_⟩; decide +kernel

theorem witness_FutureFrameIsStoredAndGapsNacked :
    Ready s8 ∧ CfgInv s8 ∧ s8.conn.state = .connected ∧ ([1] : List Byte).length ≠ 0 ∧ ([1] : List Byte).length ≤ s8.par.payloadMax ∧
    0 < idSubtract 1 s8.rx.nextId ∧ idSubtract 7 s8.rx.nextId < s8.cfg.rxWindowSize.toNat :=
  ⟨s8_ready, s8_cfgInv, rfl, by decide, by decide, by decide, by decide⟩

/-- S8 with frame 0 due and all seven frames behind it held. -/
def s8Held : State :=
  s8Rx ⟨0, 7, [(1, storedSlot 1), (2, storedSlot 2), (3, storedSlot 3), (4, storedSlot 4), (5, storedSlot 5), (6, storedSlot 6), (7,
      storedSlot 7)]⟩

/-- The whole window is delivered: `n = 7` held frames; and, where nothing is held, `n = 0`. -/
theorem witness_ExpectedFrameIsDeliveredWithItsFollowers :
    (Ready s8Held ∧ CfgInv s8Held ∧ s8Held.conn.state = .connected ∧ s8Held.port.handlers = [] ∧
        0 < idSubtract s8Held.rx.maxId s8Held.rx.nextId ∧
      (∀ k, k < 8 → 1 ≤ k → (rxSlot s8Held (rxIndex s8Held (s8Held.rx.nextId + BitVec.ofNat 11 k))).state = .stored ∧
        (rxSlot s8Held (rxIndex s8Held (s8Held.rx.nextId + BitVec.ofNat 11 k))).frameId = s8Held.rx.nextId + BitVec.ofNat 11 k) ∧
      ¬ 7 + 1 < s8Held.cfg.rxWindowSize.toNat ∧ 7 < s8Held.cfg.rxWindowSize.toNat) ∧
    Ready s8 ∧ CfgInv s8 ∧ s8.conn.state = .connected ∧ s8.port.handlers = [] ∧ ¬ 0 < idSubtract s8.rx.maxId s8.rx.nextId :=
  ⟨⟨⟨rfl, rfl, by decide⟩, ⟨⟨3, by decide, rfl⟩, ⟨3, by decide, rfl⟩, by decide, by decide, by decide⟩, rfl, rfl, by decide,
      by decide +kernel,
    by decide, by decide⟩, s8_ready, s8_cfgInv, rfl, rfl, by decide⟩

/-- S8 with a handler that resets the link in the first callback. -/
def s8Resets : State := { s8 with port := ⟨10, 0, [], [[⟨0xB000000000000000, .bytes []⟩]], 0⟩ }

/-- The state in which frame 0's handler has run, with payload `[1]`. -/
def handled (s : State) : State :=
  upRecv 0 [1]
    { setRxSlot 0 { rxSlot s 0 with state := .idle } { entered s with conn := { s.conn with activity := true } } with
      stats := { s.stats with rxMsgBytes := s.stats.rxMsgBytes + BitVec.ofNat 64 [(1 : Byte)].length,
                              rxDataFrames := s.stats.rxDataFrames + 1 } }

theorem witness_DeliveryGoesOnUnlessItsHandlerResets :
    (Ready s8Resets ∧ s8Resets.conn.state = .connected ∧ ([1] : List Byte).length ≠ 0 ∧ ([1] : List Byte).length ≤ s8Resets.par.payloadMax ∧
      (handled s8Resets).ctx.resetEpoch ≠ s8Resets.ctx.resetEpoch) ∧
    (Ready s8 ∧ (handled s8).ctx.resetEpoch = s8.ctx.resetEpoch ∧ idSubtract (handled s8).rx.maxId s8.rx.nextId ≤ 0) ∧
    Ready s8Held ∧ (handled s8Held).ctx.resetEpoch = s8Held.ctx.resetEpoch ∧ 0 < idSubtract (handled s8Held).rx.maxId s8Held.rx.nextId :=
  ⟨⟨⟨rfl, rfl, by decide⟩, rfl, by decide, by decide, by decide +kernel⟩, ⟨s8_ready, by decide +kernel, by decide +kernel⟩,
    ⟨rfl, rfl, by decide⟩, by decide +kernel, by decide +kernel⟩

/-- Frame 1 is due and held; its handler resets the link, or there is none. -/
def s8Due (handlers : List (List NestedCommand)) : State :=
  { s8Rx ⟨1, 1, [(1, storedSlot 1)]⟩ with port := ⟨10, 0, [], handlers, 0⟩ }

/-- The state in which the held frame's handler has run. -/
def heldHandled (s : State) : State :=
  upRecv 5 [0x11] { s with stats := { s.stats with rxMsgBytes := s.stats.rxMsgBytes + 1, rxDataFrames := s.stats.rxDataFrames + 1 } }

/-- The catch-up: nothing held; a held frame whose handler resets the link (the catch-up ends: no ACK_ALL is queued, only the reset's RESET
request); one whose handler does not. -/
theorem witness_Delivery_catchUp :
    (CfgInv s8 ∧ (rxSlot s8 (rxIndex s8 s8.rx.nextId)).state ≠ .stored) ∧
    (CfgInv (s8Due [[⟨0xB000000000000000, .bytes []⟩]]) ∧ rxSlot (s8Due []) 1 = storedSlot 1 ∧
      (heldHandled (s8Due [[⟨0xB000000000000000, .bytes []⟩]])).ctx.resetEpoch ≠ (s8Due []).ctx.resetEpoch ∧
      (catchUp (s8Due [[⟨0xB000000000000000, .bytes []⟩]])).link.count = 1 ∧
      ringRead (catchUp (s8Due [[⟨0xB000000000000000, .bytes []⟩]])) 0 = packWord (linkFrame 5 0)) ∧
    (heldHandled (s8Due [])).ctx.resetEpoch = (s8Due []).ctx.resetEpoch ∧ (catchUp (s8Due [])).rx.nextId = 2 ∧
    ringRead (catchUp (s8Due [])) 0 = packWord (linkFrame 1 1) :=
  ⟨⟨s8_cfgInv, by decide⟩, ⟨s8_cfgInv, by decide, by decide +kernel, by decide +kernel, by decide +kernel⟩, by decide +kernel,
    by decide +kernel, by decide +kernel⟩

theorem witness_FramingErrorIsNackedWhileConnected :
    (Ready s0 ∧ s0.conn.state = .disconnected) ∧ Ready s8 ∧ s8.conn.state = .connected := ⟨⟨s0_ready, rfl⟩, s8_ready, rfl⟩

theorem witness_LocalResetWritesTheResetState :
    1 ≤ { s8 with cfg := ⟨8, 8, 1, 272, 1000⟩ }.cfg.txLinkSize.toNat ∧ 1 ≤ s8.cfg.txLinkSize.toNat := by decide

theorem witness_ResetTxFromEventIsTheLocalReset : ReadyNested s8 ∧ ReadyNested { s8 with ctx := ⟨true, 1, 1, 10⟩ } := s8_readyNested

theorem witness_ResetRequestIsAlwaysAnswered :
    (Ready s0 ∧ s0.conn.state = .disconnected) ∧ (Ready s8 ∧ s8.conn.activity = false) ∧
    (Ready { s8 with conn := ⟨.connected, true, 0⟩ } ∧
      (upEvent .rxResetRequest (entered { s8 with conn := ⟨.connected, true, 0⟩ })).ctx.resetEpoch = s8.ctx.resetEpoch) ∧
    Ready { s8Resets with conn := ⟨.connected, true, 0⟩ } ∧
      (upEvent .rxResetRequest (entered { s8Resets with conn := ⟨.connected, true, 0⟩ })).ctx.resetEpoch ≠ s8Resets.ctx.resetEpoch :=
  ⟨⟨s0_ready, rfl⟩, ⟨s8_ready, rfl⟩, ⟨⟨rfl, rfl, by decide⟩, by decide +kernel⟩, ⟨rfl, rfl, by decide⟩, by decide +kernel⟩

theorem witness_ResetResponseConnects :
    (Ready s8 ∧ s8.conn.state = .connected) ∧ Ready s0 ∧ s0.conn.state = .disconnected ∧ s0.port.handlers = [] :=
  ⟨⟨s8_ready, rfl⟩, s0_ready, rfl, rfl⟩

theorem witness_OtherLinkFramesAreIgnored :
    Ready s8 ∧ (2 : FrameId) ≠ 0 ∧ (2 : FrameId) ≠ 1 ∧ (2047 : FrameId) ≠ 0 ∧ (0 : BitVec 5) ∉ s8.par.codes.all ∧
    (31 : BitVec 5) ∉ s8.par.codes.all := by
  refine ⟨s8_ready, ?_⟩; decide

/-- A RESET response as a command, and one that the framer finds in LL_RECV's bytes. -/
theorem witness_OnlyAResetResponseConnects :
    s0.conn.state = .disconnected ∧ (∃ t, exec .rxLinkResetRsp s0 = .next t ∧ t.conn.state = .connected) ∧
    (∃ t, exec (.llRecv [0x58]) s0 = .next t ∧ t.conn.state = .connected) ∧
    FramerEvent.link s0.par.codes.reset 1 ∈ (framerParse s0.par s0.fs [0x58]).2 :=
  ⟨rfl, ⟨_, rfl, by decide +kernel⟩, ⟨_, rfl, by decide +kernel⟩, by decide⟩

theorem witness_LinkPushAppendsOrDrops :
    RingInv busy ∧ busy.link.count ≠ busy.cfg.txLinkSize ∧ RingInv { s8 with link := ⟨[], 7, 8, 0⟩ } ∧
    { s8 with link := ⟨[], 7, 8, 0⟩ }.link.count = s8.cfg.txLinkSize :=
  ⟨busy_ringInv, by decide, by unfold RingInv; decide, rfl⟩

theorem witness_LinkDrainSendsTheOldestWords :
    RingInv s8 ∧ s8.link.count = 0 ∧ RingInv busy ∧ busy.link.count ≠ 0 ∧ RingInv { s8 with link := ⟨[], 7, 8, 0⟩ } :=
  ⟨by unfold RingInv; decide, rfl, busy_ringInv, by decide, by unfold RingInv; decide⟩

/-- Both ends of each range: sizes 1 and 1024, timeouts 1 and `2^58` are valid; one further is not. -/
theorem witness_InitLoadsAValidConfiguration :
    State.reset.life = .uninit ∧ State.reset.ctx.cbDepth = 0 ∧ cfgValid State.reset.par ⟨1, 1, 0, 272, 1⟩ = true ∧
    cfgValid State.reset.par ⟨1024, 1024, 1024, 272, 0x400000000000000⟩ = true ∧ cfgValid State.reset.par ⟨0, 1, 0, 272, 1⟩ = false ∧
    cfgValid State.reset.par ⟨1025, 1, 0, 272, 1⟩ = false ∧ cfgValid State.reset.par ⟨1, 1, 1025, 272, 1⟩ = false ∧
    cfgValid State.reset.par ⟨1, 1, 0, 271, 1⟩ = false ∧ cfgValid State.reset.par ⟨1, 1, 0, 272, 0⟩ = false := by decide +kernel

theorem witness_LlRecvRunsTheFramersEvents :
    Ready s8 ∧ framerParse s8.par s8.fs [0x55] = (1, [.link 0x0F 0]) ∧ framerParse s8.par s8.fs [0x56] = (2, [.framingError]) ∧
    framerParse s8.par s8.fs [0x57] = (3, [.data 0 1 [1]]) ∧ framerParse s8.par s8.fs [] = (0, []) :=
  ⟨s8_ready, rfl, rfl, rfl, rfl⟩

theorem witness_StatusReadsReturnTheirValues : ReadyNested s8 ∧ ReadyNested { s8 with ctx := ⟨true, 1, 1, 10⟩ } := s8_readyNested

theorem witness_StatusClearZeroesTheCounters : ReadyNested s8 := s8_readyNested.1

theorem witness_FinalizeEndsTheBlock :
    Ready s8 ∧ { s8 with life := Life.finalized }.life = .finalized ∧ ∀ c, Instr.process ≠ .init c := ⟨s8_ready, rfl, by simp⟩

theorem witness_DisconnectedHandlersRaiseNoEvent : s0.conn.state = .disconnected := rfl

theorem witness_NestedCommandsRunAsAtThePort :
    { s8 with ctx := ⟨true, 1, 1, 10⟩ }.ctx.cbDepth ≠ 0 ∧ { s8 with ctx := ⟨true, 255, 1, 10⟩ }.ctx.cbDepth ≠ 0 ∧
    Instr.process ≠ .resetTxFromEvent ∧ s8.ctx.cbDepth ≠ 255 ∧ { s8 with ctx := ⟨true, 254, 1, 10⟩ }.ctx.cbDepth ≠ 255 := by decide

/-- A handler that sends, then is refused PROCESS: both commands run at `cb_depth` 1, in order, and the callback ends at 0 (R309). -/
theorem test_callback :
    let s := { s8 with port := ⟨10, 0, [], [[⟨0x2000000000010001, .bytes [1]⟩, ⟨0x4000000000000000, .bytes []⟩]], 0⟩ }
    let t := upRecv 7 [9] s
    t.out = [.upRecv 7 [9], .wake, .status .success, .refused .nestedCommand] ∧ t.ctx.cbDepth = 0 ∧ t.tx.nextId = 1 ∧ t.fault = 0x40 := by
  decide +kernel

theorem witness_ProcessingContextNeverPulsesWake : ∃ t, exec .process busy = .next t := ⟨_, rfl⟩

theorem witness_StoredFramesAreNotModified :
    (∃ t, exec .process busy = .next t) ∧ busy.port.handlers = [] ∧ (∀ c, Instr.process ≠ .init c) ∧
    (∀ a m p, Instr.process ≠ .send a m p) ∧ ∀ n, Instr.process ≠ .txWindowSet n :=
  ⟨⟨_, rfl⟩, rfl, by simp, by simp, by simp⟩

end Sys2Proof.Tests
end

section
/-! PROOFS. The statements of 10_state.md on a step: what it keeps of the fault register, the lifecycle, the configuration, the
outputs, the context marks, and the invariants of the ring, the TX unit and the RX unit.

Two inversion lemmas say what a step can be. `step_commandFrame` is for the fields that no command changes or that only grow.
`step_keeps` is for the invariants: a step keeps them all from the state it found, or, when it is INIT's success, from the reset
state of a valid configuration. -/

namespace Sys2Proof.Proofs.StateRules

open Sys2Proof Sys2Proof.Machine Sys2Proof.Laws

/-! ### The frame of one step -/

/-- A step does nothing, or takes one input and keeps the frame of some command. -/
theorem step_commandFrame {s t : State} (h : step s = .next t) :
    t = s ∨ ∃ i e rest, CommandFrame i (latch e rest s) t := by
  rcases step_frame s t h with ⟨-, rfl⟩ | ⟨x, rest, -, hsame | ⟨i, hframe, -⟩⟩
  · exact .inl rfl
  · exact .inr ⟨.process, x.env, rest, hsame.command⟩
  · exact .inr ⟨i, x.env, rest, hframe⟩

/-- Settles O12: the power-on register and a refusal's bit are the model's definitions; that no bit goes is in the frame of the step. -/
theorem faultIsNeverCleared : Obligations.FaultIsNeverCleared := by
  refine ⟨rfl, fun r s => refuse_fault s r, fun s t h => ?_⟩
  rcases step_commandFrame h with rfl | ⟨i, e, rest, hframe⟩
  · exact BitVec.and_self
  · exact hframe.fault

/-- Settles O14, by the frame of the step. -/
theorem stepKeepsParametersConfigurationAndPastOutputs : Obligations.StepKeepsParametersConfigurationAndPastOutputs := by
  intro s t h
  rcases step_commandFrame h with rfl | ⟨i, e, rest, hframe⟩
  · exact ⟨rfl, fun _ => rfl, [], (List.append_nil _).symm⟩
  · exact ⟨hframe.par, hframe.cfg, hframe.out⟩

/-- Settles O16: a command leaves `in_process` as it was or clears it, and gives `cb_depth` back as it found it. -/
theorem stepKeepsQuiescence : Obligations.StepKeepsQuiescence := by
  rintro s t ⟨hproc, hdepth⟩ h
  rcases step_commandFrame h with rfl | ⟨i, e, rest, hframe⟩
  · exact ⟨hproc, hdepth⟩
  · refine ⟨?_, hframe.cbDepth.trans hdepth⟩
    rcases hframe.inProcess with hp | hp
    · exact hp.trans hproc
    · exact hp

/-! ### The lifecycle (R22, R305 orders 4 to 6) -/

/-- Outside its place in the lifecycle a command is refused: INIT once the block left Uninit, any other command while it is not Active. -/
theorem refusalOf_out_of_life {i : Instr} {s : State}
    (h : (isInit i = false ∧ s.life ≠ .active) ∨ (isInit i = true ∧ s.life ≠ .uninit)) : ∃ r, refusalOf i s = some r := by
  unfold refusalOf
  rcases h with ⟨hi, hl⟩ | ⟨hi, hl⟩
  · cases hlife : s.life with
    | uninit => exact ⟨.notInitialized, by simp [hi]⟩
    | active => exact absurd hlife hl
    | finalized => exact ⟨.finalized, by simp [hi]⟩
  · exact ⟨.alreadyInitialized, by simp [hi, hl]⟩

/-- INIT is admitted in an Uninit block only. -/
theorem life_of_refusalOf_init {c : CfgRecord} {s : State} (h : refusalOf (.init c) s = none) : s.life = .uninit := by
  by_contra hl
  obtain ⟨r, hr⟩ := refusalOf_out_of_life (i := .init c) (s := s) (.inr ⟨rfl, hl⟩)
  rw [hr] at h
  exact absurd h (by simp)

/-- Settles O13: the moves are the command frame's, and a command out of its place meets a refusal of orders 4 to 6. -/
theorem lifecycleMovesOnlyForward : Obligations.LifecycleMovesOnlyForward := by
  intro i s t h
  obtain ⟨u, hu, hframe⟩ := frame_exec i s
  obtain rfl : u = t := by rw [hu] at h; exact Host.Outcome.next.inj h
  refine ⟨hframe.life, fun hout => ?_⟩
  have hrefused : ∃ r, refusalOf i s = some r := by
    refine refusalOf_out_of_life ?_
    rwa [← Bool.not_eq_true, isInit_iff, not_exists]
  obtain ⟨r, hr⟩ := hrefused
  rw [exec_refused i s r hr] at h
  exact ⟨r, (Host.Outcome.next.inj h).symm⟩

/-! ### What INIT leaves (R250, R251) -/

/-- The three ends of INIT: a refusal, a configuration that is not valid, or the loaded registers with their local reset. -/
theorem exec_init_cases (c : CfgRecord) (s : State) :
    (∃ r, exec (.init c) s = .next (refuse r s)) ∨ exec (.init c) s = .next (answer .parameterInvalid s) ∨
      (s.life = .uninit ∧ cfgValid s.par c = true ∧
        exec (.init c) s = .next (answer .success (localReset (initRegisters c s)))) := by
  show (∃ r, execInit c s = _) ∨ execInit c s = _ ∨ (_ ∧ _ ∧ execInit c s = _)
  unfold execInit
  split
  · exact .inl ⟨_, rfl⟩
  · rename_i hr
    unfold initBody
    split
    · rename_i hv
      exact .inr (.inr ⟨life_of_refusalOf_init hr, hv, rfl⟩)
    · exact .inr (.inl rfl)

/-- `Valid(cfg)`, its five tests by name (R251). -/
theorem cfgValid_iff (p : Params) (c : CfgRecord) : cfgValid p c = true ↔
    (1 ≤ c.txWindowSize.toNat ∧ c.txWindowSize.toNat ≤ Config.txSlots) ∧
    (1 ≤ c.rxWindowSize.toNat ∧ c.rxWindowSize.toNat ≤ Config.rxSlots) ∧
    (c.txLinkSize.toNat ≤ p.linkDepthMax ∧ (c.txLinkSize.toNat ≠ 0 ∨ pow2Ceil c.rxWindowSize.toNat ≤ p.linkDepthMax)) ∧
    p.frameBytesMax ≤ c.txBufferSize.toNat ∧ (1 ≤ c.txTimeout.toInt ∧ c.txTimeout.toInt ≤ 2 ^ 58) := by
  simp only [cfgValid, Bool.and_eq_true, Bool.or_eq_true, decide_eq_true_eq]
  tauto

/-- The window register of a size up to 1024 holds the power of two exactly (R21, R137). -/
theorem pow2Ceil_register (w n : Nat) (hw : 11 ≤ w) (hn : n ≤ 1024) :
    ∃ k, k ≤ 10 ∧ (BitVec.ofNat w (pow2Ceil n)).toNat = 2 ^ k ∧ pow2Ceil n = 2 ^ k := by
  obtain ⟨k, hk, hpow, -⟩ := pow2Ceil_small n hn
  refine ⟨k, hk, ?_, hpow⟩
  rw [hpow, BitVec.toNat_ofNat, Nat.mod_eq_of_lt (Nat.pow_lt_pow_right (by norm_num) (by omega))]

/-- A valid configuration gives legal configuration registers (R21). -/
theorem cfgInv_initRegisters {c : CfgRecord} {s : State} (h : cfgValid s.par c = true) : CfgInv (initRegisters c s) := by
  obtain ⟨⟨-, htx⟩, ⟨-, hrx⟩, ⟨hlink, hdepth⟩, hbuf, htime⟩ := (cfgValid_iff _ _).mp h
  obtain ⟨j, hj, hjreg, -⟩ := pow2Ceil_register 11 _ le_rfl htx
  obtain ⟨k, hk, hkreg, -⟩ := pow2Ceil_register 11 _ le_rfl hrx
  refine ⟨⟨j, hj, hjreg⟩, ⟨k, hk, hkreg⟩, ?_, hbuf, htime⟩
  show 1 ≤ (cfgOf c).txLinkSize.toNat ∧ (cfgOf c).txLinkSize.toNat ≤ s.par.linkDepthMax
  unfold cfgOf
  dsimp only
  split
  · rename_i h0
    obtain ⟨k', -, hreg, hpow⟩ := pow2Ceil_register 32 _ (by norm_num) hrx
    have hle : pow2Ceil c.rxWindowSize.toNat ≤ s.par.linkDepthMax := by simpa [h0] using hdepth
    rw [hreg]
    exact ⟨Nat.one_le_two_pow, hpow ▸ hle⟩
  · rename_i h0
    have hne : c.txLinkSize.toNat ≠ 0 := fun e => h0 (BitVec.eq_of_toNat_eq e)
    exact ⟨Nat.one_le_iff_ne_zero.mpr hne, hlink⟩

/-- The state that INIT's registers and its local reset's registers give, before the reset's push (R250, R200). -/
def freshBlock (c : CfgRecord) (s : State) : State := resetRegisters (initRegisters c s)

theorem cfgInv_freshBlock {c : CfgRecord} {s : State} (h : cfgValid s.par c = true) : CfgInv (freshBlock c s) :=
  cfgInv_initRegisters h

theorem txInv_freshBlock {c : CfgRecord} {s : State} (h : cfgValid s.par c = true) :
    TxCountInv (freshBlock c s) ∧ TxInv (freshBlock c s) :=
  txInv_resetRegisters _ (.inr (cfgInv_initRegisters h))

theorem rxInv_freshBlock (c : CfgRecord) (s : State) : RxInv (freshBlock c s) := by
  intro i hi
  rw [freshBlock, rxSlot_resetRegisters] at hi
  exact absurd rfl hi

theorem ringInv_freshBlock {c : CfgRecord} {s : State} (h : cfgValid s.par c = true) : RingInv (freshBlock c s) := by
  obtain ⟨-, -, ⟨hsize, -⟩, -⟩ := cfgInv_freshBlock h
  exact ⟨hsize, Nat.zero_le _⟩

/-- The rest of a local reset, its push and its time stamp, keeps every invariant. -/
theorem keeps_resetQuiet_of_resetRegisters (s : State) : Keeps (resetRegisters s) (resetQuiet s) :=
  have hpush := keeps_linkPush (resetRegisters s) .reset Config.resetRequestId
  hpush.trans (keeps_conn _ id (.inr hpush.now.symm))

/-- INIT's local reset finds a Disconnected block, so it calls nobody. -/
theorem localReset_initRegisters (c : CfgRecord) (s : State) : localReset (initRegisters c s) = resetQuiet (initRegisters c s) := by
  rw [localReset, localResetWith, if_neg (by simp [initRegisters])]

/-! ### What a command and a step keep of the invariants -/

/-- The frame of a command of the processing context keeps what its body keeps. -/
theorem keeps_context (i : Instr) (s : State) (body : State → State) (h : ∀ s, Keeps s (body s)) :
    Keeps s (accept i (rxCommand body) s) := by
  cases hr : refusalOf i s with
  | some r => rw [accept_of_some _ hr]; exact keeps_refuse s r
  | none =>
    rw [accept_of_none _ hr, rxCommand_accepted]
    exact ((keeps_entered s).trans (h _)).trans (keeps_completed _)

/-- Every command but INIT keeps every invariant. -/
theorem keeps_exec (i : Instr) (s : State) (hi : isInit i = false) : ∃ t, exec i s = .next t ∧ Keeps s t := by
  cases i with
  | init c => exact absurd hi (by simp [isInit])
  | send a m p => exact ⟨_, rfl, keeps_accept s _ _ fun s => keeps_sendBody s a m p⟩
  | txWindowSet n => exact ⟨_, rfl, keeps_accept s _ _ fun s => keeps_windowSetBody s n⟩
  | process => exact ⟨_, rfl, keeps_context _ s _ keeps_processSteps⟩
  | llRecv d => exact ⟨_, rfl, keeps_context _ s _ fun s => keeps_llRecvProc s d⟩
  | statusGet => exact ⟨_, rfl, keeps_accept s _ _ fun s => (keeps_emit s _).trans (keeps_answer _ _)⟩
  | statusClear => exact ⟨_, rfl, keeps_accept s _ _ fun s => (keeps_statusClear s).trans (keeps_answer _ _)⟩
  | rxData f m p => exact ⟨_, rfl, keeps_context _ s _ fun s => keeps_rxDataProc s f m p⟩
  | rxLink t f => exact ⟨_, rfl, keeps_context _ s _ fun s => keeps_rxLinkProc s t f⟩
  | rxLinkAckAll f => exact ⟨_, rfl, keeps_context _ s _ fun s => keeps_ackAll s f⟩
  | rxLinkAckOne f => exact ⟨_, rfl, keeps_context _ s _ fun s => keeps_ackOne s f⟩
  | rxLinkNackFrameId f => exact ⟨_, rfl, keeps_context _ s _ fun s => keeps_nackFrame s f⟩
  | rxLinkNackFramingError f => exact ⟨_, rfl, keeps_context _ s _ fun s => keeps_nackFrame s f⟩
  | rxLinkResetReq => exact ⟨_, rfl, keeps_context _ s _ fun s => keeps_onReset s _⟩
  | rxLinkResetRsp => exact ⟨_, rfl, keeps_context _ s _ fun s => keeps_onReset s _⟩
  | rxLinkResetOther f => exact ⟨_, rfl, keeps_context _ s _ fun s => keeps_onReset s f⟩
  | rxFramingError => exact ⟨_, rfl, keeps_context _ s _ keeps_rxFramingErrorProc⟩
  | resetTxFromEvent => exact ⟨_, rfl, keeps_accept s _ _ fun s => (keeps_localReset s).trans (keeps_answer _ _)⟩
  | serviceInterval => exact ⟨_, rfl, keeps_accept s _ _ fun s => (keeps_emit s _).trans (keeps_answer _ _)⟩
  | finalize =>
    refine ⟨_, rfl, keeps_accept s _ _ fun s => ?_⟩
    exact Keeps.of_eq rfl rfl rfl rfl rfl rfl rfl (.inl rfl)

/-- What a transition does to the invariants: it keeps them from the state it starts in, and an Uninit block stays Uninit; or it is INIT's
success, and keeps them from the fresh block of a valid configuration. -/
def KeepsOrInits (s t : State) : Prop :=
  (Keeps s t ∧ (s.life = .uninit → t.life = .uninit)) ∨
    ∃ c, s.life = .uninit ∧ cfgValid s.par c = true ∧ Keeps (freshBlock c s) t

theorem keepsOrInits_exec {i : Instr} {s t : State} (h : exec i s = .next t) : KeepsOrInits s t := by
  cases hi : isInit i with
  | true =>
    obtain ⟨c, rfl⟩ := (isInit_iff i).mp hi
    rcases exec_init_cases c s with ⟨r, he⟩ | he | ⟨hl, hv, he⟩ <;> rw [he] at h <;> cases h
    · exact .inl ⟨keeps_refuse s r, id⟩
    · exact .inl ⟨keeps_answer s _, id⟩
    · rw [localReset_initRegisters]
      exact .inr ⟨c, hl, hv, (keeps_resetQuiet_of_resetRegisters _).trans (keeps_answer _ _)⟩
  | false =>
    obtain ⟨u, hu, hkeeps⟩ := keeps_exec i s hi
    obtain ⟨v, hv, hframe⟩ := frame_exec i s
    obtain rfl : u = t := Host.Outcome.next.inj (hu.symm.trans h)
    obtain rfl : v = u := Host.Outcome.next.inj (hv.symm.trans h)
    refine .inl ⟨hkeeps, fun hl => ?_⟩
    rcases hframe.life with e | ⟨-, -, c, rfl⟩ | ⟨e, -, -⟩
    · exact e.trans hl
    · exact absurd hi (by simp [isInit])
    · exact absurd (hl.symm.trans e) (by simp)

/-- A step does nothing, or takes one input and then keeps the invariants or initialises the block. -/
theorem step_keeps {s t : State} (h : step s = .next t) : t = s ∨ ∃ e rest, KeepsOrInits (latch e rest s) t := by
  unfold step at h
  split at h
  · cases h; exact .inl rfl
  rename_i x rest _
  refine .inr ⟨x.env, rest, ?_⟩
  cases x with
  | attempt e =>
    obtain rfl : resumeSend (latch e rest s) = t := Host.Outcome.next.inj h
    exact .inl ⟨keeps_resumeSend _, fun hl => (same_resumeSend _).life.trans hl⟩
  | command w operand e =>
    unfold runInput runWord at h
    dsimp only at h
    split at h
    · cases h; exact .inl ⟨keeps_refuse _ _, id⟩
    · exact keepsOrInits_exec h

/-- The induction step of every invariant of an initialised block: it has to survive the latching of an input and every operation, and to
hold of the fresh block of a valid configuration. -/
theorem step_keeps_invariant {I : State → Prop} (hlatch : ∀ e rest s, I s → I (latch e rest s))
    (hkeeps : ∀ s t, Keeps s t → I s → I t) (hfresh : ∀ c s, cfgValid s.par c = true → I (freshBlock c s))
    {s t : State} (hs : s.life ≠ .uninit → I s) (h : step s = .next t) (ht : t.life ≠ .uninit) : I t := by
  rcases step_keeps h with rfl | ⟨e, rest, ⟨hk, hlife⟩ | ⟨c, -, hv, hk⟩⟩
  · exact hs ht
  · exact hkeeps _ _ hk (hlatch e rest s (hs fun hl => ht (hlife hl)))
  · exact hkeeps _ _ hk (hfresh c _ hv)

/-- Settles O18, by the induction step for the ring's bounds. -/
theorem stepKeepsRingBounds : Obligations.StepKeepsRingBounds := fun _ _ =>
  step_keeps_invariant (I := RingInv) (fun _ _ _ => id) (fun _ _ hk => hk.ring) (fun _ _ => ringInv_freshBlock)

/-- Settles O19, by the induction step for the configuration's and the TX unit's invariants together. -/
theorem stepKeepsTxInvariants : Obligations.StepKeepsTxInvariants := fun _ _ =>
  step_keeps_invariant (I := fun s => CfgInv s ∧ TxCountInv s ∧ TxInv s) (fun _ _ _ => id)
    (fun _ _ hk ⟨hcfg, htx⟩ => ⟨cfgInv_congr hk.cfg hk.par hcfg, hk.tx hcfg htx⟩)
    (fun _ _ hv => ⟨cfgInv_freshBlock hv, txInv_freshBlock hv⟩)

/-- A held RX slot lies below the window: it sits at its id's index, which is a remainder modulo the window. -/
theorem rxSlot_idle_of_window_le {s : State} (hcfg : CfgInv s) (hrx : RxInv s) (i : Nat) (hi : s.cfg.rxWindowSize.toNat ≤ i) :
    (rxSlot s i).state = .idle := by
  by_contra hne
  obtain ⟨-, hindex⟩ := hrx i hne
  have hlt : rxIndex s (rxSlot s i).frameId < s.cfg.rxWindowSize.toNat := slotIndex_lt _ _ (cfgInv_rxWindow hcfg).1
  omega

/-- Settles O20: the invariant is kept as the TX one is, and the slots above the window follow from it. -/
theorem stepKeepsRxInvariants : Obligations.StepKeepsRxInvariants := by
  intro s t hs h ht
  obtain ⟨hcfg, hrx⟩ : CfgInv t ∧ RxInv t :=
    step_keeps_invariant (I := fun s => CfgInv s ∧ RxInv s) (fun _ _ _ => id)
      (fun _ _ hk ⟨hcfg, hrx⟩ => ⟨cfgInv_congr hk.cfg hk.par hcfg, hk.rx hcfg hrx⟩)
      (fun c s hv => ⟨cfgInv_freshBlock hv, rxInv_freshBlock c s⟩) hs h ht
  exact ⟨hcfg, hrx, rxSlot_idle_of_window_le hcfg hrx⟩

end Sys2Proof.Proofs.StateRules
end

section
/-! PROOFS. Which command connects a Disconnected block (R23, R205): procedure by procedure, a Disconnected block stays so, but for the
RESET response. -/

namespace Sys2Proof.Proofs.Connecting

open Sys2Proof Sys2Proof.Machine Sys2Proof.Laws

/-- The block is Disconnected (R23). -/
def Disconnected (s : State) : Prop := s.conn.state = .disconnected

/-- The connection unit alone says whether the block is Disconnected. -/
theorem Disconnected.of_conn {s t : State} (h : Disconnected s) (hc : t.conn = s.conn) : Disconnected t :=
  (congrArg Conn.state hc).trans h

/-! ### Procedures that leave the connection alone -/

theorem timeoutScan_conn (s : State) : (timeoutScan s).conn = s.conn := by
  unfold timeoutScan
  generalize txWindow s = l
  induction l generalizing s with
  | nil => rfl
  | cons f l ih =>
    refine (ih (timeoutOne s f)).trans ?_
    unfold timeoutOne
    dsimp only
    split <;> rfl

theorem retireMany_conn (k : Nat) (s : State) : (retireMany k s).conn = s.conn := by
  induction k generalizing s with
  | zero => rfl
  | succ k ih => exact ih (retireHead s)

theorem retireAcked_conn (k : Nat) (s : State) : (retireAcked k s).conn = s.conn := by
  induction k generalizing s with
  | zero => rfl
  | succ k ih =>
    unfold retireAcked
    split
    · exact ih (retireHead s)
    · rfl

theorem ackAll_conn (f : FrameId) (s : State) : (ackAll f s).conn = s.conn := by
  unfold ackAll
  split
  · rfl
  · exact (retireAcked_conn _ _).trans (retireMany_conn _ _)

theorem ackOne_conn (f : FrameId) (s : State) : (ackOne f s).conn = s.conn := by
  unfold ackOne
  dsimp only
  split_ifs <;> rfl

theorem nackFrame_conn (f : FrameId) (s : State) : (nackFrame f s).conn = s.conn := by
  unfold nackFrame
  dsimp only
  split_ifs <;> simp

theorem transmit_conn (i : Nat) (s : State) : (transmit i s).conn = s.conn := by
  unfold transmit
  dsimp only
  split_ifs <;> simp

theorem drainWords_conn (k : Nat) (s : State) : (drainWords k s).conn = s.conn := by
  unfold drainWords
  dsimp only
  split <;> rfl

theorem linkDrain_conn (s : State) : (linkDrain s).conn = s.conn := by
  unfold linkDrain
  dsimp only
  split_ifs
  · rfl
  · exact llAvail_conn s
  · exact (drainWords_conn _ _).trans (llAvail_conn s)

theorem eofCheck_conn (s : State) : (eofCheck s).conn = s.conn := by
  unfold eofCheck
  dsimp only
  split_ifs <;> simp

theorem rearm_conn (s : State) : (rearm s).conn = s.conn := rfl

theorem resetResend_connState (s : State) : (resetResend s).conn.state = s.conn.state := by
  unfold resetResend
  split <;> simp

/-- The transmission scan can reset the link, and a reset disconnects (R141, R200). -/
theorem txScanFrom_disconnected {s : State} (l : List FrameId) (h : Disconnected s) : Disconnected (txScanFrom s l) := by
  induction l with
  | nil => exact h
  | cons f l ih =>
    unfold txScanFrom
    dsimp only
    split_ifs
    · exact localReset_disconnected s
    · exact h.of_conn (transmit_conn _ s)
    · exact ih

theorem processSteps_disconnected {s : State} (h : Disconnected s) : Disconnected (processSteps s) := by
  rw [processSteps, Disconnected, rearm_conn, eofCheck_conn]
  refine txScanFrom_disconnected _ ?_
  rw [Disconnected, linkDrain_conn, timeoutScan_conn, resetResend_connState]
  exact h

/-! ### Received frames in a Disconnected block -/

theorem Disconnected.ne_connected {s : State} (h : Disconnected s) : s.conn.state ≠ .connected := by
  rw [h]
  simp

/-- A Disconnected block ignores data frames (R171). -/
theorem rxDataProc_eq_of_disconnected {s : State} (f : FrameId) (m : Metadata) (p : List Byte) (h : Disconnected s) :
    rxDataProc f m p s = s := if_pos h.ne_connected

/-- A Disconnected block ignores framing errors (R182). -/
theorem rxFramingErrorProc_eq_of_disconnected {s : State} (h : Disconnected s) : rxFramingErrorProc s = s :=
  if_pos h.ne_connected

/-- A received RESET connects only with the response's id (R202, R203, R205, R208). -/
theorem onReset_disconnected {s : State} {f : FrameId} (hf : f ≠ Config.resetResponseId) (h : Disconnected s) :
    Disconnected (onReset f s) := by
  unfold onReset
  rw [if_neg hf]
  split
  · rw [onResetRequest, if_pos (.inl h), Disconnected, linkPush_conn]
    exact h
  · exact h

/-- A link-control frame that is no RESET response leaves a Disconnected block so. -/
theorem rxLinkProc_disconnected {s : State} {t : BitVec 5} {f : FrameId} (hne : ¬ (t = s.par.codes.reset ∧ f = Config.resetResponseId))
    (h : Disconnected s) : Disconnected (rxLinkProc t f s) := by
  unfold rxLinkProc
  split_ifs with _ _ _ _ hreset
  · exact h.of_conn (ackAll_conn f s)
  · exact h.of_conn (ackOne_conn f s)
  · exact h.of_conn (nackFrame_conn f s)
  · exact h.of_conn (nackFrame_conn f s)
  · exact onReset_disconnected (fun hf => hne ⟨hreset, hf⟩) h
  · exact h

/-- The framer's events leave a Disconnected block so, if none is a RESET response. -/
theorem framerEvents_disconnected (events : List FramerEvent) (s : State)
    (hne : FramerEvent.link s.par.codes.reset Config.resetResponseId ∉ events) (h : Disconnected s) :
    Disconnected (events.foldl framerEvent s) := by
  induction events generalizing s with
  | nil => exact h
  | cons e events ih =>
    rw [List.mem_cons, not_or] at hne
    obtain ⟨hhead, htail⟩ := hne
    refine ih (framerEvent s e) (by rwa [(same_framerEvent s e).par]) ?_
    cases e with
    | data f m p => exact h.of_conn (congrArg State.conn (rxDataProc_eq_of_disconnected f m p h))
    | framingError => exact h.of_conn (congrArg State.conn (rxFramingErrorProc_eq_of_disconnected h))
    | link t f => exact rxLinkProc_disconnected (fun ⟨ht, hf⟩ => hhead (by rw [ht, hf])) h

theorem llRecvProc_disconnected {s : State} {data : List Byte}
    (hne : FramerEvent.link s.par.codes.reset Config.resetResponseId ∉ (framerParse s.par s.fs data).2) (h : Disconnected s) :
    Disconnected (llRecvProc data s) :=
  framerEvents_disconnected _ { s with fs := (framerParse s.par s.fs data).1 } hne h

/-! ### Whole commands -/

/-- A command of the processing context stays Disconnected if its body does, from the state it enters. -/
theorem accept_rxCommand_disconnected (i : Instr) {s : State} (body : State → State) (h : Disconnected s)
    (hbody : Disconnected (body (entered s))) : Disconnected (accept i (rxCommand body) s) := by
  cases hr : refusalOf i s with
  | some r => rw [accept_of_some _ hr]; exact h
  | none => rw [accept_of_none _ hr, rxCommand_accepted]; exact hbody

theorem exec_init_disconnected (c : CfgRecord) {s : State} (h : Disconnected s) :
    ∃ t, exec (.init c) s = .next t ∧ Disconnected t := by
  rcases StateRules.exec_init_cases c s with ⟨r, he⟩ | he | ⟨-, -, he⟩
  · exact ⟨_, he, h⟩
  · exact ⟨_, he, h⟩
  · exact ⟨_, he, localReset_disconnected _⟩

/-- The instruction can bring a RESET response to the block in state `s` (R205): the RX_LINK rows that carry one, and an LL_RECV in whose
bytes the framer finds one. -/
def BringsResetResponse (s : State) : Instr → Prop
  | .rxLinkResetRsp => True
  | .llRecv data => .link s.par.codes.reset Config.resetResponseId ∈ (framerParse s.par s.fs data).2
  | .rxLink t f => t = s.par.codes.reset ∧ f = Config.resetResponseId
  | .rxLinkResetOther f => f = Config.resetResponseId
  | _ => False

/-- Without a RESET response, a command leaves a Disconnected block so. -/
theorem exec_disconnected (i : Instr) {s : State} (hi : ¬ BringsResetResponse s i) (h : Disconnected s) :
    ∃ t, exec i s = .next t ∧ Disconnected t := by
  cases i with
  | init c => exact exec_init_disconnected c h
  | send a m p => exact ⟨_, rfl, accept_disconnected _ _ (fun s h => (sendBody_connState s a m p).trans h) h⟩
  | txWindowSet n => exact ⟨_, rfl, accept_disconnected _ _ (fun s h => Disconnected.of_conn h (windowSetBody_conn s n)) h⟩
  | process => exact ⟨_, rfl, accept_rxCommand_disconnected _ _ h (processSteps_disconnected h)⟩
  | llRecv d => exact ⟨_, rfl, accept_rxCommand_disconnected _ _ h (llRecvProc_disconnected hi h)⟩
  | statusGet => exact ⟨_, rfl, accept_disconnected _ _ (fun _ h => h) h⟩
  | statusClear => exact ⟨_, rfl, accept_disconnected _ _ (fun _ h => h) h⟩
  | rxData f m p =>
    refine ⟨_, rfl, accept_rxCommand_disconnected _ _ h ?_⟩
    rw [rxDataProc_eq_of_disconnected (s := entered s) f m p h]
    exact h
  | rxLink t f => exact ⟨_, rfl, accept_rxCommand_disconnected _ _ h (rxLinkProc_disconnected hi h)⟩
  | rxLinkAckAll f => exact ⟨_, rfl, accept_rxCommand_disconnected _ _ h (h.of_conn (ackAll_conn f _))⟩
  | rxLinkAckOne f => exact ⟨_, rfl, accept_rxCommand_disconnected _ _ h (h.of_conn (ackOne_conn f _))⟩
  | rxLinkNackFrameId f =>
    exact ⟨_, rfl, accept_rxCommand_disconnected _ _ h (h.of_conn (nackFrame_conn f _))⟩
  | rxLinkNackFramingError f =>
    exact ⟨_, rfl, accept_rxCommand_disconnected _ _ h (h.of_conn (nackFrame_conn f _))⟩
  | rxLinkResetReq => exact ⟨_, rfl, accept_rxCommand_disconnected _ _ h (onReset_disconnected (by decide) h)⟩
  | rxLinkResetRsp => exact absurd trivial hi
  | rxLinkResetOther f => exact ⟨_, rfl, accept_rxCommand_disconnected _ _ h (onReset_disconnected hi h)⟩
  | rxFramingError =>
    refine ⟨_, rfl, accept_rxCommand_disconnected _ _ h ?_⟩
    rw [rxFramingErrorProc_eq_of_disconnected (s := entered s) h]
    exact h
  | resetTxFromEvent => exact ⟨_, rfl, accept_disconnected _ _ (fun s _ => localReset_disconnected s) h⟩
  | serviceInterval => exact ⟨_, rfl, accept_disconnected _ _ (fun _ h => h) h⟩
  | finalize => exact ⟨_, rfl, accept_disconnected _ _ (fun _ h => h) h⟩

/-- Settles O48: a command that connects brings a RESET response, and these are the instructions that can. -/
theorem onlyAResetResponseConnects : Obligations.OnlyAResetResponseConnects := by
  intro i s t hs h ht
  have hbrings : BringsResetResponse s i := by
    by_contra hi
    obtain ⟨u, hu, hdisc⟩ := exec_disconnected i hi hs
    obtain rfl : u = t := Host.Outcome.next.inj (hu.symm.trans h)
    exact hdisc.ne_connected ht
  cases i with
  | rxLinkResetRsp => exact .inl rfl
  | llRecv data => exact .inr (.inl ⟨data, rfl, hbrings⟩)
  | rxLink t f =>
    obtain ⟨rfl, rfl⟩ := hbrings
    exact .inr (.inr (.inl rfl))
  | rxLinkResetOther f =>
    obtain rfl : f = Config.resetResponseId := hbrings
    exact .inr (.inr (.inr rfl))
  | _ => exact hbrings.elim

end Sys2Proof.Proofs.Connecting
end

section
/-! PROOFS. The statements of 20_memory.md on the form of the block's memories and on the byte order of a link-control word. -/

namespace Sys2Proof.Proofs.MemoryForm

open Sys2Proof Sys2Proof.Machine Sys2Proof.Laws

/-! ### The byte order of a link-control word (R63, R234) -/

/-- An appended word, as a number: its low part below its high part. -/
theorem toNat_append_eq_add {v w : Nat} (x : BitVec v) (y : BitVec w) : (x ++ y).toNat = x.toNat * 2 ^ w + y.toNat := by
  rw [BitVec.toNat_append, ← Nat.shiftLeft_add_eq_or_of_lt y.isLt, Nat.shiftLeft_eq]

/-- R63's packing formula. -/
theorem packWord_toNat (b : LinkBytes) : (packWord b).toNat =
    b.b0.toNat + b.b1.toNat * 2 ^ 8 + b.b2.toNat * 2 ^ 16 + b.b3.toNat * 2 ^ 24 +
      b.b4.toNat * 2 ^ 32 + b.b5.toNat * 2 ^ 40 + b.b6.toNat * 2 ^ 48 + b.b7.toNat * 2 ^ 56 := by
  simp only [packWord, toNat_append_eq_add]
  ring

/-- R234's bytes of a packed word: byte `k` is reached by dropping the `k` bytes below it. -/
theorem wordBytes_packWord (b : LinkBytes) : wordBytes (packWord b) = [b.b0, b.b1, b.b2, b.b3, b.b4, b.b5, b.b6, b.b7] := by
  simp only [wordBytes, packWord, extract_append_high, Nat.reduceLeDiff, Nat.le_refl, Nat.reduceSub, extract_lowest, extract_whole]

/-- Settles O4, by the two laws of the packed word. -/
theorem linkWordKeepsTheWireOrder : Obligations.LinkWordKeepsTheWireOrder := fun b =>
  ⟨packWord_toNat b, wordBytes_packWord b⟩

/-! ### The canonical form of every memory (R60, R43; log entry 15) -/

/-- INIT's zero fill empties every table, whatever it held. -/
theorem memoryInv_initRegisters (c : CfgRecord) (s : State) : MemoryInv (initRegisters c s) :=
  ⟨tableWf_nil _, tableWf_nil _, tableWf_nil _, fun _ => tableWf_nil _, fun _ => tableWf_nil _⟩

theorem memoryInv_freshBlock (c : CfgRecord) (s : State) : MemoryInv (StateRules.freshBlock c s) :=
  (keeps_resetRegisters _).mem (memoryInv_initRegisters c s)

/-- Settles O17: a step keeps the form from the state it found, which the latching of an input does not touch, or, when it is INIT's
success, from the fresh block. -/
theorem stepKeepsMemoryForm : Obligations.StepKeepsMemoryForm := by
  intro s t hs h
  rcases StateRules.step_keeps h with rfl | ⟨e, rest, ⟨hk, -⟩ | ⟨c, -, -, hk⟩⟩
  · exact hs
  · exact hk.mem hs
  · exact hk.mem (memoryInv_freshBlock c _)

end Sys2Proof.Proofs.MemoryForm
end

section
/-! PROOFS. Stored TX frames (R61): without nested commands, every procedure but SEND, TX_WINDOW_SET and INIT leaves each TX slot's bytes
and length as they are. One lemma per procedure: most of them leave the TX unit alone, and the others write a slot's state, count or
time. -/

namespace Sys2Proof.Proofs.StoredFrames

open Sys2Proof Sys2Proof.Machine Sys2Proof.Laws

/-- From a state with no handler script left, `t` has none either and holds the same frame in every TX slot. -/
structure FramesKept (s t : State) : Prop where
  handlers : s.port.handlers = [] → t.port.handlers = []
  frame : s.port.handlers = [] → ∀ k, (txSlot t k).bytes = (txSlot s k).bytes ∧ (txSlot t k).len = (txSlot s k).len

theorem FramesKept.refl (s : State) : FramesKept s s := ⟨id, fun _ _ => ⟨rfl, rfl⟩⟩

theorem FramesKept.trans {s t u : State} (h : FramesKept s t) (k : FramesKept t u) : FramesKept s u where
  handlers hs := k.handlers (h.handlers hs)
  frame hs i := by
    obtain ⟨hbytes, hlen⟩ := h.frame hs i
    obtain ⟨kbytes, klen⟩ := k.frame (h.handlers hs) i
    exact ⟨kbytes.trans hbytes, klen.trans hlen⟩

/-- An update that leaves the TX unit and the handlers' scripts alone. -/
theorem FramesKept.of_tx {s t : State} (htx : t.tx = s.tx) (hh : t.port.handlers = s.port.handlers) : FramesKept s t where
  handlers := hh.trans
  frame _ k := by rw [txSlot_congr s htx k]; exact ⟨rfl, rfl⟩

/-- An update of that kind before what keeps the frames. -/
theorem FramesKept.from_tx {s t u : State} (h : FramesKept t u) (htx : t.tx = s.tx) (hh : t.port.handlers = s.port.handlers) :
    FramesKept s u := (FramesKept.of_tx htx hh).trans h

theorem framesKept_foldl {α : Type} (f : State → α → State) (h : ∀ s a, FramesKept s (f s a)) (l : List α) (s : State) :
    FramesKept s (l.foldl f s) := by
  induction l generalizing s with
  | nil => exact .refl s
  | cons a l ih => exact (h s a).trans (ih _)

/-! ### Shared operations -/

section

variable (s : State)

theorem framesKept_answer (st : Status) : FramesKept s (answer st s) := .of_tx rfl rfl

theorem framesKept_refuse (r : RefuseReason) : FramesKept s (refuse r s) := .of_tx rfl rfl

theorem framesKept_requestTick : FramesKept s (requestTick s) := .of_tx (requestTick_tx s) (by rw [requestTick_port])

theorem framesKept_linkPush (t : LinkType) (f : FrameId) : FramesKept s (linkPush t f s) :=
  .of_tx (linkPush_tx s t f) (by rw [linkPush_port])

theorem framesKept_llAvail : FramesKept s (llAvail s).2 := .of_tx (llAvail_tx s) (llAvail_handlers s)

/-- A write to a TX slot that keeps the slot's frame. -/
theorem framesKept_setTxSlot {s : State} (i : Nat) (v : TxSlot) (hv : v.bytes = (txSlot s i).bytes ∧ v.len = (txSlot s i).len) :
    FramesKept s (setTxSlot i v s) where
  handlers := id
  frame _ k := by
    rw [txSlot_setTxSlot]
    split
    · rename_i hk; rw [hk]; exact hv
    · exact ⟨rfl, rfl⟩

theorem framesKept_accept (i : Instr) (body : State → State) (h : ∀ s, FramesKept s (body s)) :
    FramesKept s (accept i body s) := by
  cases hr : refusalOf i s with
  | some r => rw [accept_of_some _ hr]; exact framesKept_refuse s r
  | none =>
    rw [accept_of_none _ hr]
    exact (h (accepted s)).from_tx rfl rfl

/-- A command of the processing context keeps the frames that its body keeps. -/
theorem framesKept_context (i : Instr) (body : State → State) (h : ∀ s, FramesKept s (body s)) :
    FramesKept s (accept i (rxCommand body) s) := by
  refine framesKept_accept s i _ fun s => ?_
  have hbody : FramesKept s (body { s with ctx := { s.ctx with inProcess := true } }) := (h _).from_tx rfl rfl
  exact hbody.trans (.of_tx rfl rfl)

/-! ### Acknowledgements and the timeout scan (R138, R144 to R151) -/

theorem framesKept_retireHead : FramesKept s (retireHead s) := by
  have hslot : FramesKept s (setTxSlot (txIndex s s.tx.lastId)
      { txSlot s (txIndex s s.tx.lastId) with state := .idle, sendCount := 0 } s) := framesKept_setTxSlot _ _ ⟨rfl, rfl⟩
  exact ⟨hslot.handlers, hslot.frame⟩

theorem framesKept_retireMany (k : Nat) (s : State) : FramesKept s (retireMany k s) := by
  induction k generalizing s with
  | zero => exact .refl s
  | succ k ih => exact (framesKept_retireHead s).trans (ih _)

theorem framesKept_retireAcked (k : Nat) (s : State) : FramesKept s (retireAcked k s) := by
  induction k generalizing s with
  | zero => exact .refl s
  | succ k ih =>
    unfold retireAcked
    split
    · exact (framesKept_retireHead s).trans (ih _)
    · exact .refl s

theorem framesKept_ackAll (f : FrameId) : FramesKept s (ackAll f s) := by
  unfold ackAll
  split
  · exact .refl s
  · exact (framesKept_retireMany _ s).trans (framesKept_retireAcked _ _)

theorem framesKept_ackOne (f : FrameId) : FramesKept s (ackOne f s) := by
  unfold ackOne
  dsimp only
  split_ifs
  · exact .refl s
  · exact framesKept_setTxSlot _ _ ⟨rfl, rfl⟩
  · exact .refl s

theorem framesKept_nackFrame (f : FrameId) : FramesKept s (nackFrame f s) := by
  unfold nackFrame
  dsimp only
  split_ifs
  · exact .refl s
  · refine FramesKept.trans ?_ (framesKept_requestTick _)
    exact framesKept_setTxSlot _ _ ⟨rfl, rfl⟩
  · exact .refl s

theorem framesKept_timeoutScan : FramesKept s (timeoutScan s) := by
  refine framesKept_foldl _ (fun s f => ?_) _ s
  unfold timeoutOne
  dsimp only
  split
  · exact framesKept_setTxSlot _ _ ⟨rfl, rfl⟩
  · exact .refl s

/-! ### Resets and callbacks (R200 to R208, R309) -/

/-- A reset empties the TX window and leaves the frames in their slots (R200). -/
theorem framesKept_resetRegisters : FramesKept s (resetRegisters s) where
  handlers := id
  frame _ k := by rw [txSlot_resetRegisters]; exact ⟨rfl, rfl⟩

/-- A callback with no handler script runs no nested command, whatever a nested command would do. -/
theorem framesKept_callback (run : NestedCommand → State → State) (o : Output) : FramesKept s (callback run o s) where
  handlers h := by rw [callback_unwired run o h]; exact h
  frame h _ := by rw [callback_unwired run o h]; exact ⟨rfl, rfl⟩

theorem framesKept_upEvent (k : EventKind) : FramesKept s (upEvent k s) := framesKept_callback s _ _

theorem framesKept_resetQuiet : FramesKept s (resetQuiet s) :=
  ((framesKept_resetRegisters s).trans (framesKept_linkPush _ _ _)).trans (.of_tx rfl rfl)

theorem framesKept_localReset : FramesKept s (localReset s) := by
  unfold localReset localResetWith
  split
  · exact (framesKept_resetQuiet s).trans (framesKept_upEvent _ _)
  · exact framesKept_resetQuiet s

theorem framesKept_onResetRequest : FramesKept s (onResetRequest s) := by
  unfold onResetRequest resetRequestWhileActive
  dsimp only
  split_ifs
  · exact framesKept_linkPush s _ _
  · exact ((framesKept_upEvent s _).trans (framesKept_localReset _)).trans (framesKept_linkPush _ _ _)
  · exact (framesKept_upEvent s _).trans (framesKept_linkPush _ _ _)

theorem framesKept_onResetResponse : FramesKept s (onResetResponse s) := by
  unfold onResetResponse
  split
  · exact .refl s
  · exact (framesKept_upEvent _ _).from_tx rfl rfl

theorem framesKept_onReset (f : FrameId) : FramesKept s (onReset f s) := by
  unfold onReset
  split_ifs
  · exact framesKept_onResetRequest s
  · exact framesKept_onResetResponse s
  · exact .refl s

theorem framesKept_resetResend : FramesKept s (resetResend s) := by
  unfold resetResend
  split
  · exact (framesKept_linkPush s _ _).trans (.of_tx rfl rfl)
  · exact .refl s

/-! ### Received data (R171 to R182) -/

theorem framesKept_deliver (m : Metadata) (p : List Byte) : FramesKept s (deliver m p s) :=
  (framesKept_callback _ _ _).from_tx rfl rfl

theorem framesKept_catchUpFrom (fuel : Nat) (last : FrameId) (s : State) : FramesKept s (catchUpFrom fuel last s) := by
  induction fuel generalizing last s with
  | zero => exact framesKept_linkPush s _ _
  | succ fuel ih =>
    unfold catchUpFrom
    dsimp only
    split_ifs
    · exact framesKept_deliver s _ _
    · exact (framesKept_deliver s _ _).trans ((ih _ _).from_tx rfl rfl)
    · exact framesKept_linkPush s _ _

theorem framesKept_exactMatchTail (f : FrameId) : FramesKept s (exactMatchTail f s) := by
  unfold exactMatchTail
  dsimp only
  split
  · exact (framesKept_linkPush _ _ _).from_tx rfl rfl
  · exact (framesKept_catchUpFrom _ _ _).from_tx rfl rfl

theorem framesKept_exactMatch (f : FrameId) (m : Metadata) (p : List Byte) : FramesKept s (exactMatch f m p s) := by
  have hdeliver : ∀ v, FramesKept s (deliver m p (setRxSlot (rxIndex s f) v s)) := fun v =>
    (framesKept_deliver _ m p).from_tx rfl rfl
  unfold exactMatch
  dsimp only
  split
  · exact hdeliver _
  · exact (hdeliver _).trans (framesKept_exactMatchTail _ f)

theorem framesKept_nackGap (g : FrameId) : FramesKept s (nackGap s g) := by
  unfold nackGap
  dsimp only
  split
  · exact (framesKept_linkPush _ _ _).from_tx rfl rfl
  · exact .refl s

theorem framesKept_futureInWindow (f : FrameId) (m : Metadata) (p : List Byte) : FramesKept s (futureInWindow f m p s) := by
  unfold futureInWindow
  dsimp only
  refine FramesKept.trans ?_ (framesKept_linkPush _ _ _)
  refine FramesKept.trans ?_ (.of_tx (setRxSlot_tx _ _ _) rfl)
  refine FramesKept.trans ?_ (framesKept_foldl _ framesKept_nackGap _ _)
  split
  · exact .of_tx rfl rfl
  · exact .refl s

theorem framesKept_rxDataProc (f : FrameId) (m : Metadata) (p : List Byte) : FramesKept s (rxDataProc f m p s) := by
  have hactive : FramesKept s { s with conn := { s.conn with activity := true } } := .of_tx rfl rfl
  unfold rxDataProc
  dsimp only
  split_ifs
  · exact .refl s
  · exact hactive.trans (framesKept_linkPush _ _ _)
  · exact hactive.trans (framesKept_exactMatch _ f m p)
  · exact hactive.trans (framesKept_linkPush _ _ _)
  · exact hactive.trans (framesKept_linkPush _ _ _)
  · exact hactive.trans (framesKept_futureInWindow _ f m p)

theorem framesKept_rxFramingErrorProc : FramesKept s (rxFramingErrorProc s) := by
  unfold rxFramingErrorProc
  split
  · exact .refl s
  · exact framesKept_linkPush s _ _

theorem framesKept_rxLinkProc (t : BitVec 5) (f : FrameId) : FramesKept s (rxLinkProc t f s) := by
  unfold rxLinkProc
  split_ifs
  · exact framesKept_ackAll s f
  · exact framesKept_ackOne s f
  · exact framesKept_nackFrame s f
  · exact framesKept_nackFrame s f
  · exact framesKept_onReset s f
  · exact .refl s

theorem framesKept_framerEvent (e : FramerEvent) : FramesKept s (framerEvent s e) := by
  cases e with
  | data f m p => exact framesKept_rxDataProc s f m p
  | link t f => exact framesKept_rxLinkProc s t f
  | framingError => exact framesKept_rxFramingErrorProc s

theorem framesKept_llRecvProc (data : List Byte) : FramesKept s (llRecvProc data s) :=
  (framesKept_foldl _ framesKept_framerEvent _ _).from_tx rfl rfl

/-! ### PROCESS (R260) -/

theorem framesKept_drainWords (k : Nat) : FramesKept s (drainWords k s) := by
  unfold drainWords
  dsimp only
  split
  · exact .of_tx rfl rfl
  · exact .of_tx rfl rfl

theorem framesKept_linkDrain : FramesKept s (linkDrain s) := by
  unfold linkDrain
  dsimp only
  split_ifs
  · exact .refl s
  · exact framesKept_llAvail s
  · exact (framesKept_llAvail s).trans (framesKept_drainWords _ _)

theorem framesKept_eofCheck : FramesKept s (eofCheck s) := by
  unfold eofCheck
  dsimp only
  split_ifs
  · exact .refl s
  · exact .refl s
  · exact .refl s
  · exact framesKept_llAvail s
  · exact (framesKept_llAvail s).trans (.of_tx rfl rfl)

/-- A transmission marks the slot Sent and reads its frame (R140). -/
theorem framesKept_transmit (i : Nat) : FramesKept s (transmit i s) := by
  unfold transmit
  dsimp only
  split
  · exact framesKept_llAvail s
  · set u := llSend _ _ with hu
    have htx : u.tx = s.tx := by rw [hu]; split_ifs <;> simp
    have hhandlers : u.port.handlers = s.port.handlers := by rw [hu]; split_ifs <;> simp
    have hslot : txSlot u i = txSlot s i := txSlot_congr s htx i
    refine (FramesKept.of_tx htx hhandlers).trans (framesKept_setTxSlot _ _ ?_)
    rw [hslot]
    exact ⟨rfl, rfl⟩

theorem framesKept_txScanFrom (l : List FrameId) : FramesKept s (txScanFrom s l) := by
  induction l with
  | nil => exact .refl s
  | cons f l ih =>
    unfold txScanFrom
    dsimp only
    split_ifs
    · exact framesKept_localReset s
    · exact framesKept_transmit s _
    · exact ih

theorem framesKept_rearm : FramesKept s (rearm s) := .of_tx rfl rfl

theorem framesKept_processSteps : FramesKept s (processSteps s) :=
  have hdrain := ((framesKept_resetResend s).trans (framesKept_timeoutScan _)).trans (framesKept_linkDrain _)
  have hscan := hdrain.trans (framesKept_txScanFrom _ (txWindow _))
  (hscan.trans (framesKept_eofCheck _)).trans (framesKept_rearm _)

/-! ### Whole commands -/

/-- Every command but the three that R61 names. -/
theorem framesKept_exec (i : Instr) (hinit : ∀ c, i ≠ .init c) (hsend : ∀ a m p, i ≠ .send a m p)
    (hwindow : ∀ n, i ≠ .txWindowSet n) : ∃ t, exec i s = .next t ∧ FramesKept s t := by
  cases i with
  | init c => exact absurd rfl (hinit c)
  | send a m p => exact absurd rfl (hsend a m p)
  | txWindowSet n => exact absurd rfl (hwindow n)
  | process => exact ⟨_, rfl, framesKept_context s _ _ framesKept_processSteps⟩
  | llRecv d => exact ⟨_, rfl, framesKept_context s _ _ (framesKept_llRecvProc · d)⟩
  | statusGet => exact ⟨_, rfl, framesKept_accept s _ _ fun _ => .of_tx rfl rfl⟩
  | statusClear => exact ⟨_, rfl, framesKept_accept s _ _ fun _ => .of_tx rfl rfl⟩
  | rxData f m p => exact ⟨_, rfl, framesKept_context s _ _ (framesKept_rxDataProc · f m p)⟩
  | rxLink t f => exact ⟨_, rfl, framesKept_context s _ _ (framesKept_rxLinkProc · t f)⟩
  | rxLinkAckAll f => exact ⟨_, rfl, framesKept_context s _ _ (framesKept_ackAll · f)⟩
  | rxLinkAckOne f => exact ⟨_, rfl, framesKept_context s _ _ (framesKept_ackOne · f)⟩
  | rxLinkNackFrameId f => exact ⟨_, rfl, framesKept_context s _ _ (framesKept_nackFrame · f)⟩
  | rxLinkNackFramingError f =>
    exact ⟨_, rfl, framesKept_context s _ _ (framesKept_nackFrame · f)⟩
  | rxLinkResetReq => exact ⟨_, rfl, framesKept_context s _ _ (framesKept_onReset · _)⟩
  | rxLinkResetRsp => exact ⟨_, rfl, framesKept_context s _ _ (framesKept_onReset · _)⟩
  | rxLinkResetOther f => exact ⟨_, rfl, framesKept_context s _ _ (framesKept_onReset · f)⟩
  | rxFramingError => exact ⟨_, rfl, framesKept_context s _ _ framesKept_rxFramingErrorProc⟩
  | resetTxFromEvent =>
    exact ⟨_, rfl, framesKept_accept s _ _ fun s => (framesKept_localReset s).trans (framesKept_answer _ _)⟩
  | serviceInterval => exact ⟨_, rfl, framesKept_accept s _ _ fun _ => .of_tx rfl rfl⟩
  | finalize => exact ⟨_, rfl, framesKept_accept s _ _ fun _ => .of_tx rfl rfl⟩

end

/-- Settles O60, by what every other command keeps of the stored frames. -/
theorem storedFramesAreNotModified : Obligations.StoredFramesAreNotModified := by
  intro i s t h hhandlers hinit hsend hwindow k
  obtain ⟨u, hu, hkept⟩ := framesKept_exec s i hinit hsend hwindow
  obtain rfl : u = t := Host.Outcome.next.inj (hu.symm.trans h)
  exact hkept.frame hhandlers k

end Sys2Proof.Proofs.StoredFrames
end

section
/-! PROOFS. The statements of 30_encoding.md: the decoder and the encoder undo each other, what the port does with a word that
decodes, and which words are refused.

`decode_eq_ok_iff` and the three refusals after it say once what the decoder answers. The rows of RX_LINK, which share one opcode,
go through `linkRow`, the instruction of a named link type and a frame id. -/

namespace Sys2Proof.Proofs.Encoding

open Sys2Proof Sys2Proof.Machine Sys2Proof.Laws

/-! ### What the decoder answers (R82, R305 orders 1 to 3) -/

/-- A word and operand decode when they pass the three tests, and then to what `assemble` reads from them. -/
theorem decode_eq_ok_iff {c : LinkCodes} {w : Word64} {x : Operand} {i : Instr} :
    decode c w x = .ok i ↔ ∃ o, opcodeOf (opField w) = some o ∧ reservedClear (formatOf o) w = true ∧
      operandFits (formatOf o) w x = true ∧ assemble c o w x = i := by
  cases ho : opcodeOf (opField w) with
  | none => simp [decode, ho]
  | some o =>
    cases hr : reservedClear (formatOf o) w with
    | false => simp [decode, ho, hr]
    | true => cases hx : operandFits (formatOf o) w x <;> simp [decode, ho, hr, hx]

theorem decode_reservedOpcode {c : LinkCodes} {w : Word64} {x : Operand} (ho : opcodeOf (opField w) = none) :
    decode c w x = .error .reservedOpcode := by simp [decode, ho]

theorem decode_reservedField {c : LinkCodes} {w : Word64} {x : Operand} {o : Opcode} (ho : opcodeOf (opField w) = some o)
    (hr : reservedClear (formatOf o) w = false) : decode c w x = .error .reservedField := by simp [decode, ho, hr]

theorem decode_operandLength {c : LinkCodes} {w : Word64} {x : Operand} {o : Opcode} (ho : opcodeOf (opField w) = some o)
    (hr : reservedClear (formatOf o) w = true) (hx : operandFits (formatOf o) w x = false) :
    decode c w x = .error .operandLength := by simp [decode, ho, hr, hx]

/-! ### The rows of RX_LINK (R92, R93) -/

/-- The row of a RESET, by its frame id (R93). -/
def resetRow (f : FrameId) : Instr :=
  if f = Config.resetRequestId then .rxLinkResetReq
  else if f = Config.resetResponseId then .rxLinkResetRsp
  else .rxLinkResetOther f

/-- The row of a link-control frame of one of the five types (R92). -/
def linkRow : LinkType → FrameId → Instr
  | .ackAll, f => .rxLinkAckAll f
  | .ackOne, f => .rxLinkAckOne f
  | .nackFrameId, f => .rxLinkNackFrameId f
  | .nackFramingError, f => .rxLinkNackFramingError f
  | .reset, f => resetRow f

theorem decodeRxLink_eq (c : LinkCodes) (t : BitVec 5) (f : FrameId) : decodeRxLink c t f =
    if t = c.code .ackAll then linkRow .ackAll f
    else if t = c.code .ackOne then linkRow .ackOne f
    else if t = c.code .nackFrameId then linkRow .nackFrameId f
    else if t = c.code .nackFramingError then linkRow .nackFramingError f
    else if t = c.code .reset then linkRow .reset f
    else .rxLink t f := rfl

/-- The five types, in the order R238 tests them. -/
def linkTypes : List LinkType := [.ackAll, .ackOne, .nackFrameId, .nackFramingError, .reset]

theorem mem_linkTypes (k : LinkType) : k ∈ linkTypes := by cases k <;> decide

theorem all_eq_map (c : LinkCodes) : c.all = linkTypes.map c.code := rfl

theorem mem_all_iff (c : LinkCodes) (t : BitVec 5) : t ∈ c.all ↔ ∃ k, t = c.code k := by
  simp only [all_eq_map, List.mem_map, mem_linkTypes, true_and, eq_comm]

/-- Legal codes are distinct (R92). -/
theorem code_injective {c : LinkCodes} (h : c.legal = true) : Function.Injective c.code := by
  have hnodup : (linkTypes.map c.code).Nodup := of_decide_eq_true (Bool.and_eq_true_iff.mp h).1
  exact fun j k => List.inj_on_of_nodup_map hnodup (mem_linkTypes j) (mem_linkTypes k)

/-- A code of the five is read as its own row. -/
theorem decodeRxLink_code {c : LinkCodes} (h : c.legal = true) (k : LinkType) (f : FrameId) :
    decodeRxLink c (c.code k) f = linkRow k f := by
  simp only [decodeRxLink_eq, (code_injective h).eq_iff]
  cases k <;> rfl

/-- Any other code is read as the general row. -/
theorem decodeRxLink_other {c : LinkCodes} {t : BitVec 5} (h : t ∉ c.all) (f : FrameId) :
    decodeRxLink c t f = .rxLink t f := by
  simp only [mem_all_iff, not_exists] at h
  simp only [decodeRxLink_eq, h, if_false]

theorem decodeRxLink_cases (c : LinkCodes) (t : BitVec 5) (f : FrameId) :
    (∃ k, t = c.code k ∧ decodeRxLink c t f = linkRow k f) ∨ (t ∉ c.all ∧ decodeRxLink c t f = .rxLink t f) := by
  by_cases h : t ∈ c.all
  · left
    rw [decodeRxLink_eq]
    split_ifs with h1 h2 h3 h4 h5
    exacts [⟨_, h1, rfl⟩, ⟨_, h2, rfl⟩, ⟨_, h3, rfl⟩, ⟨_, h4, rfl⟩, ⟨_, h5, rfl⟩,
      by obtain ⟨k, hk⟩ := (mem_all_iff c t).mp h; cases k <;> contradiction]
  · exact .inr ⟨h, decodeRxLink_other h f⟩

theorem encode_linkRow (c : LinkCodes) (k : LinkType) (f : FrameId) :
    encode c (linkRow k f) = (wordL (c.code k) f, .bytes []) := by
  cases k with
  | reset =>
    show encode c (resetRow f) = _
    unfold resetRow
    split_ifs with h0 h1
    · rw [h0]; rfl
    · rw [h1]; rfl
    · rfl
  | _ => rfl

theorem wellFormed_linkRow (c : LinkCodes) (k : LinkType) (f : FrameId) : (linkRow k f).wellFormed c = true := by
  cases k with
  | reset =>
    show (resetRow f).wellFormed c = true
    unfold resetRow
    split_ifs with h0 h1
    · rfl
    · rfl
    · simp [Instr.wellFormed, h0, h1]
  | _ => rfl

/-! ### Decoding an encoded instruction -/

/-- Every encoded instruction passes the decoder's three tests. -/
theorem encodedForm (i : Instr) : EncodedForm.Statement i := by
  cases i with
  | init c => exact EncodedForm.init c
  | send a m p => exact EncodedForm.send a m p
  | txWindowSet n => exact EncodedForm.txWindowSet n
  | process => exact EncodedForm.process
  | llRecv d => exact EncodedForm.llRecv d
  | statusGet => exact EncodedForm.statusGet
  | statusClear => exact EncodedForm.statusClear
  | rxData f m p => exact EncodedForm.rxData f m p
  | rxLink t f => exact EncodedForm.rxLink t f
  | rxLinkAckAll f => exact EncodedForm.rxLinkAckAll f
  | rxLinkAckOne f => exact EncodedForm.rxLinkAckOne f
  | rxLinkNackFrameId f => exact EncodedForm.rxLinkNackFrameId f
  | rxLinkNackFramingError f => exact EncodedForm.rxLinkNackFramingError f
  | rxLinkResetReq => exact EncodedForm.rxLinkResetReq
  | rxLinkResetRsp => exact EncodedForm.rxLinkResetRsp
  | rxLinkResetOther f => exact EncodedForm.rxLinkResetOther f
  | rxFramingError => exact EncodedForm.rxFramingError
  | resetTxFromEvent => exact EncodedForm.resetTxFromEvent
  | serviceInterval => exact EncodedForm.serviceInterval
  | finalize => exact EncodedForm.finalize

theorem assemble_encode_linkRow {c : LinkCodes} (h : c.legal = true) (k : LinkType) (f : FrameId) :
    assemble c .rxLink (encode c (linkRow k f)).1 (encode c (linkRow k f)).2 = linkRow k f := by
  rw [encode_linkRow]
  simp only [assemble, typeField_wordL, fidField_wordL, decodeRxLink_code h]

/-- What the fields of an encoded instruction say is the instruction. -/
theorem assemble_encode {c : LinkCodes} {i : Instr} (hc : c.legal = true) (hi : i.wellFormed c = true) :
    assemble c (opcodeFor i) (encode c i).1 (encode c i).2 = i := by
  cases i with
  | send a m p => simp only [opcodeFor, encode, assemble, tmoField_wordS, metaField_wordS, operandBytes]
  | txWindowSet n => simp only [opcodeFor, encode, assemble, nField_wordW]
  | rxData f m p => simp only [opcodeFor, encode, assemble, fidField_wordD, metaField_wordD, operandBytes]
  | rxLink t f =>
    have ht : t ∉ c.all := by simpa [Instr.wellFormed] using hi
    simp only [opcodeFor, encode, assemble, typeField_wordL, fidField_wordL, decodeRxLink_other ht]
  | rxLinkAckAll f => exact assemble_encode_linkRow hc .ackAll f
  | rxLinkAckOne f => exact assemble_encode_linkRow hc .ackOne f
  | rxLinkNackFrameId f => exact assemble_encode_linkRow hc .nackFrameId f
  | rxLinkNackFramingError f => exact assemble_encode_linkRow hc .nackFramingError f
  | rxLinkResetReq => exact assemble_encode_linkRow hc .reset Config.resetRequestId
  | rxLinkResetRsp => exact assemble_encode_linkRow hc .reset Config.resetResponseId
  | rxLinkResetOther f =>
    obtain ⟨h0, h1⟩ : f ≠ Config.resetRequestId ∧ f ≠ Config.resetResponseId := by simpa [Instr.wellFormed] using hi
    have hrow : linkRow .reset f = .rxLinkResetOther f := by simp only [linkRow, resetRow, h0, h1, if_false]
    have hself := assemble_encode_linkRow hc .reset f
    rwa [hrow] at hself
  | _ => rfl

/-- Settles O5: the encoded word passes the three tests, and its fields say the instruction. -/
theorem decodeOfEncodeIsTheInstruction : Obligations.DecodeOfEncodeIsTheInstruction := by
  intro c i hc hi
  obtain ⟨hop, hreserved, hoperand⟩ := encodedForm i c hi
  exact decode_eq_ok_iff.mpr ⟨_, hop, hreserved, hoperand, assemble_encode hc hi⟩

/-! ### Encoding a decoded instruction -/

/-- A length that a field states fits the field, and the field is the length's encoding. -/
theorem length_of_field {n k : Nat} {len : BitVec k} (h : n = len.toNat) : BitVec.ofNat k n = len ∧ n < 2 ^ k := by
  subst h
  exact ⟨by simp, len.isLt⟩

/-- INIT's operand is a record. -/
theorem record_of_operandFits {w : Word64} {x : Operand} (h : operandFits .i w x = true) : ∃ r, x = .record r := by
  cases x with
  | record r => exact ⟨r, rfl⟩
  | bytes d => exact absurd rfl ((operandFits_bytes _ _ _).mp h).1

/-- Every other operand is as many bytes as the word states. -/
theorem bytes_of_operandFits {fmt : Format} {w : Word64} {x : Operand} (hfmt : fmt ≠ .i) (h : operandFits fmt w x = true) :
    ∃ d, x = .bytes d ∧ d.length = operandLength fmt w := by
  cases x with
  | record r => exact absurd ((operandFits_record _ _ _).mp h) hfmt
  | bytes d => exact ⟨d, rfl, ((operandFits_bytes _ _ _).mp h).2⟩

/-- In a format that states no length the operand is empty. -/
theorem nil_of_operandFits {fmt : Format} {w : Word64} {x : Operand} (hfmt : fmt ≠ .i) (hlen : operandLength fmt w = 0)
    (h : operandFits fmt w x = true) : x = .bytes [] := by
  obtain ⟨d, rfl, hd⟩ := bytes_of_operandFits hfmt h
  rw [List.length_eq_zero_iff.mp (hd.trans hlen)]

/-- A word of format N with its empty operand is its opcode's. -/
theorem pair_of_formatN {o : Opcode} {w : Word64} {x : Operand} (hop : opcodeOf (opField w) = some o)
    (hreserved : reservedClear .n w = true) (hoperand : operandFits .n w x = true) : (wordN o, Operand.bytes []) = (w, x) := by
  rw [wordN_of_fields w o hop (by simpa [reservedClear] using hreserved), nil_of_operandFits (by decide) rfl hoperand]

/-- What passes the three tests is the encoding of what `assemble` reads from it. -/
theorem encode_assemble {c : LinkCodes} {o : Opcode} {w : Word64} {x : Operand} (hop : opcodeOf (opField w) = some o)
    (hreserved : reservedClear (formatOf o) w = true) (hoperand : operandFits (formatOf o) w x = true) :
    encode c (assemble c o w x) = (w, x) ∧ (assemble c o w x).wellFormed c = true := by
  cases o with
  | init =>
    obtain ⟨r, rfl⟩ := record_of_operandFits hoperand
    have hw := wordN_of_fields w .init hop (by simpa [formatOf, reservedClear] using hreserved)
    exact ⟨congrArg (·, Operand.record r) hw, rfl⟩
  | send =>
    obtain ⟨d, rfl, hd⟩ := bytes_of_operandFits (by decide) hoperand
    obtain ⟨hlen, hlt⟩ := length_of_field hd
    exact ⟨by simp only [assemble, operandBytes, encode, hlen, wordS_of_fields w hop], decide_eq_true hlt⟩
  | txWindowSet =>
    have hw := wordW_of_fields w .txWindowSet hop (by simpa [formatOf, reservedClear] using hreserved)
    exact ⟨by simp only [assemble, encode, hw, nil_of_operandFits (by decide) rfl hoperand], rfl⟩
  | llRecv =>
    obtain ⟨d, rfl, hd⟩ := bytes_of_operandFits (by decide) hoperand
    obtain ⟨hlen, hlt⟩ := length_of_field hd
    have hw := wordW_of_fields w .llRecv hop (by simpa [formatOf, reservedClear] using hreserved)
    exact ⟨by simp only [assemble, operandBytes, encode, hlen, hw], decide_eq_true hlt⟩
  | rxData =>
    obtain ⟨d, rfl, hd⟩ := bytes_of_operandFits (by decide) hoperand
    obtain ⟨hlen, hlt⟩ := length_of_field hd
    have hw := wordD_of_fields w hop (by simpa [formatOf, reservedClear] using hreserved)
    exact ⟨by simp only [assemble, operandBytes, encode, hlen, hw], decide_eq_true hlt⟩
  | rxLink =>
    obtain ⟨⟨hhigh, hmid⟩, hlow⟩ : (w.extractLsb' 43 17 = 0 ∧ w.extractLsb' 21 11 = 0) ∧ w.extractLsb' 0 16 = 0 := by
      simpa [formatOf, reservedClear] using hreserved
    have hw := wordL_of_fields w hop hhigh hmid hlow
    rw [nil_of_operandFits (by decide) rfl hoperand]
    simp only [assemble]
    rcases decodeRxLink_cases c (typeField w) (fidField w) with ⟨k, hk, hrow⟩ | ⟨hother, hrow⟩
    · rw [hrow, encode_linkRow, ← hk, hw]
      exact ⟨rfl, wellFormed_linkRow c k _⟩
    · rw [hrow]
      exact ⟨congrArg (·, Operand.bytes []) hw, by simpa [Instr.wellFormed] using hother⟩
  | process | statusGet | statusClear | rxFramingError | resetTxFromEvent | serviceInterval | finalize =>
    exact ⟨pair_of_formatN hop hreserved hoperand, rfl⟩

/-- Settles O6: what decodes passes the three tests, and so is what the encoder writes. -/
theorem decodedCommandsHaveOneEncoding : Obligations.DecodedCommandsHaveOneEncoding := by
  intro c w x i h
  obtain ⟨o, hop, hreserved, hoperand, rfl⟩ := decode_eq_ok_iff.mp h
  exact encode_assemble hop hreserved hoperand

/-- Settles O7: the decoder evaluated on each of the eight words. -/
theorem encodingExamplesDecode : Obligations.EncodingExamplesDecode := by
  unfold Obligations.EncodingExamplesDecode
  decide

/-! ### A command at the port (R80, R305, R322) -/

/-- A step with a command at the port runs its word on the state with the input latched. -/
theorem step_command {s : State} {w : Word64} {x : Operand} {e : Env} {rest : List Input}
    (h : s.inq = .command w x e :: rest) : step s = runWord w x (latch e rest s) := by
  unfold step
  rw [h]
  rfl

/-- A word that decodes runs as its instruction. -/
theorem runWord_of_ok {w : Word64} {x : Operand} {s : State} {i : Instr} (h : decode s.par.codes w x = .ok i) :
    runWord w x s = exec i s := by
  unfold runWord
  rw [h]

/-- A word that does not decode is refused. -/
theorem runWord_of_error {w : Word64} {x : Operand} {s : State} {r : RefuseReason}
    (h : decode s.par.codes w x = .error r) : runWord w x s = .next (refuse r s) := by
  unfold runWord
  rw [h]

/-- Settles O9: the step of an empty port, and the step of a command whose word decodes. -/
theorem stepRunsTheDecodedCommand : Obligations.StepRunsTheDecodedCommand := by
  refine ⟨fun s h => ?_, fun s w x e rest i h hdecode => ?_⟩
  · unfold step
    rw [h]
  · exact (step_command h).trans (runWord_of_ok (s := latch e rest s) hdecode)

/-! ### The decoder's tests in the terms of the tables (R83 to R91) -/

/-- The bits of the field of `l` bits at bit `p`. -/
def fieldMask (p l : Nat) : Word64 := (BitVec.allOnes l).setWidth 64 <<< p

theorem getLsbD_fieldMask {p l : Nat} (h : p + l ≤ 64) (j : Nat) :
    (fieldMask p l).getLsbD j = decide (p ≤ j ∧ j < p + l) := by
  rw [Bool.eq_iff_iff]
  simp only [fieldMask, BitVec.getLsbD_shiftLeft, BitVec.getLsbD_setWidth, BitVec.getLsbD_allOnes, Bool.and_eq_true,
    Bool.not_eq_true', decide_eq_true_eq, decide_eq_false_iff_not]
  omega

/-- A word meets a field's mask in no bit when the field reads 0. -/
theorem and_fieldMask_eq_zero (w : Word64) {p l : Nat} (h : p + l ≤ 64) :
    w &&& fieldMask p l = 0 ↔ w.extractLsb' p l = 0 := by
  constructor
  · intro hw
    apply BitVec.eq_of_getLsbD_eq
    intro j hj
    have hbit := congrArg (BitVec.getLsbD · (p + j)) hw
    simpa [getLsbD_fieldMask h, hj] using hbit
  · intro hw
    apply BitVec.eq_of_getLsbD_eq
    intro j _
    by_cases hin : p ≤ j ∧ j < p + l
    · have hj : j - p < l := by omega
      have hbit := congrArg (BitVec.getLsbD · (j - p)) hw
      have hclear : w.getLsbD j = false := by simpa [hj, Nat.add_sub_cancel' hin.1] using hbit
      simp [hclear]
    · simp only [BitVec.getLsbD_and, getLsbD_fieldMask h, hin, decide_false, Bool.and_false, BitVec.ofNat_eq_ofNat,
        BitVec.getLsbD_zero]

/-- A word meets two masks in no bit when it meets each in none. -/
theorem and_or_eq_zero (w a b : Word64) : w &&& (a ||| b) = 0 ↔ w &&& a = 0 ∧ w &&& b = 0 := by
  rw [BitVec.and_or_distrib_left]
  exact BitVec.or_eq_zero_iff

/-- The opcode as a number (R81). -/
theorem toNat_div_of_opcodeOf {w : Word64} {o : Opcode} (h : opcodeOf (opField w) = some o) :
    w.toNat / 2 ^ 60 = (opcodeBits o).toNat := by
  rw [← opField_toNat, opcodeBits_of_opcodeOf _ _ h]

/-- The reserved bits of a format are those of the opcode's mask (R83 to R89). -/
theorem reservedClear_iff (o : Opcode) (w : Word64) :
    reservedClear (formatOf o) w = true ↔ w &&& reservedMask (opcodeBits o).toNat = 0 := by
  have hlow := and_fieldMask_eq_zero w (p := 0) (l := 60) (by decide)
  have hgapW := and_fieldMask_eq_zero w (p := 32) (l := 28) (by decide)
  have hgapD := and_fieldMask_eq_zero w (p := 43) (l := 17) (by decide)
  have hmidL := and_fieldMask_eq_zero w (p := 21) (l := 11) (by decide)
  have hlowL := and_fieldMask_eq_zero w (p := 0) (l := 16) (by decide)
  cases o with
  | send => exact iff_of_true rfl BitVec.and_zero
  | txWindowSet | llRecv => exact beq_iff_eq.trans hgapW.symm
  | rxData => exact beq_iff_eq.trans hgapD.symm
  | rxLink =>
    have hmask : reservedMask (opcodeBits .rxLink).toNat = fieldMask 43 17 ||| fieldMask 21 11 ||| fieldMask 0 16 := by decide
    rw [hmask, and_or_eq_zero, and_or_eq_zero, hgapD, hmidL, hlowL]
    simp [formatOf, reservedClear]
  | _ => exact beq_iff_eq.trans hlow.symm

/-- The operand that fits the format is the one that the word states (R80, R86, R90). -/
theorem operandFits_iff {o : Opcode} {w : Word64} (x : Operand) (ho : opcodeOf (opField w) = some o) :
    operandFits (formatOf o) w x = true ↔ statedOperand w x := by
  have hdiv := toNat_div_of_opcodeOf ho
  have hlen : (lenField w).toNat = w.toNat / 2 ^ 16 % 2 ^ 16 := extract_toNat w 16 16
  have hn : (nField w).toNat = w.toNat % 2 ^ 32 := by simp [nField]
  cases x with
  | record r =>
    simp only [operandFits_record, statedOperand, hdiv]
    cases o <;> decide
  | bytes d =>
    simp only [operandFits_bytes, statedOperand, statedLength, hdiv]
    cases o <;> simp [formatOf, operandLength, opcodeBits, hlen, hn]

/-- Settles O8: the decoder's tests in the terms of the tables, one clause for each answer of the decoder. -/
theorem malformedCommandsAreRefused : Obligations.MalformedCommandsAreRefused := by
  intro s w x e rest hq t op reservedOpcode reservedField
  have hrefused : ∀ {r}, decode t.par.codes w x = .error r → step s = .next (refuse r t) := fun hd =>
    (step_command hq).trans (runWord_of_error hd)
  have hnone : opcodeOf (opField w) = none ↔ reservedOpcode := by
    rw [opcodeOf_eq_none, opField_toNat]
  cases ho : opcodeOf (opField w) with
  | none =>
    have hreserved := hnone.mp ho
    exact ⟨fun _ => hrefused (decode_reservedOpcode ho), fun h => absurd hreserved h, fun h => absurd hreserved h,
      fun h => absurd hreserved h⟩
  | some o =>
    have hclear : reservedClear (formatOf o) w = true ↔ ¬ reservedField := by
      rw [reservedClear_iff, ← toNat_div_of_opcodeOf ho]
      exact not_not.symm
    have hfits := operandFits_iff x ho
    refine ⟨fun h => ?_, fun _ hf => ?_, fun _ hf hx => ?_, fun _ hf hx => ?_⟩
    · exact absurd (ho.symm.trans (hnone.mpr h)) (by simp)
    · exact hrefused (decode_reservedField ho (by rw [← Bool.not_eq_true, hclear]; exact not_not.mpr hf))
    · exact hrefused (decode_operandLength ho (hclear.mpr hf) (by rw [← Bool.not_eq_true, hfits]; exact hx))
    · exact ⟨_, decode_eq_ok_iff.mpr ⟨o, ho, hclear.mpr hf, hfits.mpr hx, rfl⟩⟩

end Sys2Proof.Proofs.Encoding
end

section
/-! PROOFS. The statements of 40_frame_id.md: `subtract` and its laws, the slot of a frame id under a power-of-two window, and
`pow2_ceil`.

Every law of `subtract` but the one of `add` follows from `idSubtract_eq_emod`, rule R112 on the two numbers. Both units' slots are
`slotIndex`, so R116 is proved once, for a count register that holds a power of two. -/

namespace Sys2Proof.Proofs.FrameIds

open Sys2Proof Sys2Proof.Machine Sys2Proof.Laws

/-! ### `subtract` (R112, R113) -/

/-- R112 on the two numbers: the difference modulo 2048, folded down by 2048 from 1024 on. -/
theorem idSubtract_eq_emod (a b : FrameId) :
    idSubtract a b =
      if 1024 ≤ ((a.toNat : Int) - b.toNat) % 2048 then ((a.toNat : Int) - b.toNat) % 2048 - 2048
      else ((a.toNat : Int) - b.toNat) % 2048 := by
  rw [idSubtract_eq, ← toNat_sub]
  split <;> split <;> omega

/-- Law 2 of R113: off distance 1024, exchanging the ids changes the sign. -/
theorem idSubtract_antisymm {a b : FrameId} (h : ((a.toNat : Int) - b.toNat) % 2048 ≠ 1024) :
    idSubtract a b = -idSubtract b a := by
  rw [idSubtract_eq_emod a b, idSubtract_eq_emod b a]
  split <;> split <;> omega

/-- The exception to law 2 of R113: the fold takes distance 1024 to -1024. -/
theorem idSubtract_of_opposite {a b : FrameId} (h : ((a.toNat : Int) - b.toNat) % 2048 = 1024) : idSubtract a b = -1024 := by
  rw [idSubtract_eq_emod, h]
  rfl

/-- Distance 1024 is the same from either id. -/
theorem opposite_comm {a b : FrameId} (h : ((a.toNat : Int) - b.toNat) % 2048 = 1024) :
    ((b.toNat : Int) - a.toNat) % 2048 = 1024 := by
  omega

/-- Law 3 of R113: what is left of `add(b, k)` after `b` is the 11-bit word of `k`, which reads back as `k` in the signed range. -/
theorem idSubtract_idAdd (b : FrameId) {k : Int} (hge : -1024 ≤ k) (hle : k ≤ 1023) : idSubtract (idAdd b k) b = k := by
  have hdiff : idAdd b k - b = BitVec.ofInt 11 k := by rw [idAdd, BitVec.add_comm, BitVec.add_sub_cancel]
  rw [idSubtract, hdiff]
  exact BitVec.toInt_ofInt_eq_self (by norm_num) (by omega) (by omega)

/-- Settles O1: the value is R112 on the numbers, and the laws of R113 follow; law 4 is two values. -/
theorem subtractIsTheSignedDifference : Obligations.SubtractIsTheSignedDifference :=
  ⟨idSubtract_eq_emod, fun a b => ⟨idSubtract_ge a b, idSubtract_le a b⟩, idSubtract_self, fun _ _ => idSubtract_antisymm,
    fun _ _ h => ⟨idSubtract_of_opposite h, idSubtract_of_opposite (opposite_comm h)⟩, fun b _ => idSubtract_idAdd b,
    by decide, by decide⟩

/-! ### Slot indexes (R116) -/

/-- Under a power-of-two count the remainder is a mask. -/
theorem slotIndex_eq_and (f : FrameId) {c : BitVec 11} {k : Nat} (hc : c.toNat = 2 ^ k) :
    slotIndex f c = f.toNat &&& (c.toNat - 1) := by
  rw [slotIndex, hc, Nat.and_two_pow_sub_one_eq_mod]

/-- `inc` moves to the next slot, round the window, at the id's own wrap from 2047 to 0 as well: the count divides 2048. -/
theorem slotIndex_idInc (f : FrameId) {c : BitVec 11} {k : Nat} (hc : c.toNat = 2 ^ k) (hk : k ≤ 10) :
    slotIndex (idInc f) c = (slotIndex f c + 1) % 2 ^ k := by
  rw [idInc_eq, slotIndex_add f c k 1 hc (by omega), hc]

/-- Settles O2: both units' slots are `slotIndex`, at the unit's own count. -/
theorem slotIndexMasksAndCommutesWithInc : Obligations.SlotIndexMasksAndCommutesWithInc := by
  intro s k f hk
  refine ⟨fun htx => ⟨?_, slotIndex_eq_and f htx, slotIndex_idInc f htx hk⟩, fun hrx => ⟨?_, slotIndex_idInc f hrx hk⟩⟩
  · rw [txIndex, slotIndex, htx]
  · rw [rxIndex, slotIndex, hrx]

/-! ### `pow2_ceil` (R117) -/

/-- Settles O3: every lower power of two is smaller than `n`, so one that is at least `n` is not a lower one. -/
theorem pow2CeilIsTheLeastPowerOfTwo : Obligations.Pow2CeilIsTheLeastPowerOfTwo := by
  intro n _ hn
  obtain ⟨k, hpow, hle, -, hleast⟩ := pow2Ceil_spec n hn
  refine ⟨k, hpow, hle, fun j hj => ?_⟩
  have hkj : k ≤ j := not_lt.mp fun hjk => absurd hj (not_le.mpr (hleast j hjk))
  exact Nat.pow_le_pow_right (by norm_num) hkj

end Sys2Proof.Proofs.FrameIds
end

section
/-! PROOFS. The statements of 41_tx_engine.md on PROCESS: the timeout scan, the transmission scan and the TX deadline, each a loop over
the window's ids; and the retry ceiling across a step. -/

namespace Sys2Proof.Proofs.TxScans

open Sys2Proof Sys2Proof.Machine Sys2Proof.Laws Sys2Proof.Proofs.StateRules

/-! ### The retry ceiling (R140, R141) -/

theorem retryInv_freshBlock (c : CfgRecord) (s : State) : RetryInv (freshBlock c s) := by
  intro i
  rw [freshBlock, txSlot_resetRegisters]
  exact Nat.zero_le _

/-- Settles O21: a step keeps every slot's count under the ceiling, and an INIT that succeeds leaves every count 0. -/
theorem stepKeepsRetryCeiling : Obligations.StepKeepsRetryCeiling := by
  intro s t hs h
  rcases step_keeps h with rfl | ⟨e, rest, ⟨hkeeps, -⟩ | ⟨c, -, -, hkeeps⟩⟩
  · exact hs
  · exact hkeeps.retry hs
  · exact hkeeps.retry (retryInv_freshBlock c _)

/-! ### The timeout scan (R138) -/

/-- What the timeout scan makes of a slot that an id of the window names: a due frame waits to be sent again. -/
def revertDue (s : State) (slot : TxSlot) : TxSlot :=
  if timedOut s slot = true then { slot with state := .pendingSend } else slot

theorem timedOut_iff (s : State) (slot : TxSlot) : timedOut s slot = true ↔
    slot.state = .sent ∧ s.cfg.txTimeout.toInt ≤ s.port.now.toInt - slot.lastSendTime.toInt := by
  simp [timedOut]

/-- A reverted frame is not due: an id that names a slot a second time changes nothing. -/
theorem revertDue_idem (s : State) (slot : TxSlot) : revertDue s (revertDue s slot) = revertDue s slot := by
  unfold revertDue
  split
  · rw [if_neg (by simp [timedOut])]
  · rfl

/-- One turn of the scan writes the slots alone, and of them the one that the id names. -/
theorem timeoutOne_spec (s : State) (f : FrameId) : ∃ slots,
    timeoutOne s f = { s with tx := { s.tx with slots := slots } } ∧
    ∀ i, tableGet TxSlot.zero slots i = if txIndex s f = i then revertDue s (txSlot s i) else txSlot s i := by
  unfold timeoutOne revertDue
  dsimp only
  split
  · rename_i hdue
    refine ⟨_, rfl, fun i => ?_⟩
    rw [tableGet_put]
    by_cases hi : txIndex s f = i
    · subst hi
      rw [if_pos rfl, if_pos rfl, if_pos hdue]
    · rw [if_neg (Ne.symm hi), if_neg hi]
      rfl
  · rename_i hnot
    refine ⟨s.tx.slots, rfl, fun i => ?_⟩
    by_cases hi : txIndex s f = i
    · subst hi
      rw [if_pos rfl, if_neg hnot]
      rfl
    · rw [if_neg hi]
      rfl

/-- The scan of a list of ids writes the slots alone, and of them those that the ids name. -/
theorem foldl_timeoutOne_spec (l : List FrameId) (s : State) : ∃ slots,
    l.foldl timeoutOne s = { s with tx := { s.tx with slots := slots } } ∧
    ∀ i, tableGet TxSlot.zero slots i = if ∃ f ∈ l, txIndex s f = i then revertDue s (txSlot s i) else txSlot s i := by
  induction l generalizing s with
  | nil => exact ⟨s.tx.slots, rfl, fun i => by simp [txSlot]⟩
  | cons f l ih =>
    obtain ⟨first, hone, hfirst⟩ := timeoutOne_spec s f
    obtain ⟨slots, hrest, hslots⟩ := ih { s with tx := { s.tx with slots := first } }
    refine ⟨slots, by rw [List.foldl_cons, hone, hrest], fun i => ?_⟩
    have hslot : txSlot { s with tx := { s.tx with slots := first } } i =
        if txIndex s f = i then revertDue s (txSlot s i) else txSlot s i := hfirst i
    have hstep : tableGet TxSlot.zero slots i =
        if ∃ g ∈ l, txIndex s g = i then revertDue s (if txIndex s f = i then revertDue s (txSlot s i) else txSlot s i)
        else if txIndex s f = i then revertDue s (txSlot s i) else txSlot s i := by
      rw [← hslot]
      exact hslots i
    rw [hstep]
    by_cases hf : txIndex s f = i
    · simp [hf, revertDue_idem]
    · simp [hf]

/-- Settles O28: the scan of the window, with the test on a due frame written out. -/
theorem timeoutScanRevertsExactlyTheDueFrames : Obligations.TimeoutScanRevertsExactlyTheDueFrames := by
  intro s
  obtain ⟨slots, hscan, hslots⟩ := foldl_timeoutOne_spec (txWindow s) s
  refine ⟨slots, hscan, fun i => ?_⟩
  rw [hslots]
  simp only [revertDue, timedOut_iff, ite_and]

/-! ### The TX deadline (R143) -/

/-- When a frame is due: `last_send_time + cfg_tx_timeout`. -/
def dueTime (s : State) (f : FrameId) : Int := (txSlot s (txIndex s f)).lastSendTime.toInt + s.cfg.txTimeout.toInt

/-- The due times of the Sent frames of a list of ids. -/
def dueTimes (s : State) (l : List FrameId) : List Int :=
  (l.filter fun f => decide ((txSlot s (txIndex s f)).state = .sent)).map (dueTime s)

theorem mem_dueTimes (s : State) (l : List FrameId) (d : Int) :
    d ∈ dueTimes s l ↔ ∃ f ∈ l, (txSlot s (txIndex s f)).state = .sent ∧ d = dueTime s f := by
  simp [dueTimes, and_assoc, eq_comm]

/-- A PendingSend frame ends the loop: the deadline is now, whatever the deadline so far. -/
theorem txDeadlineFrom_pending {s : State} {l : List FrameId} (h : ∃ f ∈ l, (txSlot s (txIndex s f)).state = .pendingSend)
    (d : Option Int) : txDeadlineFrom s l d = some s.port.now.toInt := by
  induction l generalizing d with
  | nil => simp at h
  | cons f l ih =>
    unfold txDeadlineFrom
    dsimp only
    cases hst : (txSlot s (txIndex s f)).state with
    | pendingSend => rfl
    | idle => exact ih (by simpa [hst] using h) _
    | sent => exact ih (by simpa [hst] using h) _
    | acked => exact ih (by simpa [hst] using h) _

/-- Without one, the loop takes the least of the deadline so far and the due times. -/
theorem txDeadlineFrom_eq_min {s : State} {l : List FrameId}
    (h : ∀ f ∈ l, (txSlot s (txIndex s f)).state ≠ .pendingSend) (d : Option Int) :
    txDeadlineFrom s l d = (d.toList ++ dueTimes s l).min? := by
  induction l generalizing d with
  | nil => cases d <;> rfl
  | cons f l ih =>
    have hl := ih fun g hg => h g (List.mem_cons_of_mem f hg)
    unfold txDeadlineFrom
    dsimp only
    cases hst : (txSlot s (txIndex s f)).state with
    | pendingSend => exact absurd hst (h f List.mem_cons_self)
    | idle => simp [hl, dueTimes, hst]
    | acked => simp [hl, dueTimes, hst]
    | sent =>
      have hcons : dueTimes s (f :: l) = dueTime s f :: dueTimes s l := by simp [dueTimes, hst]
      rw [hl, hcons]
      cases d <;> rfl

theorem txDeadline_eq_min {s : State} (h : ∀ f ∈ txWindow s, (txSlot s (txIndex s f)).state ≠ .pendingSend) :
    txDeadline s = (dueTimes s (txWindow s)).min? := txDeadlineFrom_eq_min h none

/-- Settles O30: a PendingSend frame ends the loop, and without one the deadline is the least due time. -/
theorem txDeadlineIsTheEarliest : Obligations.TxDeadlineIsTheEarliest := by
  intro s
  refine ⟨fun h => txDeadlineFrom_pending h none, fun hpend => ⟨fun hsent => ?_, fun ⟨f, hf, hst⟩ => ?_⟩⟩
  · rw [txDeadline_eq_min hpend, List.min?_eq_none_iff, List.eq_nil_iff_forall_not_mem]
    intro d hd
    obtain ⟨f, hf, hst, -⟩ := (mem_dueTimes _ _ _).mp hd
    exact hsent f hf hst
  · have hmem : dueTime s f ∈ dueTimes s (txWindow s) := (mem_dueTimes _ _ _).mpr ⟨f, hf, hst, rfl⟩
    obtain ⟨d, hd⟩ := Option.ne_none_iff_exists'.mp (mt List.min?_eq_none_iff.mp (List.ne_nil_of_mem hmem))
    obtain ⟨hin, hleast⟩ := List.min?_eq_some_iff.mp hd
    refine ⟨d, (txDeadline_eq_min hpend).trans hd, (mem_dueTimes _ _ _).mp hin, fun g hg hgst => ?_⟩
    exact hleast _ ((mem_dueTimes _ _ _).mpr ⟨g, hg, hgst, rfl⟩)

/-! ### The transmission scan (R140 to R142) -/

/-- The scan passes over the frames that do not wait to be sent. -/
theorem txScanFrom_append {s : State} {before : List FrameId}
    (h : ∀ g ∈ before, (txSlot s (txIndex s g)).state ≠ .pendingSend) (l : List FrameId) :
    txScanFrom s (before ++ l) = txScanFrom s l := by
  induction before with
  | nil => rfl
  | cons g before ih =>
    rw [List.cons_append, txScanFrom, if_neg (h g List.mem_cons_self)]
    exact ih fun f hf => h f (List.mem_cons_of_mem g hf)

/-- The scan ends at the first frame that waits. -/
theorem txScanFrom_pending {s : State} {f : FrameId} (h : (txSlot s (txIndex s f)).state = .pendingSend) (l : List FrameId) :
    txScanFrom s (f :: l) = if Config.retryMax ≤ (txSlot s (txIndex s f)).sendCount.toNat then localReset s
      else transmit (txIndex s f) s := by
  rw [txScanFrom, if_pos h]

/-- Too little space defers the frame: the driver has been asked, no more. -/
theorem transmit_defer {s : State} {i : Nat} (h : (llAvail s).1 < (txSlot s i).len.toNat) : transmit i s = (llAvail s).2 := by
  unfold transmit
  dsimp only
  rw [if_pos h]

/-- The slot after its frame was sent (R140). -/
def sentSlot (s : State) (slot : TxSlot) : TxSlot :=
  { slot with state := .sent, lastSendTime := s.port.now, sendCount := slot.sendCount + 1 }

/-- With space the stored bytes go out in one write, a resend is counted, and the slot is stamped. -/
theorem transmit_send {s : State} {i : Nat} (h : (txSlot s i).len.toNat ≤ (llAvail s).1) :
    transmit i s =
      { (llAvail s).2 with
        tx := { s.tx with slots := tablePut TxSlot.zero s.tx.slots i (sentSlot s (txSlot s i)) }
        stats := { s.stats with
          txBytes := s.stats.txBytes + BitVec.ofNat 64 (txSlot s i).len.toNat
          txRetransmissions := s.stats.txRetransmissions + (if 1 ≤ (txSlot s i).sendCount.toNat then 1 else 0) }
        eofPending := true
        out := s.out ++ [.llSend (memRead (txSlot s i).bytes (txSlot s i).len.toNat)] } := by
  unfold transmit sentSlot
  dsimp only
  rw [if_neg (not_lt.mpr h), llAvail_eq s]
  split <;> simp [setTxSlot, llSend, emit]

/-- Settles O29: the scan's first PendingSend frame, then the ceiling, the deferral or the transmission. -/
theorem transmissionScanServesTheFirstPendingFrame : Obligations.TransmissionScanServesTheFirstPendingFrame := by
  refine ⟨fun s h => ?_, fun s before after f hwin hbefore hf => ?_⟩
  · have hskip := txScanFrom_append h []
    rwa [List.append_nil] at hskip
  · have hscan : txScan s = if Config.retryMax ≤ (txSlot s (txIndex s f)).sendCount.toNat then localReset s
        else transmit (txIndex s f) s := by
      rw [txScan, hwin, txScanFrom_append hbefore, txScanFrom_pending hf]
    refine ⟨fun hceil => ?_, fun hcount hspace => ?_, fun hcount hspace => ?_⟩
    · exact hscan.trans (if_pos hceil)
    · exact (hscan.trans (if_neg (not_le.mpr hcount))).trans (transmit_defer hspace)
    · exact ⟨_, (hscan.trans (if_neg (not_le.mpr hcount))).trans (transmit_send hspace), fun j => tableGet_put _ _ _ _ _⟩

end Sys2Proof.Proofs.TxScans
end

section
/-! PROOFS. The statements of 41_tx_engine.md on received acknowledgements. An accepted RX_LINK of one of the four types is its
procedure, run on `entered s` and completed; each procedure is then said once as one update of that state. -/

namespace Sys2Proof.Proofs.Acknowledgements

open Sys2Proof Sys2Proof.Machine Sys2Proof.Laws

/-! ### ACK_ONE and the NACKs (R146, R150, R151) -/

/-- ACK_ONE marks a frame in flight, and ignores any other id (R146). -/
theorem ackOne_eq (s : State) (f : FrameId) : ackOne f s =
    if 0 ≤ idSubtract f s.tx.lastId ∧ idSubtract f s.tx.lastId < txOutstanding s.tx ∧
        ((txSlot s (txIndex s f)).state = .sent ∨ (txSlot s (txIndex s f)).state = .pendingSend) then
      setTxSlot (txIndex s f) { txSlot s (txIndex s f) with state := .acked } s
    else s := by
  rw [ackOne]
  simp only [← and_assoc, ← txInWindow_iff]
  cases txInWindow s.tx f <;> simp

/-- Settles O33: the two cases of ACK_ONE, in the processing context. -/
theorem ackOneMarksTheFrameAcked : Obligations.AckOneMarksTheFrameAcked := by
  intro s f hready
  have hexec : exec (.rxLinkAckOne f) s = .next (completed (ackOne f (entered s))) :=
    congrArg Host.Outcome.next (accept_rxCommand (ackOne f) hready rfl)
  dsimp only
  rw [hexec]
  split
  · rename_i h
    rw [(ackOne_eq (entered s) f).trans (if_pos h)]
    exact ⟨_, rfl, fun j => tableGet_put _ _ _ _ _⟩
  · rename_i h
    rw [(ackOne_eq (entered s) f).trans (if_neg h)]

/-- A NACK reverts a frame of the window that is not Idle and requests a tick, and ignores any other id (R150, R151). -/
theorem nackFrame_eq (s : State) (f : FrameId) : nackFrame f s =
    if 0 ≤ idSubtract f s.tx.lastId ∧ idSubtract f s.tx.lastId < txOutstanding s.tx ∧
        (txSlot s (txIndex s f)).state ≠ .idle then
      requestTick (setTxSlot (txIndex s f) { txSlot s (txIndex s f) with state := .pendingSend } s)
    else s := by
  rw [nackFrame]
  simp only [← and_assoc, ← txInWindow_iff]
  cases txInWindow s.tx f <;> simp

/-- Settles O36: both instructions run the one procedure, whose tick request makes no pulse in the processing context. -/
theorem nacksRevertTheNamedFrame : Obligations.NacksRevertTheNamedFrame := by
  intro s f i hready hi
  have hexec : exec i s = .next (completed (nackFrame f (entered s))) := by
    rcases hi with rfl | rfl
    · exact congrArg Host.Outcome.next (accept_rxCommand (nackFrame f) hready rfl)
    · exact congrArg Host.Outcome.next (accept_rxCommand (nackFrame f) hready rfl)
  dsimp only
  rw [hexec]
  split
  · rename_i h
    rw [(nackFrame_eq (entered s) f).trans (if_pos h), requestTick_inProcess rfl]
    exact ⟨_, rfl, fun j => tableGet_put _ _ _ _ _⟩
  · rename_i h
    rw [(nackFrame_eq (entered s) f).trans (if_neg h)]

/-! ### ACK_ALL (R148, R149) -/

/-- Retiring the first frames of the window leaves the slots of the later ones as they are. -/
theorem txSlot_retireMany {s : State} {k j : Nat} (hcfg : CfgInv s) (hcount : TxCountInv s) (htx : TxInv s)
    (h : (k + j : Int) < txOutstanding s.tx) :
    txSlot (retireMany k s) (txIndex (retireMany k s) ((retireMany k s).tx.lastId + BitVec.ofNat 11 j)) =
      txSlot s (txIndex s (s.tx.lastId + BitVec.ofNat 11 (k + j))) := by
  obtain ⟨slots, heq, hslots⟩ := retireMany_spec k s hcfg hcount htx (by omega)
  have hindex : txIndex (retireMany k s) ((retireMany k s).tx.lastId + BitVec.ofNat 11 j) =
      txIndex s (s.tx.lastId + BitVec.ofNat 11 (k + j)) := by
    rw [heq, ← add_ofNat_add]
    rfl
  have hlater : ¬ ∃ j', j' < k ∧
      txIndex s (s.tx.lastId + BitVec.ofNat 11 j') = txIndex s (s.tx.lastId + BitVec.ofNat 11 (k + j)) := by
    rintro ⟨j', hj', hsame⟩
    have := txIndex_window_inj hcount (htx.1.2.trans (min_le_left _ _)) (by omega) (by push_cast; omega) hsame
    omega
  rw [hindex, heq]
  exact (hslots _).trans (if_neg hlater)

/-- ACK_ALL of a window id retires the frames through the id and the Acked ones that directly follow. -/
theorem ackAll_spec {s : State} {f : FrameId} (hcfg : CfgInv s) (hcount : TxCountInv s) (htx : TxInv s)
    (hw : txInWindow s.tx f = true) :
    ∃ n : Nat, ackAll f s = retireMany n s ∧ idSubtract f s.tx.lastId + 1 ≤ n ∧ (n : Int) ≤ txOutstanding s.tx ∧
      (∀ j : Nat, idSubtract f s.tx.lastId + 1 ≤ j → j < n →
        (txSlot s (txIndex s (s.tx.lastId + BitVec.ofNat 11 j))).state = .acked) ∧
      ((n : Int) < txOutstanding s.tx → (txSlot s (txIndex s (s.tx.lastId + BitVec.ofNat 11 n))).state ≠ .acked) := by
  obtain ⟨h0, hlt⟩ := (txInWindow_iff _ _).mp hw
  obtain ⟨k, hk⟩ : ∃ k : Nat, idSubtract f s.tx.lastId + 1 = k := ⟨_, (Int.toNat_of_nonneg (by omega)).symm⟩
  obtain ⟨hkeeps, hout⟩ := keeps_retireMany k s (by omega)
  obtain ⟨hcount', htx'⟩ := hkeeps.tx hcfg ⟨hcount, htx⟩
  obtain ⟨n, heq, hle, hacked, hstop⟩ := retireAcked_spec (txOutstanding (retireMany k s).tx).toNat _
    (cfgInv_congr hkeeps.cfg hkeeps.par hcfg) hcount' htx' (Int.self_le_toNat _)
  refine ⟨k + n, ?_, by omega, by omega, fun j hj hjn => ?_, fun hn => ?_⟩
  · unfold ackAll
    dsimp only
    rw [if_neg (by simp [hw]), hk, Int.toNat_natCast, heq, retireMany_add]
  · obtain ⟨j, rfl⟩ : ∃ i, j = k + i := ⟨j - k, by omega⟩
    rw [← txSlot_retireMany hcfg hcount htx (by omega)]
    exact hacked j (by omega)
  · rw [← txSlot_retireMany hcfg hcount htx (by omega)]
    exact hstop (by omega)

/-- Outside the window ACK_ALL is ignored. -/
theorem ackAll_ignore {s : State} {f : FrameId} (h : txInWindow s.tx f = false) : ackAll f s = s := if_pos h

theorem exec_ackAll {s : State} (f : FrameId) (h : Ready s) :
    exec (.rxLinkAckAll f) s = .next (completed (ackAll f (entered s))) :=
  congrArg Host.Outcome.next (accept_rxCommand (ackAll f) h rfl)

/-- Settles O34: the frames retired are those of `ackAll_spec`, and `retireMany_spec` says what retiring them writes. -/
theorem ackAllRetiresThroughTheId : Obligations.AckAllRetiresThroughTheId := by
  intro s f hready
  rw [exec_ackAll f hready]
  refine ⟨fun hw => by rw [ackAll_ignore (s := entered s) hw], fun hw hcfg hcount htx => ?_⟩
  obtain ⟨n, heq, hthrough, hle, hacked, hstop⟩ := ackAll_spec (s := entered s) hcfg hcount htx hw
  obtain ⟨slots, hretire, hslots⟩ := retireMany_spec n (entered s) hcfg hcount htx hle
  exact ⟨n, slots, by rw [heq, hretire]; rfl, hthrough, hle, hacked, hstop, hslots⟩

/-- An id that the window's start has passed is no longer in the window. -/
theorem txInWindow_retireMany {s : State} {f : FrameId} {n : Nat} (hcfg : CfgInv s) (hcount : TxCountInv s) (htx : TxInv s)
    (hw : txInWindow s.tx f = true) (hthrough : idSubtract f s.tx.lastId + 1 ≤ n) (hle : (n : Int) ≤ txOutstanding s.tx) :
    txInWindow (retireMany n s).tx f = false := by
  obtain ⟨h0, -⟩ := (txInWindow_iff _ _).mp hw
  obtain ⟨slots, heq, -⟩ := retireMany_spec n s hcfg hcount htx hle
  have hn : (n : Int) ≤ 1023 := hle.trans (idSubtract_le _ _)
  have hpast : idSubtract f (s.tx.lastId + BitVec.ofNat 11 n) < 0 := by
    rw [idSubtract_nonneg _ _ h0] at hthrough
    have hdiff : f - (s.tx.lastId + BitVec.ofNat 11 n) = f - s.tx.lastId - BitVec.ofNat 11 n := by bv_omega
    rw [idSubtract_eq, hdiff, BitVec.toNat_sub, BitVec.toNat_ofNat]
    omega
  rw [← Bool.not_eq_true, txInWindow_iff, heq]
  exact fun h => absurd h.1 (not_le.mpr hpast)

/-- Settles O35: the first ACK_ALL moves the window's start past the id, so the second finds it outside. -/
theorem ackAllTwiceRetiresOnce : Obligations.AckAllTwiceRetiresOnce := by
  intro s f hready hcfg hcount htx hw
  refine ⟨_, exec_ackAll f hready, ?_⟩
  obtain ⟨n, heq, hthrough, hle, -⟩ := ackAll_spec (s := entered s) hcfg hcount htx hw
  obtain ⟨slots, hretire, -⟩ := retireMany_spec n (entered s) hcfg hcount htx hle
  obtain ⟨hlife, hdepth, -⟩ := hready
  have hready' : Ready (completed (ackAll f (entered s))) := by
    rw [heq, hretire]
    exact ⟨hlife, hdepth, le_rfl⟩
  have hpassed : txInWindow (entered (completed (ackAll f (entered s)))).tx f = false := by
    show txInWindow (ackAll f (entered s)).tx f = false
    rw [heq]
    exact txInWindow_retireMany (s := entered s) hcfg hcount htx hw hthrough hle
  rw [exec_ackAll f hready', ackAll_ignore hpassed]

end Sys2Proof.Proofs.Acknowledgements
end

section
/-! PROOFS. The statements of 41_tx_engine.md on the two commands of the TX engine: a SEND that does not block, and TX_WINDOW_SET. Either
ends with its status and, on SUCCESS, with one update of the state; both are accepted nested in a callback too. -/

namespace Sys2Proof.Proofs.Sending

open Sys2Proof Sys2Proof.Machine Sys2Proof.Laws

/-! ### SEND (R131, R132) -/

theorem txWindowFull_iff (t : TxUnit) : txWindowFull t = true ↔
    (t.count.toNat : Int) ≤ idSubtract t.nextId t.lastId ∨ 1023 ≤ idSubtract t.nextId t.lastId := by
  rw [txWindowFull, Bool.or_eq_true, decide_eq_true_iff, decide_eq_true_iff]
  rfl

theorem payloadSizeOk_eq_false_iff (p : Params) (x : List Byte) :
    payloadSizeOk p x = false ↔ x.length = 0 ∨ p.payloadMax < x.length := by
  rw [payloadSizeOk, Bool.and_eq_false_iff, decide_eq_false_iff_not, decide_eq_false_iff_not, not_not, not_le]

/-- The status of an attempt, with its three tests written out in their order. -/
theorem sendStatus_eq (p : List Byte) (s : State) : sendStatus p s =
    if s.conn.state ≠ .connected then .unavailable
    else if (s.tx.count.toNat : Int) ≤ idSubtract s.tx.nextId s.tx.lastId ∨ 1023 ≤ idSubtract s.tx.nextId s.tx.lastId then .full
    else if p.length = 0 ∨ s.par.payloadMax < p.length then .parameterInvalid
    else .success := by
  simp only [sendStatus, txWindowFull_iff, payloadSizeOk_eq_false_iff]

/-- An accepted attempt as one update: the frame in its slot, the window one longer, and the tick request's pulse. -/
theorem sendAccept_eq (m : Metadata) (p : List Byte) (s : State) : sendAccept m p s =
    { s with
      tx := { s.tx with
        nextId := idInc s.tx.nextId
        slots := tablePut TxSlot.zero s.tx.slots (txIndex s s.tx.nextId)
          (filledTxSlot (txSlot s (txIndex s s.tx.nextId)) (dataEncode s.par s.tx.nextId m p)) }
      conn := { s.conn with activity := true }
      stats := { s.stats with txMsgBytes := s.stats.txMsgBytes + BitVec.ofNat 64 p.length }
      tickAt := if s.tickAt.toInt ≤ s.port.now.toInt then s.tickAt else s.port.now
      out := s.out ++ (if s.port.now.toInt < s.tickAt.toInt ∧ s.ctx.inProcess = false then [.wake] else []) } := by
  rw [sendAccept, requestTick_eq]
  rfl

/-- A SEND that does not block is one attempt and its status. -/
theorem exec_send_once {s : State} {tmo : BitVec 28} (m : Metadata) (p : List Byte) (h : ReadyNested s) (ht : tmo.toInt ≤ 0) :
    exec (.send tmo m p) s = .next (answer (sendStatus p s) (sendAttempt m p (accepted s))) := by
  have honce : sendBody tmo m p (accepted s) = answer (sendStatus p s) (sendAttempt m p (accepted s)) := if_pos ht
  rw [← honce]
  exact congrArg Host.Outcome.next (accept_readyNested (sendBody tmo m p) h rfl rfl)

/-- An attempt that fails writes nothing but its status (R132). -/
theorem exec_send_failed {s : State} {tmo : BitVec 28} (m : Metadata) {p : List Byte} {st : Status} (h : ReadyNested s)
    (ht : tmo.toInt ≤ 0) (hst : sendStatus p s = st) (hfail : st ≠ .success) :
    exec (.send tmo m p) s = .next { accepted s with out := s.out ++ [.status st] } := by
  have hnone : sendAttempt m p (accepted s) = accepted s := if_neg fun h => hfail (hst.symm.trans h)
  rw [exec_send_once m p h ht, hst, hnone]
  rfl

/-- Settles O23: the three failures in the order of the tests, and the accepted attempt's update. -/
theorem sendMakesOneAttempt : Obligations.SendMakesOneAttempt := by
  intro s tmo m p h ht
  have hstatus := sendStatus_eq p s
  dsimp only
  split
  · rename_i hconn
    exact exec_send_failed m h ht (hstatus.trans (if_pos hconn)) (by decide)
  rename_i hconn
  rw [if_neg hconn] at hstatus
  split
  · rename_i hfull
    exact exec_send_failed m h ht (hstatus.trans (if_pos hfull)) (by decide)
  rename_i hfull
  rw [if_neg hfull] at hstatus
  split
  · rename_i hsize
    exact exec_send_failed m h ht (hstatus.trans (if_pos hsize)) (by decide)
  rename_i hsize
  rw [if_neg hsize] at hstatus
  have hattempt : sendAttempt m p (accepted s) = sendAccept m p (accepted s) := if_pos hstatus
  refine ⟨_, _, ?_, fun j => tableGet_put _ _ _ _ _, fun k => read_memWrite _ _ k⟩
  rw [exec_send_once m p h ht, hstatus, hattempt, sendAccept_eq]
  rfl

/-! ### TX_WINDOW_SET (R134 to R137) -/

/-- The move of the frame in flight writes the slots alone: the frame's slot, and slot 0 that it leaves (R136). -/
theorem relocate_spec (c : BitVec 11) (s : State) : ∃ slots,
    relocate c s = { s with tx := { s.tx with slots := slots } } ∧
    ∀ j, tableGet TxSlot.zero slots j =
      if txOutstanding s.tx = 1 ∧ slotIndex s.tx.lastId c ≠ 0 then
        (if j = 0 then { txSlot s 0 with state := .idle, sendCount := 0 }
         else if j = slotIndex s.tx.lastId c then txSlot s 0 else txSlot s j)
      else txSlot s j := by
  unfold relocate
  dsimp only
  split
  · exact ⟨_, rfl, fun j => by simp [txSlot]⟩
  · exact ⟨s.tx.slots, rfl, fun _ => rfl⟩

theorem windowSetStatus_eq (n : BitVec 32) (s : State) :
    windowSetStatus n s = if s.tx.count ≠ 1 ∨ n = 0 then .parameterInvalid else .success := by
  rw [windowSetStatus, ite_or]

/-- TX_WINDOW_SET is its procedure and its status. -/
theorem exec_txWindowSet {s : State} (n : BitVec 32) (h : ReadyNested s) :
    exec (.txWindowSet n) s = .next (answer (windowSetStatus n s) (windowSet n (accepted s))) :=
  congrArg Host.Outcome.next (accept_readyNested (windowSetBody n) h rfl rfl)

/-- A request that is not valid writes nothing. -/
theorem windowSet_failed {n : BitVec 32} {s : State} (h : windowSetStatus n s = .parameterInvalid) : windowSet n s = s :=
  if_neg (by simp [h])

/-- An accepted request makes the move and writes the new window. -/
theorem windowSet_spec {n : BitVec 32} {s : State} (h : windowSetStatus n s = .success) : ∃ slots,
    windowSet n s = { s with tx := { s.tx with count := grownCount s n, slots := slots } } ∧
    ∀ j, tableGet TxSlot.zero slots j =
      if txOutstanding s.tx = 1 ∧ slotIndex s.tx.lastId (grownCount s n) ≠ 0 then
        (if j = 0 then { txSlot s 0 with state := .idle, sendCount := 0 }
         else if j = slotIndex s.tx.lastId (grownCount s n) then txSlot s 0 else txSlot s j)
      else txSlot s j := by
  obtain ⟨slots, hmove, hslots⟩ := relocate_spec (grownCount s n) s
  refine ⟨slots, ?_, hslots⟩
  rw [windowSet, if_pos h]
  dsimp only
  rw [hmove]

/-- Settles O26: the status decides between no write and the update of `windowSet_spec`. -/
theorem txWindowSetGrowsOnceAndMovesTheFrame : Obligations.TxWindowSetGrowsOnceAndMovesTheFrame := by
  intro s n h
  have hstatus := windowSetStatus_eq n s
  rw [exec_txWindowSet n h]
  split
  · rename_i hbad
    rw [if_pos hbad] at hstatus
    rw [windowSet_failed (s := accepted s) hstatus, hstatus]
    rfl
  · rename_i hgood
    rw [if_neg hgood] at hstatus
    obtain ⟨slots, hset, hslots⟩ := windowSet_spec (s := accepted s) hstatus
    refine ⟨slots, ?_, hslots⟩
    rw [hset, hstatus]
    rfl

end Sys2Proof.Proofs.Sending
end

section
/-! PROOFS. The statements of 42_rx_engine.md. An accepted RX_DATA or RX_FRAMING_ERROR is its procedure, run on `entered s` and completed;
each case of RX_DATA is then said once. The gap walk of a future frame is `nackGaps_spec`, the catch-up of an expected one
`catchUpFrom_spec`. -/

namespace Sys2Proof.Proofs.RxEngine

open Sys2Proof Sys2Proof.Machine Sys2Proof.Laws

/-! ### The commands and the cases of RX_DATA (R171 to R173, R182) -/

theorem exec_rxData {s : State} (f : FrameId) (m : Metadata) (p : List Byte) (h : Ready s) :
    exec (.rxData f m p) s = .next (completed (rxDataProc f m p (entered s))) :=
  congrArg Host.Outcome.next (accept_rxCommand (rxDataProc f m p) h rfl)

theorem exec_rxFramingError {s : State} (h : Ready s) :
    exec .rxFramingError s = .next (completed (rxFramingErrorProc (entered s))) :=
  congrArg Host.Outcome.next (accept_rxCommand rxFramingErrorProc h rfl)

/-- The state in which RX_DATA of a Connected block goes on: `activity <- 1` (R171). -/
def active (s : State) : State := { s with conn := { s.conn with activity := true } }

theorem rxDataProc_disconnected {s : State} (f : FrameId) (m : Metadata) (p : List Byte) (h : s.conn.state = .disconnected) :
    rxDataProc f m p s = s := if_pos (by simp [h])

theorem rxDataProc_connected {s : State} (f : FrameId) (m : Metadata) (p : List Byte) (h : s.conn.state = .connected) :
    rxDataProc f m p s =
      if payloadSizeOk s.par p = false then linkPush .nackFrameId s.rx.nextId (active s)
      else if idSubtract f s.rx.nextId = 0 then exactMatch f m p (active s)
      else if idSubtract f s.rx.nextId < 0 then pastFrame (active s)
      else if (s.cfg.rxWindowSize.toNat : Int) ≤ idSubtract f s.rx.nextId then tooFarFuture f (active s)
      else futureInWindow f m p (active s) := if_neg (by simp [h])

theorem payloadSizeOk_iff (q : Params) (p : List Byte) : payloadSizeOk q p = true ↔ p.length ≠ 0 ∧ p.length ≤ q.payloadMax := by
  rw [payloadSizeOk, Bool.and_eq_true, decide_eq_true_iff, decide_eq_true_iff]

/-- A payload of a legal size is told apart by its distance from the expected id (R173). -/
theorem rxDataProc_sizeOk {s : State} (f : FrameId) (m : Metadata) {p : List Byte} (h : s.conn.state = .connected)
    (hsize : p.length ≠ 0 ∧ p.length ≤ s.par.payloadMax) :
    rxDataProc f m p s =
      if idSubtract f s.rx.nextId = 0 then exactMatch f m p (active s)
      else if idSubtract f s.rx.nextId < 0 then pastFrame (active s)
      else if (s.cfg.rxWindowSize.toNat : Int) ≤ idSubtract f s.rx.nextId then tooFarFuture f (active s)
      else futureInWindow f m p (active s) := by
  rw [rxDataProc_connected f m p h, if_neg (by simp [(payloadSizeOk_iff _ _).mpr hsize])]

theorem rxDataProc_expected {s : State} (m : Metadata) {p : List Byte} (h : s.conn.state = .connected)
    (hsize : p.length ≠ 0 ∧ p.length ≤ s.par.payloadMax) :
    rxDataProc s.rx.nextId m p s = exactMatch s.rx.nextId m p (active s) := by
  rw [rxDataProc_sizeOk _ m h hsize, if_pos (idSubtract_self _)]

/-- RX_DATA of the expected frame is an exact match (R174). -/
theorem exec_rxData_expected {s t : State} (m : Metadata) {p : List Byte} (hready : Ready s) (hconn : s.conn.state = .connected)
    (hsize : p.length ≠ 0 ∧ p.length ≤ s.par.payloadMax) (h : exactMatch s.rx.nextId m p (active (entered s)) = t) :
    exec (.rxData s.rx.nextId m p) s = .next (completed t) := by
  rw [exec_rxData _ m p hready, ← h]
  exact congrArg (fun t => Host.Outcome.next (completed t)) (rxDataProc_expected (s := entered s) m hconn hsize)

theorem rxDataProc_past {s : State} {f : FrameId} (m : Metadata) {p : List Byte} (h : s.conn.state = .connected)
    (hsize : p.length ≠ 0 ∧ p.length ≤ s.par.payloadMax) (hpast : idSubtract f s.rx.nextId < 0) :
    rxDataProc f m p s = pastFrame (active s) := by
  rw [rxDataProc_sizeOk f m h hsize, if_neg hpast.ne, if_pos hpast]

theorem rxDataProc_tooFar {s : State} {f : FrameId} (m : Metadata) {p : List Byte} (h : s.conn.state = .connected)
    (hsize : p.length ≠ 0 ∧ p.length ≤ s.par.payloadMax) (hfuture : 0 < idSubtract f s.rx.nextId)
    (hfar : (s.cfg.rxWindowSize.toNat : Int) ≤ idSubtract f s.rx.nextId) :
    rxDataProc f m p s = tooFarFuture f (active s) := by
  rw [rxDataProc_sizeOk f m h hsize, if_neg hfuture.ne', if_neg hfuture.not_gt, if_pos hfar]

theorem rxDataProc_future {s : State} {f : FrameId} (m : Metadata) {p : List Byte} (h : s.conn.state = .connected)
    (hsize : p.length ≠ 0 ∧ p.length ≤ s.par.payloadMax) (hfuture : 0 < idSubtract f s.rx.nextId)
    (hwindow : idSubtract f s.rx.nextId < s.cfg.rxWindowSize.toNat) :
    rxDataProc f m p s = futureInWindow f m p (active s) := by
  rw [rxDataProc_sizeOk f m h hsize, if_neg hfuture.ne', if_neg hfuture.not_gt, if_neg (not_le.mpr hwindow)]

/-- Settles O37: the cases of RX_DATA that push one word, and the discard while Disconnected. -/
theorem rxDataAnswersWithoutDelivery : Obligations.RxDataAnswersWithoutDelivery := by
  intro s f m p hready
  dsimp only
  rw [exec_rxData f m p hready]
  refine ⟨fun hconn => ?disconnected, fun hconn hsize => ?badSize, fun hconn hsize hpast => ?past,
    fun hconn hsize hfuture hfar => ?tooFar⟩
  case disconnected => rw [rxDataProc_disconnected (s := entered s) f m p hconn]
  case badSize =>
    have hbad : payloadSizeOk (entered s).par p = false := by
      rw [← Bool.not_eq_true, payloadSizeOk_iff]; exact hsize
    rw [rxDataProc_connected (s := entered s) f m p hconn, if_pos hbad]
    rfl
  case past =>
    rw [rxDataProc_past (s := entered s) m hconn hsize hpast]
    rfl
  case tooFar =>
    rw [rxDataProc_tooFar (s := entered s) m hconn hsize hfuture hfar]
    rfl

/-- Settles O41: the one test of RX_FRAMING_ERROR, in the processing context. -/
theorem framingErrorIsNackedWhileConnected : Obligations.FramingErrorIsNackedWhileConnected := by
  intro s hready
  rw [exec_rxFramingError hready]
  refine ⟨fun hconn => ?_, fun hconn => ?_⟩
  · have hnone : rxFramingErrorProc (entered s) = entered s := if_pos (by simp [entered, hconn])
    rw [hnone]
  · have hpush : rxFramingErrorProc (entered s) = linkPush .nackFramingError s.rx.nextId (entered s) :=
      if_neg (by simp [entered, hconn])
    rw [hpush]

/-! ### A future frame in the window (R178) -/

theorem pushAll_append (l k : List (LinkType × FrameId)) (s : State) : pushAll (l ++ k) s = pushAll k (pushAll l s) :=
  List.foldl_append

theorem pushAll_cfg (l : List (LinkType × FrameId)) (s : State) : (pushAll l s).cfg = s.cfg := by
  induction l generalizing s with
  | nil => rfl
  | cons w l ih => exact (ih (linkPush w.1 w.2 s)).trans (linkPush_cfg s w.1 w.2)

/-- The ids of an RX window have slots of their own. -/
theorem rxIndex_inj {s : State} {f g : FrameId} (hcfg : CfgInv s)
    (hf0 : 0 ≤ idSubtract f s.rx.nextId) (hf : idSubtract f s.rx.nextId < s.cfg.rxWindowSize.toNat)
    (hg0 : 0 ≤ idSubtract g s.rx.nextId) (hg : idSubtract g s.rx.nextId < s.cfg.rxWindowSize.toNat)
    (h : rxIndex s f = rxIndex s g) : f = g := by
  obtain ⟨-, ⟨k, hk, hw⟩, -⟩ := hcfg
  exact slotIndex_inj s.rx.nextId f g _ k hw hk hf0 hf hg0 hg h

theorem nodup_idRange (a b : FrameId) : (idRange a b).Nodup := by
  rw [idRange_eq_map]
  refine List.Nodup.map_on (fun j hj k hk h => ?_) List.nodup_range
  have hlt := (b - a).isLt
  rw [List.mem_range] at hj hk
  bv_omega

/-- The RX unit once a frame has been seen as the latest, if it is (R178). -/
def maxSeen (f : FrameId) (r : RxUnit) : RxUnit := { r with maxId := if 0 < idSubtract f r.maxId then f else r.maxId }

theorem maxSeen_eq (f : FrameId) (s : State) :
    (if 0 < idSubtract f s.rx.maxId then { s with rx := { s.rx with maxId := f } } else s) = { s with rx := maxSeen f s.rx } := by
  unfold maxSeen
  split <;> rfl

/-- What follows the gap walk: the frame's slot and its ACK_ONE. -/
def storeFrame (f : FrameId) (m : Metadata) (p : List Byte) (s : State) : State :=
  linkPush .ackOne f (setRxSlot (rxIndex s f) (storedRxSlot (rxSlot s (rxIndex s f)) f m p) s)

theorem futureInWindow_eq (f : FrameId) (m : Metadata) (p : List Byte) (s : State) :
    futureInWindow f m p s =
      storeFrame f m p ((idRange s.rx.nextId f).foldl nackGap { s with rx := maxSeen f s.rx }) := by
  rw [futureInWindow, maxSeen_eq]
  rfl

theorem storeFrame_withRx (f : FrameId) (m : Metadata) (p : List Byte) (s : State) (r : RxUnit) :
    storeFrame f m p { s with rx := r } =
      { linkPush .ackOne f s with
        rx := { r with slots := tablePut RxSlot.zero r.slots (rxIndex s f)
                                  (storedRxSlot (tableGet RxSlot.zero r.slots (rxIndex s f)) f m p) } } :=
  linkPush_withRx .ackOne f s _

/-- A future frame in the window, as one update of the RX unit and its pushes: the gap walk, then the frame's own slot. -/
theorem futureInWindow_spec {s : State} {f : FrameId} (m : Metadata) (p : List Byte) (hcfg : CfgInv s)
    (hfuture : 0 < idSubtract f s.rx.nextId) (hwindow : idSubtract f s.rx.nextId < s.cfg.rxWindowSize.toNat) :
    ∃ slots,
      futureInWindow f m p s =
        { pushAll (gapNacks s (idRange s.rx.nextId f) ++ [(LinkType.ackOne, f)]) s with
          rx := { maxSeen f s.rx with slots := slots } } ∧
      tableGet RxSlot.zero slots (rxIndex s f) = storedRxSlot (rxSlot s (rxIndex s f)) f m p ∧
      (∀ g ∈ idleIds s (idRange s.rx.nextId f), tableGet RxSlot.zero slots (rxIndex s g) = nackedSlot s g) ∧
      (∀ i, i ≠ rxIndex s f → (∀ g ∈ idleIds s (idRange s.rx.nextId f), rxIndex s g ≠ i) →
        tableGet RxSlot.zero slots i = rxSlot s i) := by
  have hgap (g : FrameId) : g ∈ idRange s.rx.nextId f ↔
      0 ≤ idSubtract g s.rx.nextId ∧ idSubtract g s.rx.nextId < idSubtract f s.rx.nextId := mem_idRange _ _ g hfuture.le
  have hidle (g : FrameId) : g ∈ idleIds s (idRange s.rx.nextId f) ↔
      g ∈ idRange s.rx.nextId f ∧ (rxSlot s (rxIndex s g)).state = .idle := by
    rw [idleIds, List.mem_filter, decide_eq_true_iff]
  have hdistinct : ∀ a ∈ idRange s.rx.nextId f, ∀ b ∈ idRange s.rx.nextId f, rxIndex s a = rxIndex s b → a = b := by
    intro a ha b hb
    obtain ⟨ha0, ha⟩ := (hgap a).mp ha
    obtain ⟨hb0, hb⟩ := (hgap b).mp hb
    exact rxIndex_inj hcfg ha0 (ha.trans hwindow) hb0 (hb.trans hwindow)
  have hown : ∀ g ∈ idRange s.rx.nextId f, rxIndex s g ≠ rxIndex s f := by
    intro g hg heq
    obtain ⟨hg0, hg⟩ := (hgap g).mp hg
    rw [rxIndex_inj hcfg hg0 (hg.trans hwindow) hfuture.le hwindow heq] at hg
    exact hg.false
  obtain ⟨slots, hwalk, hnacked, hkept⟩ :=
    nackGaps_spec (idRange s.rx.nextId f) { s with rx := maxSeen f s.rx } hdistinct (nodup_idRange _ _)
  have hold : tableGet RxSlot.zero slots (rxIndex s f) = rxSlot s (rxIndex s f) := hkept _ fun g hg _ => hown g hg
  refine ⟨tablePut RxSlot.zero slots (rxIndex s f) (storedRxSlot (rxSlot s (rxIndex s f)) f m p), ?_, ?_,
    fun g hg => ?_, fun i hi hg => ?_⟩
  · have hindex : rxIndex (pushAll (gapNacks s (idRange s.rx.nextId f)) s) f = rxIndex s f :=
      rxIndex_congr s (pushAll_cfg _ s) f
    rw [pushAll_withRx] at hwalk
    rw [futureInWindow_eq, hwalk, pushAll_append]
    refine (storeFrame_withRx f m p (pushAll (gapNacks s (idRange s.rx.nextId f)) s) _).trans ?_
    rw [hindex, hold]
    rfl
  · rw [tableGet_put, if_pos rfl]
  · obtain ⟨hmem, hstate⟩ := (hidle g).mp hg
    rw [tableGet_put, if_neg (hown g hmem)]
    exact hnacked g hmem hstate
  · rw [tableGet_put, if_neg hi]
    exact hkept i fun g hmem hstate => hg g ((hidle g).mpr ⟨hmem, hstate⟩)

/-- Settles O38: the update of `futureInWindow_spec`, its slots said in the terms of the statement. -/
theorem futureFrameIsStoredAndGapsNacked : Obligations.FutureFrameIsStoredAndGapsNacked := by
  intro s f m p hready hcfg hconn hpos hmax hfuture hwindow
  dsimp only
  obtain ⟨slots, hstate, hstored, hnacked, hkept⟩ :=
    futureInWindow_spec (s := active (entered s)) m p hcfg hfuture hwindow
  refine ⟨slots, memWrite (rxSlot s (rxIndex s f)).payload p, ?_, hstored, hnacked, hkept, read_memWrite _ p⟩
  rw [exec_rxData f m p hready, rxDataProc_future (s := entered s) m hconn ⟨hpos, hmax⟩ hfuture hwindow, hstate]
  rfl

/-! ### The expected frame and the frames held behind it (R174, R175) -/

/-- The state in which the expected frame is delivered: its slot is free. -/
def freed (s : State) : State := setRxSlot (rxIndex s s.rx.nextId) { rxSlot s (rxIndex s s.rx.nextId) with state := .idle } s

/-- An exact match through the state that the frame's handler leaves (R174, R311). -/
theorem exactMatch_eq {s t : State} {m : Metadata} {p : List Byte} (h : deliver m p (freed s) = t) :
    exactMatch s.rx.nextId m p s =
      if t.ctx.resetEpoch ≠ s.ctx.resetEpoch then t
      else if idSubtract t.rx.maxId s.rx.nextId ≤ 0 then
        linkPush .ackAll s.rx.nextId { t with rx := { t.rx with nextId := s.rx.nextId + 1, maxId := s.rx.nextId } }
      else catchUp { t with rx := { t.rx with nextId := s.rx.nextId + 1 } } := by
  subst h
  rfl

/-- Two bounds above the window make one catch-up (log entry 16). -/
theorem catchUpFrom_eq_of_window_lt {s : State} {a b : Nat} (last : FrameId) (hcfg : CfgInv s)
    (ha : 1024 < a) (hb : 1024 < b) : catchUpFrom a last s = catchUpFrom b last s := by
  obtain ⟨hpos, hle⟩ := cfgInv_rxWindow hcfg
  have hcount := storedCount_le s s.cfg.rxWindowSize.toNat
  exact catchUpFrom_bound s.cfg.rxWindowSize.toNat hpos a b last s rfl (by omega) (by omega)

theorem catchUp_notHeld {s : State} (h : ¬ rxNextStored s = true) : catchUp s = linkPush .ackAll (s.rx.nextId - 1) s := if_neg h

/-- The state in which the catch-up goes on after a delivery: the held frame's slot is free and the next frame is due. -/
def advanced (i : Nat) (t : State) : State :=
  { t with rx := { t.rx with nextId := t.rx.nextId + 1,
                             slots := tablePut RxSlot.zero t.rx.slots i { rxSlot t i with state := .idle } } }

/-- One turn of the catch-up: the held frame's delivery, then the catch-up again from the state that its handler leaves, the loop's bound
being out of reach (R175, R311). -/
theorem catchUp_held {s t : State} (hcfg : CfgInv s) (h : rxNextStored s = true)
    (ht : deliver (rxSlot s (rxIndex s s.rx.nextId)).metadata
      (memRead (rxSlot s (rxIndex s s.rx.nextId)).payload (rxSlot s (rxIndex s s.rx.nextId)).len.toNat) s = t) :
    catchUp s = if t.ctx.resetEpoch ≠ s.ctx.resetEpoch then t else catchUp (advanced (rxIndex s s.rx.nextId) t) := by
  have hkeeps : Keeps s t := ht ▸ keeps_deliver s _ _
  have hcfg' : CfgInv (advanced (rxIndex s s.rx.nextId) t) := cfgInv_congr hkeeps.cfg hkeeps.par hcfg
  have hturn : catchUp s = if t.ctx.resetEpoch ≠ s.ctx.resetEpoch then t
      else catchUpFrom 2047 t.rx.nextId (advanced (rxIndex s s.rx.nextId) t) := by
    subst ht
    exact if_pos h
  have hlast : idDec (advanced (rxIndex s s.rx.nextId) t).rx.nextId = t.rx.nextId := BitVec.add_sub_cancel _ _
  rw [hturn, catchUp, hlast, catchUpFrom_eq_of_window_lt (b := 2048) _ hcfg' (by norm_num) (by norm_num)]

/-- Settles O40: `exactMatch_eq`, and one turn of the catch-up. -/
theorem deliveryGoesOnUnlessItsHandlerResets : Obligations.DeliveryGoesOnUnlessItsHandlerResets := by
  refine ⟨fun s m p hready hconn hpos hmax => ?_, fun s hcfg => ?_⟩
  · have hexec {t : State} := exec_rxData_expected (t := t) m hready hconn ⟨hpos, hmax⟩
    have hexact := exactMatch_eq (s := active (entered s)) (m := m) (p := p) rfl
    refine ⟨fun hreset => ?_, fun hsame hlatest => ?_, fun hsame hahead => ?_⟩
    · exact hexec (hexact.trans (if_pos hreset))
    · exact hexec ((hexact.trans (if_neg (not_not.mpr hsame))).trans (if_pos hlatest))
    · exact hexec ((hexact.trans (if_neg (not_not.mpr hsame))).trans (if_neg (not_le.mpr hahead)))
  · dsimp only
    rw [← rxNextStored_iff]
    refine ⟨catchUp_notHeld, fun hdue hreset => ?_, fun hdue hsame => ?_⟩
    · exact (catchUp_held hcfg hdue rfl).trans (if_pos hreset)
    · exact ⟨_, (catchUp_held hcfg hdue rfl).trans (if_neg (not_not.mpr hsame)), fun j => tableGet_put _ _ _ _ _⟩

/-! ### The expected frame and its followers, with no handler wired (R174, R175) -/

/-- The state in which the expected frame has been delivered and the next is due. -/
def expectedDelivered (m : Metadata) (p : List Byte) (s : State) : State :=
  { s with
    rx := { s.rx with nextId := s.rx.nextId + 1,
                      slots := tablePut RxSlot.zero s.rx.slots (rxIndex s s.rx.nextId)
                                { rxSlot s (rxIndex s s.rx.nextId) with state := .idle } }
    stats := { s.stats with rxMsgBytes := s.stats.rxMsgBytes + BitVec.ofNat 64 p.length,
                            rxDataFrames := s.stats.rxDataFrames + 1 }
    out := s.out ++ [.upRecv m p] }

theorem exactMatch_unwired {s : State} (m : Metadata) (p : List Byte) (h : s.port.handlers = []) :
    exactMatch s.rx.nextId m p s =
      if idSubtract s.rx.maxId s.rx.nextId ≤ 0 then
        linkPush .ackAll s.rx.nextId { expectedDelivered m p s with
          rx := { (expectedDelivered m p s).rx with maxId := s.rx.nextId } }
      else catchUp (expectedDelivered m p s) := by
  rw [exactMatch_eq (deliver_unwired m p (freed s) h)]
  exact if_neg (not_not.mpr rfl)

theorem expectedDelivered_nextId_add (m : Metadata) (p : List Byte) (s : State) (k : Nat) :
    (expectedDelivered m p s).rx.nextId + BitVec.ofNat 11 k = s.rx.nextId + BitVec.ofNat 11 (k + 1) := by
  rw [Nat.add_comm k 1, ← add_ofNat_add]
  rfl

theorem rxSlot_expectedDelivered (m : Metadata) (p : List Byte) (s : State) (i : Nat) :
    rxSlot (expectedDelivered m p s) i =
      if i = rxIndex s s.rx.nextId then { rxSlot s (rxIndex s s.rx.nextId) with state := .idle } else rxSlot s i :=
  tableGet_put _ _ _ _ _

/-- The ids of an RX window, counted from the one that is due, have slots of their own. -/
theorem rxIndex_add_inj {s : State} {j k : Nat} (hcfg : CfgInv s) (hj : j < s.cfg.rxWindowSize.toNat)
    (hk : k < s.cfg.rxWindowSize.toNat)
    (h : rxIndex s (s.rx.nextId + BitVec.ofNat 11 j) = rxIndex s (s.rx.nextId + BitVec.ofNat 11 k)) : j = k := by
  obtain ⟨-, ⟨e, he, hw⟩, -⟩ := hcfg
  exact slotIndex_add_inj _ _ e j k hw he hj hk h

/-- The frame `k` places after the one that is due is held. -/
def Held (s : State) (k : Nat) : Prop :=
  (heldSlot s k).state = .stored ∧ (heldSlot s k).frameId = s.rx.nextId + BitVec.ofNat 11 k

/-- Delivering the expected frame leaves the slots of the later frames of the window as they are. -/
theorem heldSlot_expectedDelivered {s : State} {k : Nat} (m : Metadata) (p : List Byte) (hcfg : CfgInv s)
    (hk : k + 1 < s.cfg.rxWindowSize.toNat) : heldSlot (expectedDelivered m p s) k = heldSlot s (k + 1) := by
  have hother : rxIndex s (s.rx.nextId + BitVec.ofNat 11 (k + 1)) ≠ rxIndex s s.rx.nextId := fun h =>
    absurd (rxIndex_add_inj (k := 0) hcfg hk (by omega) (by simpa using h)) (by omega)
  rw [heldSlot, expectedDelivered_nextId_add, rxSlot_expectedDelivered]
  exact if_neg hother

theorem held_expectedDelivered {s : State} {k : Nat} (m : Metadata) (p : List Byte) (hcfg : CfgInv s)
    (hk : k + 1 < s.cfg.rxWindowSize.toNat) : Held (expectedDelivered m p s) k ↔ Held s (k + 1) := by
  rw [Held, heldSlot_expectedDelivered m p hcfg hk, expectedDelivered_nextId_add]
  rfl

/-- One window after the expected frame its own slot comes again, which the delivery has freed. -/
theorem not_held_of_window_end {s : State} {n : Nat} (m : Metadata) (p : List Byte) (hcfg : CfgInv s)
    (hn : n + 1 = s.cfg.rxWindowSize.toNat) : ¬ Held (expectedDelivered m p s) n := by
  obtain ⟨-, ⟨e, he, hw⟩, -⟩ := hcfg
  have hsame : rxIndex s (s.rx.nextId + BitVec.ofNat 11 (n + 1)) = rxIndex s s.rx.nextId := by
    rw [rxIndex, slotIndex_add _ _ e _ hw (by omega), hn, Nat.add_mod_right, rxIndex, slotIndex, Nat.mod_mod]
  have hslot : heldSlot (expectedDelivered m p s) n = { rxSlot s (rxIndex s s.rx.nextId) with state := .idle } := by
    rw [heldSlot, expectedDelivered_nextId_add, rxSlot_expectedDelivered]
    exact if_pos hsame
  rintro ⟨hstored, -⟩
  rw [hslot] at hstored
  cases hstored

/-- The state in which the `n` frames held from the one that is due on have been delivered. -/
def heldDelivered (n : Nat) (maxId : FrameId) (slots : List (Nat × RxSlot)) (s : State) : State :=
  { s with
    rx := ⟨s.rx.nextId + BitVec.ofNat 11 n, maxId, slots⟩
    stats := { s.stats with rxMsgBytes := s.stats.rxMsgBytes + BitVec.ofNat 64 (heldBytes s n),
                            rxDataFrames := s.stats.rxDataFrames + BitVec.ofNat 64 n }
    out := s.out ++ heldOutputs s n }

theorem heldDelivered_zero (maxId : FrameId) (s : State) :
    heldDelivered 0 maxId s.rx.slots s = { s with rx := { s.rx with maxId := maxId } } := by
  simp [heldDelivered, heldBytes, heldOutputs]

/-- The slots once the `n` frames held from the one that is due on have been delivered: theirs are Idle. -/
def HeldFreed (n : Nat) (slots : List (Nat × RxSlot)) (s : State) : Prop :=
  ∀ i, tableGet RxSlot.zero slots i =
    if ∃ k, k < n ∧ rxIndex s (s.rx.nextId + BitVec.ofNat 11 k) = i then { rxSlot s i with state := .idle } else rxSlot s i

/-- The last of the expected frame and its `n` followers. -/
theorem lastDelivered_eq (m : Metadata) (p : List Byte) (s : State) (n : Nat) :
    (if n = 0 then idDec (expectedDelivered m p s).rx.nextId
      else (expectedDelivered m p s).rx.nextId + BitVec.ofNat 11 (n - 1)) = s.rx.nextId + BitVec.ofNat 11 n := by
  cases n with
  | zero => exact (BitVec.add_sub_cancel _ _).trans (BitVec.add_zero _).symm
  | succ n => exact expectedDelivered_nextId_add m p s n

/-- The catch-up after the expected frame delivers its `n` followers and no more. -/
theorem catchUp_followers {s : State} {n : Nat} (m : Metadata) (p : List Byte) (hcfg : CfgInv s) (hunwired : s.port.handlers = [])
    (hn : n < s.cfg.rxWindowSize.toNat) (hheld : ∀ k, 1 ≤ k → k ≤ n → Held s k)
    (hstop : n + 1 < s.cfg.rxWindowSize.toNat → ¬ Held s (n + 1)) :
    ∃ slots, catchUp (expectedDelivered m p s) =
        linkPush .ackAll (s.rx.nextId + BitVec.ofNat 11 n)
          (heldDelivered n s.rx.maxId slots (expectedDelivered m p s)) ∧
      HeldFreed n slots (expectedDelivered m p s) := by
  obtain ⟨-, hle⟩ := cfgInv_rxWindow hcfg
  have hstored (k : Nat) (hk : k < n) : Held (expectedDelivered m p s) k :=
    (held_expectedDelivered m p hcfg (by omega)).mpr (hheld (k + 1) (by omega) (by omega))
  have hend : ¬ Held (expectedDelivered m p s) n := by
    rcases Nat.lt_or_eq_of_le (Nat.succ_le_of_lt hn) with hlt | hend
    · exact fun h => hstop hlt ((held_expectedDelivered m p hcfg hlt).mp h)
    · exact not_held_of_window_end m p hcfg hend
  have hdistinct (j k : Nat) (hjk : j < k) (hk : k < n) :
      rxIndex s ((expectedDelivered m p s).rx.nextId + BitVec.ofNat 11 j) ≠
        rxIndex s ((expectedDelivered m p s).rx.nextId + BitVec.ofNat 11 k) := by
    rw [expectedDelivered_nextId_add, expectedDelivered_nextId_add]
    intro h
    have := rxIndex_add_inj hcfg (by omega) (by omega) h
    omega
  obtain ⟨slots, hcatch, hslots⟩ := catchUpFrom_spec n 2048 (idDec (expectedDelivered m p s).rx.nextId)
    (expectedDelivered m p s) hunwired (by omega) hstored hdistinct fun _ => hend
  rw [lastDelivered_eq] at hcatch
  exact ⟨slots, hcatch, hslots⟩

/-- With no handler wired, an exact match delivers the expected frame and its followers, and acknowledges the last of them. -/
theorem exactMatch_followers {s : State} {n : Nat} (m : Metadata) (p : List Byte) (hcfg : CfgInv s)
    (hunwired : s.port.handlers = []) (hn : n < s.cfg.rxWindowSize.toNat)
    (hlatest : ¬ 0 < idSubtract s.rx.maxId s.rx.nextId → n = 0) (hheld : ∀ k, 1 ≤ k → k ≤ n → Held s k)
    (hstop : 0 < idSubtract s.rx.maxId s.rx.nextId → n + 1 < s.cfg.rxWindowSize.toNat → ¬ Held s (n + 1)) :
    ∃ slots, exactMatch s.rx.nextId m p s =
        linkPush .ackAll (s.rx.nextId + BitVec.ofNat 11 n)
          (heldDelivered n (if 0 < idSubtract s.rx.maxId s.rx.nextId then s.rx.maxId else s.rx.nextId) slots
            (expectedDelivered m p s)) ∧
      HeldFreed n slots (expectedDelivered m p s) := by
  rw [exactMatch_unwired m p hunwired]
  by_cases hahead : 0 < idSubtract s.rx.maxId s.rx.nextId
  · rw [if_neg (not_le.mpr hahead), if_pos hahead]
    exact catchUp_followers m p hcfg hunwired hn hheld (hstop hahead)
  · obtain rfl := hlatest hahead
    rw [if_pos (not_lt.mp hahead), if_neg hahead]
    refine ⟨(expectedDelivered m p s).rx.slots, ?_, fun i => by simp [rxSlot]⟩
    rw [heldDelivered_zero, BitVec.add_zero]

/-- The slots after the expected frame and its followers, in the terms of the state before: those of all `n + 1` frames are Idle. -/
theorem tableGet_of_heldFreed {s : State} {n : Nat} {slots : List (Nat × RxSlot)} (m : Metadata) (p : List Byte)
    (h : HeldFreed n slots (expectedDelivered m p s)) (i : Nat) :
    tableGet RxSlot.zero slots i =
      if ∃ k, k ≤ n ∧ rxIndex s (s.rx.nextId + BitVec.ofNat 11 k) = i then { rxSlot s i with state := .idle } else rxSlot s i := by
  have hslot := h i
  simp only [expectedDelivered_nextId_add, rxSlot_expectedDelivered] at hslot
  rw [hslot]
  by_cases hi : i = rxIndex s s.rx.nextId
  · have hfirst : ∃ k, k ≤ n ∧ rxIndex s (s.rx.nextId + BitVec.ofNat 11 k) = i :=
      ⟨0, Nat.zero_le n, by rw [BitVec.add_zero, hi]⟩
    rw [if_pos hi, if_pos hfirst, ← hi, ite_self]
  · have hshift : (∃ k, k < n ∧ rxIndex s (s.rx.nextId + BitVec.ofNat 11 (k + 1)) = i) ↔
        ∃ k, k ≤ n ∧ rxIndex s (s.rx.nextId + BitVec.ofNat 11 k) = i := by
      constructor
      · rintro ⟨k, hk, hidx⟩
        exact ⟨k + 1, hk, hidx⟩
      · rintro ⟨k, hk, hidx⟩
        cases k with
        | zero => exact absurd (by rw [← hidx, BitVec.add_zero]) hi
        | succ k => exact ⟨k, hk, hidx⟩
    rw [if_neg hi]
    exact if_congr hshift rfl rfl

theorem heldOutputs_expectedDelivered {s : State} {n : Nat} (m : Metadata) (p : List Byte) (hcfg : CfgInv s)
    (hn : n < s.cfg.rxWindowSize.toNat) : heldOutputs (expectedDelivered m p s) n = (List.range n).map fun k =>
      .upRecv (heldSlot s (k + 1)).metadata (memRead (heldSlot s (k + 1)).payload (heldSlot s (k + 1)).len.toNat) := by
  refine List.map_congr_left fun k hk => ?_
  rw [List.mem_range] at hk
  rw [heldSlot_expectedDelivered m p hcfg (by omega)]

theorem heldBytes_expectedDelivered {s : State} {n : Nat} (m : Metadata) (p : List Byte) (hcfg : CfgInv s)
    (hn : n < s.cfg.rxWindowSize.toNat) :
    heldBytes (expectedDelivered m p s) n = ((List.range n).map fun k => (heldSlot s (k + 1)).len.toNat).sum := by
  refine congrArg List.sum (List.map_congr_left fun k hk => ?_)
  rw [List.mem_range] at hk
  rw [heldSlot_expectedDelivered m p hcfg (by omega)]

/-- The expected frame and its followers delivered, as one update of the state before. -/
theorem heldDelivered_expectedDelivered {s : State} {n : Nat} {maxId : FrameId} {slots : List (Nat × RxSlot)} (m : Metadata)
    (p : List Byte) (hcfg : CfgInv s) (hn : n < s.cfg.rxWindowSize.toNat) :
    heldDelivered n maxId slots (expectedDelivered m p s) =
      { s with
        rx := ⟨s.rx.nextId + BitVec.ofNat 11 (n + 1), maxId, slots⟩
        stats := { s.stats with
          rxMsgBytes := s.stats.rxMsgBytes +
            BitVec.ofNat 64 (p.length + ((List.range n).map fun k => (heldSlot s (k + 1)).len.toNat).sum)
          rxDataFrames := s.stats.rxDataFrames + BitVec.ofNat 64 (n + 1) }
        out := s.out ++ .upRecv m p :: (List.range n).map fun k =>
          .upRecv (heldSlot s (k + 1)).metadata (memRead (heldSlot s (k + 1)).payload (heldSlot s (k + 1)).len.toNat) } := by
  have hframes : s.stats.rxDataFrames + BitVec.ofNat 64 (n + 1) = s.stats.rxDataFrames + 1 + BitVec.ofNat 64 n := by
    rw [Nat.add_comm, BitVec.ofNat_add, ← BitVec.add_assoc]
    rfl
  rw [heldDelivered, expectedDelivered_nextId_add, heldOutputs_expectedDelivered m p hcfg hn,
    heldBytes_expectedDelivered m p hcfg hn, hframes, BitVec.ofNat_add p.length, ← BitVec.add_assoc, List.append_cons]
  rfl

/-- Settles O39: the update of `exactMatch_followers`, its outputs, counters and slots said in the terms of the state before. -/
theorem expectedFrameIsDeliveredWithItsFollowers : Obligations.ExpectedFrameIsDeliveredWithItsFollowers := by
  intro s m p n hready hcfg hconn hpos hmax hunwired
  dsimp only
  intro hlatest hheld hstop hn
  obtain ⟨slots, hexact, hfreed⟩ :=
    exactMatch_followers (s := active (entered s)) m p hcfg hunwired hn hlatest hheld hstop
  rw [heldDelivered_expectedDelivered (s := active (entered s)) m p hcfg hn] at hexact
  exact ⟨slots, exec_rxData_expected m hready hconn ⟨hpos, hmax⟩ hexact, tableGet_of_heldFreed m p hfreed⟩

end Sys2Proof.Proofs.RxEngine
end

section
/-! PROOFS. The statements of 43_connection.md. `resetQuiet_eq` writes the local reset out as one record update; each received link frame
is an accepted command of the processing context, and is then the one branch of its procedure that the state selects. -/

namespace Sys2Proof.Proofs.Connection

open Sys2Proof Sys2Proof.Machine Sys2Proof.Laws

/-! ### The local reset (R200) -/

/-- A push to a ring that is empty with its head at 0: the word goes to entry 0, and a tick is requested (R230, R232). -/
theorem linkPush_origin {s : State} (t : LinkType) (f : FrameId) (hsize : 1 ≤ s.cfg.txLinkSize.toNat) (hhead : s.link.head = 0)
    (hcount : s.link.count = 0) :
    linkPush t f s =
      { s with
        link := { s.link with ring := tablePut 0 s.link.ring 0 (linkWord s t f), count := 1 }
        tickAt := if s.tickAt.toInt ≤ s.port.now.toInt then s.tickAt else s.port.now
        out := s.out ++ (if s.port.now.toInt < s.tickAt.toInt ∧ s.ctx.inProcess = false then [.wake] else []) } := by
  have hroom : s.link.count ≠ s.cfg.txLinkSize := by
    intro h
    rw [← h, hcount] at hsize
    exact absurd hsize (by decide)
  have hentry : ringIndex s s.link.count.toNat = 0 := by
    rw [ringIndex, hhead, hcount]
    exact Nat.zero_mod _
  have hone : s.link.count + 1 = 1 := by rw [hcount]; rfl
  rw [linkPush_room t f hroom, hentry, hone]
  simp only [hcount, true_and, ← not_le, ite_not]

/-- The local reset up to its event, as one update. -/
theorem resetQuiet_eq {s : State} (hsize : 1 ≤ s.cfg.txLinkSize.toNat) :
    resetQuiet s =
      { s with
        tx := ⟨0, 0, 1, tableMap TxSlot.zero resetTxSlot s.tx.slots⟩
        rx := ⟨0, 0, tableMap RxSlot.zero resetRxSlot s.rx.slots⟩
        link := ⟨tablePut 0 s.link.ring 0 (linkWord s .reset 0), 0, 1, s.link.drops⟩
        conn := ⟨.disconnected, false, s.port.now⟩
        ctx := { s.ctx with resetEpoch := s.ctx.resetEpoch + 1 }
        tickAt := if s.tickAt.toInt ≤ s.port.now.toInt then s.tickAt else s.port.now
        out := s.out ++ (if s.port.now.toInt < s.tickAt.toInt ∧ s.ctx.inProcess = false then [.wake] else []) } := by
  rw [resetQuiet, linkPush_origin (s := resetRegisters s) .reset Config.resetRequestId hsize rfl rfl]
  rfl

/-- Settles O42: `resetQuiet_eq`, with its slots and its ring read entry by entry. -/
theorem localResetWritesTheResetState : Obligations.LocalResetWritesTheResetState := by
  intro s hsize
  refine ⟨rfl, _, _, _, resetQuiet_eq hsize, fun i => ?tx, fun i => ?rx, fun i => ?ring⟩
  case tx => exact tableGet_map TxSlot.zero resetTxSlot rfl s.tx.slots i
  case rx => exact tableGet_map RxSlot.zero resetRxSlot rfl s.rx.slots i
  case ring => exact tableGet_put 0 s.link.ring 0 i _

/-- Settles O43: RESET_TX_FROM_EVENT may nest, so it is accepted at top level and in a callback alike. -/
theorem resetTxFromEventIsTheLocalReset : Obligations.ResetTxFromEventIsTheLocalReset := fun _ h =>
  congrArg Host.Outcome.next (accept_readyNested (fun t => answer .success (localReset t)) h rfl rfl)

/-! ### Received RESET frames (R202 to R208) -/

/-- An accepted RESET_REQ is the handling of a request, in the processing context. -/
theorem exec_rxLinkResetReq {s : State} (h : Ready s) :
    exec .rxLinkResetReq s = .next (completed (onResetRequest (entered s))) :=
  congrArg Host.Outcome.next (accept_rxCommand (onReset Config.resetRequestId) h rfl)

/-- An accepted RESET_RSP is the handling of a response, in the processing context. -/
theorem exec_rxLinkResetRsp {s : State} (h : Ready s) :
    exec .rxLinkResetRsp s = .next (completed (onResetResponse (entered s))) :=
  congrArg Host.Outcome.next (accept_rxCommand (onReset Config.resetResponseId) h rfl)

theorem exec_rxLinkResetOther {s : State} (f : FrameId) (h : Ready s) :
    exec (.rxLinkResetOther f) s = .next (completed (onReset f (entered s))) :=
  congrArg Host.Outcome.next (accept_rxCommand (onReset f) h rfl)

theorem exec_rxLink {s : State} (t : BitVec 5) (f : FrameId) (h : Ready s) :
    exec (.rxLink t f) s = .next (completed (rxLinkProc t f (entered s))) :=
  congrArg Host.Outcome.next (accept_rxCommand (rxLinkProc t f) h rfl)

/-- A request to a block whose session carried nothing is only answered (R203). -/
theorem onResetRequest_quiet {s : State} (h : s.conn.state = .disconnected ∨ s.conn.activity = false) :
    onResetRequest s = linkPush .reset 1 s := if_pos h

/-- A request to a block whose session carried data is reported first (R204). -/
theorem onResetRequest_active {s : State} (hconn : s.conn.state = .connected) (hactive : s.conn.activity = true) :
    onResetRequest s = resetRequestWhileActive s := if_neg (by simp [hconn, hactive])

/-- Settles O44: the two tests, of the session's activity and of a reset made by the report's handler. -/
theorem resetRequestIsAlwaysAnswered : Obligations.ResetRequestIsAlwaysAnswered := by
  intro s hready
  dsimp only
  rw [exec_rxLinkResetReq hready]
  refine ⟨fun hquiet => ?_, fun hconn hactive => ?_⟩
  · rw [onResetRequest_quiet (s := entered s) hquiet]
  · rw [onResetRequest_active (s := entered s) hconn hactive]
    refine ⟨fun hsame => ?_, fun hreset => ?_⟩
    · exact congrArg (fun t => Host.Outcome.next (completed t)) (if_pos hsame)
    · exact congrArg (fun t => Host.Outcome.next (completed t)) (if_neg hreset)

theorem onResetResponse_connected {s : State} (h : s.conn.state = .connected) : onResetResponse s = s := if_pos h

/-- The block as a RESET response leaves it, before its event (R205). -/
def connect (s : State) : State := { s with conn := { s.conn with state := .connected } }

theorem onResetResponse_disconnected {s : State} (h : s.conn.state = .disconnected) :
    onResetResponse s = upEvent .txConnected (connect s) := if_neg (by simp [h])

/-- An event whose handler is not wired only shows on the port (D37). -/
theorem upEvent_unwired {s : State} (k : EventKind) (h : s.port.handlers = []) :
    upEvent k s = { s with out := s.out ++ [.upEvent k] } := callback_unwired _ _ h

/-- Settles O45: the one test of a response, and its event where no handler runs. -/
theorem resetResponseConnects : Obligations.ResetResponseConnects := by
  intro s hready
  rw [exec_rxLinkResetRsp hready]
  refine ⟨fun hconn => ?_, fun hconn => ?_⟩
  · rw [onResetResponse_connected (s := entered s) hconn]
  · rw [onResetResponse_disconnected (s := entered s) hconn]
    refine ⟨rfl, fun hunwired => ?_⟩
    rw [upEvent_unwired (s := connect (entered s)) _ hunwired]
    rfl

/-- A RESET whose id is neither the request's nor the response's changes nothing (R208). -/
theorem onReset_other {f : FrameId} (s : State) (hreq : f ≠ Config.resetRequestId) (hrsp : f ≠ Config.resetResponseId) :
    onReset f s = s := by
  rw [onReset, if_neg hreq, if_neg hrsp]

/-- A link frame whose type is none of the five codes changes nothing (R239). -/
theorem rxLinkProc_unknown {s : State} {t : BitVec 5} (f : FrameId) (h : t ∉ s.par.codes.all) : rxLinkProc t f s = s := by
  simp only [LinkCodes.all, List.mem_cons, List.not_mem_nil, or_false, not_or] at h
  obtain ⟨hackAll, hackOne, hnackId, hnackFraming, hreset⟩ := h
  rw [rxLinkProc, if_neg hackAll, if_neg hackOne, if_neg hnackId, if_neg hnackFraming, if_neg hreset]

/-- Settles O46: both procedures fall through all their tests. -/
theorem otherLinkFramesAreIgnored : Obligations.OtherLinkFramesAreIgnored := by
  intro s t f hready
  refine ⟨fun hreq hrsp => ?_, fun hunknown => ?_⟩
  · rw [exec_rxLinkResetOther f hready, onReset_other _ hreq hrsp]
  · rw [exec_rxLink t f hready, rxLinkProc_unknown (s := entered s) f hunknown]

/-! ### RESET resend (R207) -/

theorem resendDue_iff (s : State) : resendDue s = true ↔
    s.conn.state = .disconnected ∧ 16 * s.cfg.txTimeout.toInt ≤ s.port.now.toInt - s.conn.resetTime.toInt := by
  rw [resendDue, Bool.and_eq_true, decide_eq_true_iff, decide_eq_true_iff]
  rfl

/-- Settles O47: the resend's test written out, and the push, which keeps the connection unit. -/
theorem resetRequestIsResent : Obligations.ResetRequestIsResent := by
  intro s
  split
  case isTrue hdue =>
    have hpush : resetResend s =
        { linkPush .reset 0 s with conn := { (linkPush .reset 0 s).conn with resetTime := s.port.now } } :=
      if_pos ((resendDue_iff s).mpr hdue)
    rw [hpush, linkPush_conn]
  case isFalse hwait => exact if_neg ((resendDue_iff s).not.mpr hwait)

end Sys2Proof.Proofs.Connection
end

section
/-! PROOFS. The statements of 44_link_control.md. The ring's queued words are read as one list, `ringWords`; a push extends that list at its
end, and the drain cuts it at its front. The EOF marker is the last branch of one chain of tests. -/

namespace Sys2Proof.Proofs.LinkControl

open Sys2Proof Sys2Proof.Machine Sys2Proof.Laws

/-! ### The queued words (R35) -/

theorem ringWords_congr {s t : State} (hlink : t.link = s.link) (hcfg : t.cfg = s.cfg) : ringWords t = ringWords s := by
  simp only [ringWords, ringRead, ringIndex, hlink, hcfg]

theorem ringWords_length (s : State) : (ringWords s).length = s.link.count.toNat := by
  rw [ringWords, List.length_map, List.length_range]

theorem ringWords_getElem (s : State) (j : Nat) (hj : j < (ringWords s).length) :
    (ringWords s)[j] = ringRead s (ringIndex s j) := by
  simp only [ringWords, List.getElem_map, List.getElem_range]

/-- Two places of the queue that lie less than the ring's size from the head are two entries of the ring. -/
theorem ringIndex_ne {s : State} {j k : Nat} (hjk : j < k) (hk : k < s.cfg.txLinkSize.toNat) :
    ringIndex s j ≠ ringIndex s k := fun h =>
  hjk.ne ((Nat.ModEq.add_left_cancel' s.link.head.toNat h).eq_of_lt_of_lt (hjk.trans hk) hk)

/-- Before the ring's end a place is its distance from the head. -/
theorem ringIndex_before_end {s : State} {k : Nat} (hk : s.link.head.toNat + k < s.cfg.txLinkSize.toNat) :
    ringIndex s k = s.link.head.toNat + k := Nat.mod_eq_of_lt hk

/-- From the ring's end on, a place is its distance from that end. -/
theorem ringIndex_past_end {s : State} {room j : Nat} (hroom : s.link.head.toNat + room = s.cfg.txLinkSize.toNat)
    (hj : j < s.cfg.txLinkSize.toNat) : ringIndex s (room + j) = j := by
  rw [ringIndex, ← Nat.add_assoc, hroom, Nat.add_mod_left, Nat.mod_eq_of_lt hj]

/-! ### The push (R230 to R232) -/

/-- A push to a ring with room puts its word behind the queued ones, and none of those is overwritten. -/
theorem ringWords_linkPush {s : State} (t : LinkType) (f : FrameId) (hinv : RingInv s) (hroom : s.link.count ≠ s.cfg.txLinkSize) :
    ringWords (linkPush t f s) = ringWords s ++ [linkWord s t f] := by
  have hcount : (s.link.count + 1).toNat = s.link.count.toNat + 1 := link_bv_ne_max hroom hinv.2
  have hlt : s.link.count.toNat < s.cfg.txLinkSize.toNat := lt_of_le_of_ne hinv.2 fun h => hroom (BitVec.eq_of_toNat_eq h)
  have hread : ∀ j, ringRead (linkPush t f s) (ringIndex (linkPush t f s) j) =
      if ringIndex s j = ringIndex s s.link.count.toNat then linkWord s t f else ringRead s (ringIndex s j) := by
    intro j
    rw [linkPush_room t f hroom]
    exact tableGet_put _ _ _ _ _
  have hlen : (linkPush t f s).link.count.toNat = s.link.count.toNat + 1 := by rw [linkPush_room t f hroom]; exact hcount
  rw [ringWords, hlen, List.range_succ, List.map_append, ringWords]
  congr 1
  · refine List.map_congr_left fun j hj => ?_
    rw [hread, if_neg (ringIndex_ne (List.mem_range.mp hj) hlt)]
  · rw [List.map_singleton, hread, if_pos rfl]

/-- Settles O49: the two branches of a push as record updates, and what the second makes of the queue. -/
theorem linkPushAppendsOrDrops : Obligations.LinkPushAppendsOrDrops := fun _ t f hinv =>
  ⟨linkPush_full t f, fun hroom =>
    ⟨ringWords_linkPush t f hinv hroom, _, fun _ => tableGet_put _ _ _ _ _, linkPush_room t f hroom⟩⟩

/-! ### The drain (R234) -/

/-- The writes that carry the `k` oldest words: none, one, or two split at the ring's end. -/
def drainWrites (s : State) (k : Nat) : List (List Byte) :=
  let room := s.cfg.txLinkSize.toNat - s.link.head.toNat
  let sent := (ringWords s).take k
  if k = 0 then [] else if k ≤ room then [sent.flatMap wordBytes]
  else [(sent.take room).flatMap wordBytes, (sent.drop room).flatMap wordBytes]

/-- Wherever they are split, the writes are the bytes of the words sent, in order. -/
theorem drainWrites_flatten (s : State) (k : Nat) : (drainWrites s k).flatten = ((ringWords s).take k).flatMap wordBytes := by
  unfold drainWrites
  dsimp only
  split_ifs with h0 hfits
  · rw [h0]; rfl
  · exact List.flatten_singleton
  · rw [List.flatten_cons, List.flatten_singleton, ← List.flatMap_append, List.take_append_drop]

theorem drainWrites_length {s : State} {k : Nat} (hk : k ≤ s.link.count.toNat) : (drainWrites s k).flatten.length = 8 * k := by
  rw [drainWrites_flatten, wordBytes_length, List.length_take, ringWords_length, min_eq_left hk]

/-- The state after the `k` oldest words left: their bytes sent and counted, and the head moved past them. -/
def drained (k : Nat) (s : State) : State :=
  { s with
    link := { s.link with head := BitVec.ofNat 32 (ringIndex s k), count := s.link.count - BitVec.ofNat 32 k }
    stats := { s.stats with txBytes := s.stats.txBytes + BitVec.ofNat 64 (8 * k) }
    eofPending := s.eofPending || decide (k ≠ 0)
    out := s.out ++ (drainWrites s k).map Output.llSend }

theorem drained_zero {s : State} (hinv : RingInv s) : drained 0 s = s := by
  have hhead : BitVec.ofNat 32 (ringIndex s 0) = s.link.head := by
    rw [ringIndex_before_end hinv.1, Nat.add_zero, BitVec.ofNat_toNat, BitVec.setWidth_eq]
  simp [drained, drainWrites, hhead]

/-- A run of entries that starts at the head and stays before the ring's end holds the oldest words. -/
theorem ringBytes_from_head {s : State} {n : Nat} (hn : n ≤ s.link.count.toNat)
    (hend : s.link.head.toNat + n ≤ s.cfg.txLinkSize.toNat) :
    ringBytes s s.link.head.toNat n = ((ringWords s).take n).flatMap wordBytes := by
  rw [ringBytes_eq, ringWords, ← List.map_take, List.take_range, min_eq_left hn]
  refine congrArg (List.flatMap wordBytes) (List.map_congr_left fun j hj => ?_)
  rw [ringIndex_before_end (by have := List.mem_range.mp hj; omega)]

/-- The run of entries that starts at entry 0 holds the words past the ring's end. -/
theorem ringBytes_from_zero {s : State} {k room : Nat} (hinv : RingInv s) (hk : k ≤ s.link.count.toNat)
    (hroom : s.link.head.toNat + room = s.cfg.txLinkSize.toNat) :
    ringBytes s 0 (k - room) = (((ringWords s).take k).drop room).flatMap wordBytes := by
  rw [ringBytes_eq]
  refine congrArg (List.flatMap wordBytes) (List.ext_getElem ?len fun j hj _ => ?entry)
  case len => simp [ringWords_length, hk]
  case entry =>
    have hlt : j < s.cfg.txLinkSize.toNat := by
      have hcount := hinv.2
      simp only [List.length_map, List.length_range] at hj
      omega
    simp [ringWords_getElem, ringIndex_past_end hroom hlt]

/-- The counts of two writes add up to the count of one (R39). -/
theorem txBytes_add (b : BitVec 64) (m n : Nat) : b + BitVec.ofNat 64 m + BitVec.ofNat 64 n = b + BitVec.ofNat 64 (m + n) := by
  rw [BitVec.add_assoc, ← BitVec.ofNat_add]

/-- The words that wrap leave in two writes, one on each side of the ring's end. -/
theorem drainWrites_wrapped {s : State} {k room : Nat} (hinv : RingInv s) (hk : k ≤ s.link.count.toNat)
    (hroom : s.link.head.toNat + room = s.cfg.txLinkSize.toNat) (hwraps : room < k) :
    drainWrites s k = [ringBytes s s.link.head.toNat room, ringBytes s 0 (k - room)] := by
  have hsize : s.cfg.txLinkSize.toNat - s.link.head.toNat = room := by omega
  rw [ringBytes_from_head (by omega) hroom.le, ringBytes_from_zero hinv hk hroom, drainWrites, hsize,
    if_neg (by omega), if_neg (by omega), List.take_take, min_eq_left hwraps.le]

/-- The words that fit before the ring's end leave in one write. -/
theorem drainWrites_fitting {s : State} {k : Nat} (hinv : RingInv s) (hpos : k ≠ 0) (hk : k ≤ s.link.count.toNat)
    (hfits : k ≤ s.cfg.txLinkSize.toNat - s.link.head.toNat) :
    drainWrites s k = [ringBytes s s.link.head.toNat k] := by
  have hhead := hinv.1
  rw [ringBytes_from_head hk (by omega), drainWrites, if_neg hpos, if_pos hfits]

/-- The two branches of the model's drain: the words fit before the ring's end, or wrap past it. -/
theorem drainWords_eq {s : State} {k : Nat} (hinv : RingInv s) (hpos : k ≠ 0) (hk : k ≤ s.link.count.toNat) :
    drainWords k s = drained k s := by
  have hlen := drainWrites_length hk
  by_cases hfits : k ≤ s.cfg.txLinkSize.toNat - s.link.head.toNat
  case pos =>
    have hwrites := drainWrites_fitting hinv hpos hk hfits
    rw [hwrites, List.flatten_singleton] at hlen
    simp [drainWords, drained, hwrites, llSend, emit, hpos, hfits, hlen]
  case neg =>
    obtain ⟨room, hroom⟩ := Nat.exists_eq_add_of_le hinv.1.le
    have hsize : s.cfg.txLinkSize.toNat - s.link.head.toNat = room := by omega
    have hwraps : room < k := by omega
    have hwrites := drainWrites_wrapped hinv hk hroom.symm hwraps
    rw [hwrites, List.flatten_cons, List.flatten_singleton, List.length_append] at hlen
    simp [drainWords, drained, hwrites, llSend, emit, hpos, hsize, hwraps, min_eq_right hwraps.le, txBytes_add, hlen]

/-- The drain of a ring that is not empty, whatever the driver has room for. -/
theorem linkDrain_eq {s : State} (hinv : RingInv s) (hwords : s.link.count ≠ 0) :
    linkDrain s = drained (min s.link.count.toNat ((llAvail s).1 / 8)) (llAvail s).2 := by
  have hinv' : RingInv (llAvail s).2 := ringInv_congr (llAvail_cfg s) (by rw [llAvail_link]) (by rw [llAvail_link]) hinv
  have hk : min s.link.count.toNat ((llAvail s).1 / 8) ≤ (llAvail s).2.link.count.toNat := by
    rw [llAvail_link]; exact min_le_left _ _
  have hdrain : linkDrain s = if min (llAvail s).2.link.count.toNat ((llAvail s).1 / 8) = 0 then (llAvail s).2
      else drainWords (min (llAvail s).2.link.count.toNat ((llAvail s).1 / 8)) (llAvail s).2 := if_neg hwords
  rw [hdrain, llAvail_link]
  split
  case isTrue h0 => rw [h0, drained_zero hinv']
  case isFalse hpos => exact drainWords_eq hinv' hpos hk

/-- What stays queued after a drain: the head moved by as many places as words left. -/
theorem ringWords_drained {s : State} {k : Nat} (hinv : RingInv s) (hk : k ≤ s.link.count.toNat) :
    ringWords (drained k s) = (ringWords s).drop k := by
  have hcount : (drained k s).link.count.toNat = s.link.count.toNat - k := by
    show (s.link.count - BitVec.ofNat 32 k).toNat = _
    bv_omega
  have hindex : ∀ j, ringIndex (drained k s) j = ringIndex s (k + j) := by
    intro j
    have hlt : ringIndex s k < 2 ^ 32 := (Nat.mod_lt _ (Nat.zero_lt_of_lt hinv.1)).trans s.cfg.txLinkSize.isLt
    show ((BitVec.ofNat 32 (ringIndex s k)).toNat + j) % s.cfg.txLinkSize.toNat = _
    rw [BitVec.toNat_ofNat, Nat.mod_eq_of_lt hlt]
    exact ringIndex_mod _ _ _ _
  refine List.ext_getElem ?len fun j _ _ => ?entry
  case len => rw [List.length_drop, ringWords_length, ringWords_length, hcount]
  case entry =>
    rw [List.getElem_drop, ringWords_getElem, ringWords_getElem, hindex]
    rfl

/-- Settles O50: `drained` written out over the state that the driver's answer leaves, and the words it sent and kept. -/
theorem linkDrainSendsTheOldestWords : Obligations.LinkDrainSendsTheOldestWords := by
  refine fun s hinv => ⟨fun hempty => if_pos hempty, fun hwords => ?_⟩
  have hk : min s.link.count.toNat ((llAvail s).1 / 8) ≤ s.link.count.toNat := min_le_left _ _
  have hwritten := llAvail_eq s
  dsimp only
  refine ⟨?_, ?_, drainWrites_length hk, by omega⟩
  · rw [linkDrain_eq hinv hwords, hwritten]
    rfl
  · rw [linkDrain_eq hinv hwords, hwritten]
    exact ringWords_drained hinv hk

/-! ### The EOF marker (R237) -/

theorem anyPendingSend_iff (s : State) :
    anyPendingSend s = true ↔ ∃ f ∈ txWindow s, (txSlot s (txIndex s f)).state = .pendingSend := by
  simp only [anyPendingSend, List.any_eq_true, decide_eq_true_iff]

theorem eofCheck_waits {s : State}
    (h : s.eofPending = false ∨ s.link.count ≠ 0 ∨ ∃ f ∈ txWindow s, (txSlot s (txIndex s f)).state = .pendingSend) :
    eofCheck s = s := by
  unfold eofCheck
  rw [← anyPendingSend_iff] at h
  rcases h with hnone | hwords | hframe
  · exact if_pos hnone
  · rw [if_pos hwords, ite_self]
  · rw [if_pos hframe, ite_self, ite_self]

/-- Once nothing else waits, the driver's answer decides. -/
theorem eofCheck_asks {s : State}
    (h : ¬ (s.eofPending = false ∨ s.link.count ≠ 0 ∨ ∃ f ∈ txWindow s, (txSlot s (txIndex s f)).state = .pendingSend)) :
    eofCheck s = if (llAvail s).1 < 1 then (llAvail s).2 else { llSendMarker (llAvail s).2 with eofPending := false } := by
  rw [← anyPendingSend_iff, not_or, not_or] at h
  obtain ⟨howed, hempty, hnoFrame⟩ := h
  rw [eofCheck, if_neg howed, if_neg hempty, if_neg hnoFrame]

/-- Settles O51: the three tests that nothing else waits, then the driver's room. -/
theorem eofMarkerIsSentWhenNothingElseWaits : Obligations.EofMarkerIsSentWhenNothingElseWaits := by
  intro s
  split_ifs with hwaits hfull
  · exact eofCheck_waits hwaits
  · rw [eofCheck_asks hwaits, if_pos hfull]
  · rw [eofCheck_asks hwaits, if_neg hfull, llAvail_eq s]
    rfl

end Sys2Proof.Proofs.LinkControl
end

section
/-! PROOFS. Refusals of R305's orders 4, 6 and 8, and the statements of 45_facade_timer.md on the blocking SEND (R270 to R272). The first
round and every later attempt are `blockingRound`; `nextRecord` is the one record that such a round writes, and each way for a round to end
is said once. -/

namespace Sys2Proof.Proofs.Blocking

open Sys2Proof Sys2Proof.Machine Sys2Proof.Laws Sys2Proof.Proofs.Sending

/-! ### Refusals (R305, orders 4, 6 and 8) -/

theorem refusalOf_uninit {i : Instr} {s : State} (hlife : s.life = .uninit) (hi : isInit i = false) :
    refusalOf i s = some .notInitialized := if_pos ⟨hlife, hi⟩

theorem refusalOf_finalized {i : Instr} {s : State} (hlife : s.life = .finalized) (hi : isInit i = false) :
    refusalOf i s = some .finalized := by
  rw [refusalOf, if_neg (by simp [hlife]), if_neg (by simp [hi]), if_pos ⟨hlife, hi⟩]

theorem refusalOf_timeRegression {i : Instr} {s : State} (hlife : s.life = .active) (hdepth : s.ctx.cbDepth = 0)
    (htime : s.port.now.toInt < s.ctx.lastNow.toInt) (hi : isInit i = false) : refusalOf i s = some .timeRegression := by
  rw [refusalOf, if_neg (by simp [hlife]), if_neg (by simp [hi]), if_neg (by simp [hlife]), if_neg (by simp [hdepth]),
    if_pos ⟨hlife, hdepth, htime⟩]

/-! ### One round of the blocking loop (R270) -/

theorem sendStatus_full_iff (p : List Byte) (s : State) : sendStatus p s = .full ↔ s.conn.state = .connected ∧
    ((s.tx.count.toNat : Int) ≤ idSubtract s.tx.nextId s.tx.lastId ∨ 1023 ≤ idSubtract s.tx.nextId s.tx.lastId) := by
  rw [sendStatus_eq]
  by_cases hconn : s.conn.state = .connected
  · rw [if_neg (not_not.mpr hconn)]
    split_ifs <;> simp_all
  · simp [hconn]

theorem sendAttempt_bsend (m : Metadata) (p : List Byte) (s : State) : (sendAttempt m p s).bsend = s.bsend := by
  unfold sendAttempt
  split
  · rw [sendAccept_eq]
  · rfl

/-- The record of a blocking SEND that has ended. -/
def ended (r : BSend) : BSend := { r with active := false }

/-- The record that a round of the blocking loop writes: the next wait, if the round ends in one, or the end (R270). -/
def nextRecord (r : BSend) (s : State) : BSend :=
  if sendStatus r.payload s = .full ∧ s.ctx.inProcess = false ∧ s.port.now.toInt < r.deadline.toInt then
    { r with nextTry := timeOf (s.port.now.toInt + s.par.sendPoll) }
  else ended r

theorem nextRecord_caller (r : BSend) (s : State) : (nextRecord r s).caller = r.caller := by
  unfold nextRecord
  split <;> rfl

theorem bsendOf_nextRecord (r : BSend) (s : State) (rs : List BSend) :
    bsendOf r.caller (setBSend (nextRecord r s) rs) = some (nextRecord r s) := by
  rw [bsendOf_setBSend, nextRecord_caller, if_pos rfl]

theorem bsendOf_nextRecord_other {r : BSend} {c : Nat} (hc : c ≠ r.caller) (s : State) (rs : List BSend) :
    bsendOf c (setBSend (nextRecord r s) rs) = bsendOf c rs := by
  rw [bsendOf_setBSend, nextRecord_caller, if_neg hc]

/-- With room, or a status other than FULL, the round is a SEND that does not block, and ends. -/
theorem blockingRound_room {r : BSend} {s : State} (h : sendStatus r.payload s ≠ .full) :
    nextRecord r s = ended r ∧ blockingRound r s =
      { answer (sendStatus r.payload s) (sendAttempt r.metadata r.payload s) with
        bsend := setBSend (nextRecord r s) s.bsend } := by
  have hrec : nextRecord r s = ended r := if_neg fun hw => h hw.1
  refine ⟨hrec, ?_⟩
  rw [hrec, ← sendAttempt_bsend r.metadata r.payload s]
  exact if_pos h

/-- With the window full nothing is attempted, and the context and the deadline decide. -/
theorem blockingRound_full {r : BSend} {s : State} (h : sendStatus r.payload s = .full) : blockingRound r s =
    if s.ctx.inProcess = true then answer .full { s with bsend := setBSend (ended r) s.bsend }
    else if r.deadline.toInt ≤ s.port.now.toInt then answer .timedOut { s with bsend := setBSend (ended r) s.bsend }
    else { s with bsend := setBSend { r with nextTry := timeOf (s.port.now.toInt + s.par.sendPoll) } s.bsend } := by
  have hnone : sendAttempt r.metadata r.payload s = s := if_neg (by simp [h])
  rw [blockingRound, if_neg (not_not.mpr h), hnone]
  rfl

/-- With the window full in the processing context the round ends with FULL (R271). -/
theorem blockingRound_inProcess {r : BSend} {s : State} (h : sendStatus r.payload s = .full) (hproc : s.ctx.inProcess = true) :
    nextRecord r s = ended r ∧
      blockingRound r s = answer .full { s with bsend := setBSend (nextRecord r s) s.bsend } := by
  have hrec : nextRecord r s = ended r := if_neg (by simp [hproc])
  rw [blockingRound_full h, if_pos hproc, hrec]
  exact ⟨rfl, rfl⟩

/-- With the window full at the deadline the round ends with TIMED_OUT. -/
theorem blockingRound_timedOut {r : BSend} {s : State} (h : sendStatus r.payload s = .full) (hproc : s.ctx.inProcess = false)
    (hdue : r.deadline.toInt ≤ s.port.now.toInt) :
    nextRecord r s = ended r ∧
      blockingRound r s = answer .timedOut { s with bsend := setBSend (nextRecord r s) s.bsend } := by
  have hrec : nextRecord r s = ended r := if_neg fun hw => absurd hw.2.2 (not_lt.mpr hdue)
  rw [blockingRound_full h, if_neg (by simp [hproc]), if_pos hdue, hrec]
  exact ⟨rfl, rfl⟩

/-- With the window full before the deadline the round ends in a wait of SEND_POLL ticks. -/
theorem blockingRound_waits {r : BSend} {s : State} (h : sendStatus r.payload s = .full) (hproc : s.ctx.inProcess = false)
    (hearly : s.port.now.toInt < r.deadline.toInt) :
    nextRecord r s = { r with nextTry := timeOf (s.port.now.toInt + s.par.sendPoll) } ∧
      blockingRound r s = { s with bsend := setBSend (nextRecord r s) s.bsend } := by
  have hrec : nextRecord r s = { r with nextTry := timeOf (s.port.now.toInt + s.par.sendPoll) } := if_pos ⟨h, hproc, hearly⟩
  rw [blockingRound_full h, if_neg (by simp [hproc]), if_neg (not_le.mpr hearly), hrec]
  exact ⟨rfl, rfl⟩

/-! ### A later attempt (R270, R304, R315) -/

/-- The step of an attempt. -/
theorem step_attempt {s : State} {e : Env} {rest : List Input} (h : s.inq = .attempt e :: rest) :
    step s = .next (resumeSend (latch e rest s)) := by
  unfold step
  rw [h]
  rfl

section
variable {s : State} {r : BSend} (hr : bsendOf s.port.caller s.bsend = some r)
include hr

/-- Before the wait is over an input is no attempt. -/
theorem resumeSend_waits (hwaits : s.ctx.lastNow.toInt ≤ s.port.now.toInt ∧ s.port.now.toInt < r.nextTry.toInt) :
    resumeSend s = s := by
  rw [resumeSend, hr]
  exact if_pos (.inr hwaits)

/-- A refused attempt ends the SEND. -/
theorem resumeSend_refused {why : RefuseReason} (hactive : r.active = true)
    (hover : ¬ (s.ctx.lastNow.toInt ≤ s.port.now.toInt ∧ s.port.now.toInt < r.nextTry.toInt))
    (hwhy : refusalOf (.send 0 r.metadata r.payload) s = some why) :
    resumeSend s = refuse why { s with bsend := setBSend (ended r) s.bsend } := by
  unfold resumeSend
  simp only [hr, hwhy]
  exact if_neg (by simp [hactive, hover])

/-- An admitted attempt is one more round. -/
theorem resumeSend_admitted (hactive : r.active = true)
    (hover : ¬ (s.ctx.lastNow.toInt ≤ s.port.now.toInt ∧ s.port.now.toInt < r.nextTry.toInt))
    (hnone : refusalOf (.send 0 r.metadata r.payload) s = none) : resumeSend s = blockingRound r (accepted s) := by
  unfold resumeSend
  simp only [hr, hnone]
  exact if_neg (by simp [hactive, hover])

end

/-- A record is found under its own caller. -/
theorem caller_of_bsendOf {c : Nat} {rs : List BSend} {r : BSend} (h : bsendOf c rs = some r) : r.caller = c :=
  beq_iff_eq.mp (List.find?_some (p := fun q : BSend => q.caller == c) h)

/-- Settles O25: the wait, the three refusals of an attempt, and the three ends of the round that an admitted one is. -/
theorem waitingSendTriesAgain : Obligations.WaitingSendTriesAgain := by
  intro s e rest r hinq hr hactive t full others refusedWith waits
  have hcaller : r.caller = e.caller := caller_of_bsendOf hr
  have hrefused : ¬ waits → ∀ why, refusalOf (.send 0 r.metadata r.payload) t = some why → refusedWith (reasonBit why) why := by
    intro hover why hwhy
    refine ⟨setBSend (ended r) s.bsend, fun c hc => ?_, ?_, ?_⟩
    · rw [bsendOf_setBSend]
      exact if_neg hc
    · rw [bsendOf_setBSend]
      exact if_pos rfl
    · rw [step_attempt hinq, resumeSend_refused (s := t) hr hactive hover hwhy]
      rfl
  refine ⟨fun hwaits => ?wait, fun hover => ⟨fun hlife => ?uninit, fun hlife => ?finalized, fun hlife hdepth htime => ?regression,
    fun hlife htime hproc => ?admitted⟩⟩
  case wait => rw [step_attempt hinq, resumeSend_waits (s := t) hr hwaits]
  case uninit => exact hrefused hover _ (refusalOf_uninit hlife rfl)
  case finalized => exact hrefused hover _ (refusalOf_finalized hlife rfl)
  case regression => exact hrefused hover _ (refusalOf_timeRegression hlife hdepth htime rfl)
  case admitted =>
    have hready : ReadyNested t := ⟨hlife, htime⟩
    have hround : step s = .next (blockingRound r (accepted t)) := by
      rw [step_attempt hinq, resumeSend_admitted (s := t) hr hactive hover (refusalOf_readyNested hready rfl rfl)]
    have hstatus := sendStatus_full_iff r.payload (accepted t)
    have hfound := bsendOf_nextRecord r (accepted t) s.bsend
    refine ⟨setBSend (nextRecord r (accepted t)) s.bsend, fun c hc => bsendOf_nextRecord_other hc _ _, fun hroom => ?_,
      fun hfull hdue => ?_, fun hfull hearly => ?_⟩
    · obtain ⟨hrec, heq⟩ := blockingRound_room (mt hstatus.mp hroom)
      exact ⟨hfound.trans (congrArg some hrec), _, exec_send_once _ _ hready le_rfl, hround.trans (congrArg _ heq)⟩
    · obtain ⟨hrec, heq⟩ := blockingRound_timedOut (hstatus.mpr hfull) hproc hdue
      exact ⟨hfound.trans (congrArg some hrec), hround.trans (congrArg _ heq)⟩
    · obtain ⟨hrec, heq⟩ := blockingRound_waits (hstatus.mpr hfull) hproc hearly
      exact ⟨hfound.trans (congrArg some hrec), hround.trans (congrArg _ heq)⟩

/-! ### The first attempt (R270 to R272) -/

/-- A SEND that may block starts with a round for its new record. -/
theorem exec_send_blocking {s : State} {tmo : BitVec 28} (m : Metadata) (p : List Byte) (h : ReadyNested s) (ht : 0 < tmo.toInt) :
    exec (.send tmo m p) s = .next (blockingRound (newBSend tmo m p s) (accepted s)) := by
  have hround : sendBody tmo m p (accepted s) = blockingRound (newBSend tmo m p s) (accepted s) := if_neg (not_le.mpr ht)
  rw [← hround]
  exact congrArg Host.Outcome.next (accept_readyNested (sendBody tmo m p) h rfl rfl)

/-- Settles O24: the four ends of the first round. -/
theorem blockingSendEndsOrWaits : Obligations.BlockingSendEndsOrWaits := by
  intro s tmo m p h htmo deadline full
  have hround := exec_send_blocking m p h htmo
  have hstatus : sendStatus (newBSend tmo m p s).payload (accepted s) = .full ↔ full := sendStatus_full_iff p (accepted s)
  have hfound := bsendOf_nextRecord (newBSend tmo m p s) (accepted s) s.bsend
  refine ⟨setBSend (nextRecord (newBSend tmo m p s) (accepted s)) s.bsend, fun c hc => bsendOf_nextRecord_other hc _ _,
    fun hroom => ?_, fun hfull hproc => ?_, fun hfull hproc hdue => ?_, fun hfull hproc hearly => ?_⟩
  · obtain ⟨hrec, heq⟩ := blockingRound_room (mt hstatus.mp hroom)
    exact ⟨hfound.trans (congrArg some hrec), _, exec_send_once m p h le_rfl, hround.trans (congrArg _ heq)⟩
  · obtain ⟨hrec, heq⟩ := blockingRound_inProcess (hstatus.mpr hfull) hproc
    exact ⟨hfound.trans (congrArg some hrec), hround.trans (congrArg _ heq)⟩
  · obtain ⟨hrec, heq⟩ := blockingRound_timedOut (hstatus.mpr hfull) hproc hdue
    exact ⟨hfound.trans (congrArg some hrec), hround.trans (congrArg _ heq)⟩
  · obtain ⟨hrec, heq⟩ := blockingRound_waits (hstatus.mpr hfull) hproc hearly
    exact ⟨hfound.trans (congrArg some hrec), hround.trans (congrArg _ heq)⟩

end Sys2Proof.Proofs.Blocking
end

section
/-! PROOFS. The statements of 45_facade_timer.md on the deadline and the re-arm (R261, R262). The next deadline is read as the least entry of
one list of terms; D52's bounds on each entry then bound it. -/

namespace Sys2Proof.Proofs.Deadline

open Sys2Proof Sys2Proof.Machine Sys2Proof.Laws Sys2Proof.Proofs.TxScans

/-! ### The terms of the next deadline (R261) -/

/-- When an idle block looks at the link again: `now + cfg_tx_timeout`. -/
def keepAlive (s : State) : Int := s.port.now.toInt + s.cfg.txTimeout.toInt

/-- When the next RESET request is due: `reset_time + 16 cfg_tx_timeout`. -/
def resendTime (s : State) : Int := s.conn.resetTime.toInt + 16 * s.cfg.txTimeout.toInt

/-- The terms that apply: the TX deadline, now where the link has something to send, the RESET resend while Disconnected. -/
def deadlineTerms (s : State) : List Int :=
  (txDeadline s).toList ++ (if s.link.count ≠ 0 ∨ s.eofPending = true then [s.port.now.toInt] else []) ++
    (if s.conn.state = .disconnected then [resendTime s] else [])

theorem nextDeadline_eq (s : State) : nextDeadline s = (deadlineTerms s).min?.getD (keepAlive s) := by
  unfold nextDeadline deadlineTerms
  cases txDeadline s <;> split_ifs <;> rfl

theorem mem_deadlineTerms (s : State) (d : Int) : d ∈ deadlineTerms s ↔
    txDeadline s = some d ∨ ((0 < s.link.count.toNat ∨ s.eofPending = true) ∧ d = s.port.now.toInt) ∨
      (s.conn.state = .disconnected ∧ d = resendTime s) := by
  have hword : 0 < s.link.count.toNat ↔ s.link.count ≠ 0 := by
    rw [Nat.pos_iff_ne_zero, ne_eq, ne_eq, BitVec.toNat_eq]
    rfl
  rw [hword, deadlineTerms, List.mem_append, List.mem_append, Option.mem_toList, List.mem_ite_nil_right, List.mem_ite_nil_right,
    List.mem_singleton, List.mem_singleton, or_assoc]

/-- Where no term applies the block waits for the keep-alive. -/
theorem nextDeadline_keepAlive {s : State} (h : deadlineTerms s = []) : nextDeadline s = keepAlive s := by
  rw [nextDeadline_eq, h]
  rfl

/-- Where one applies the deadline is the least of them. -/
theorem nextDeadline_least {s : State} (h : deadlineTerms s ≠ []) :
    nextDeadline s ∈ deadlineTerms s ∧ ∀ d ∈ deadlineTerms s, nextDeadline s ≤ d := by
  obtain ⟨e, he⟩ := Option.ne_none_iff_exists'.mp (mt List.min?_eq_none_iff.mp h)
  have hnext : nextDeadline s = e := by rw [nextDeadline_eq, he]; rfl
  rw [hnext]
  exact List.min?_eq_some_iff.mp he

/-- Settles O31: the list of the terms is empty, or the deadline is its least entry. -/
theorem nextDeadlineIsTheLeastTerm : Obligations.NextDeadlineIsTheLeastTerm := by
  intro s term
  have hterm : ∀ d, d ∈ deadlineTerms s ↔ term d := mem_deadlineTerms s
  refine ⟨fun hnone => ?_, fun ⟨d, hd⟩ => ?_⟩
  · exact nextDeadline_keepAlive (List.eq_nil_iff_forall_not_mem.mpr fun d hd => hnone d ((hterm d).mp hd))
  · obtain ⟨hmem, hleast⟩ := nextDeadline_least (List.ne_nil_of_mem ((hterm d).mpr hd))
    exact ⟨(hterm _).mp hmem, fun d hd => hleast d ((hterm d).mpr hd)⟩

/-! ### The bounds of the re-arm (R262, D52) -/

theorem timeInRange_iff (t : Time) : timeInRange t = true ↔ 0 ≤ t.toInt ∧ t.toInt < 2 ^ 62 := by
  rw [timeInRange, Bool.and_eq_true, decide_eq_true_iff, decide_eq_true_iff]

/-- A TX deadline is now, or the due time of a frame of the window. -/
theorem eq_of_txDeadline {s : State} {d : Int} (h : txDeadline s = some d) :
    d = s.port.now.toInt ∨ ∃ f ∈ txWindow s, d = dueTime s f := by
  by_cases hpend : ∃ f ∈ txWindow s, (txSlot s (txIndex s f)).state = .pendingSend
  · exact .inl (Option.some.inj (h.symm.trans (txDeadlineFrom_pending hpend none)))
  · push Not at hpend
    rw [txDeadline_eq_min hpend, List.min?_eq_some_iff] at h
    obtain ⟨f, hf, -, hd⟩ := (mem_dueTimes _ _ _).mp h.1
    exact .inr ⟨f, hf, hd⟩

/-- With a legal configuration and times in range, every term and the keep-alive stay inside i64 (D52). -/
theorem nextDeadline_lt {s : State} (hcfg : CfgInv s) (htime : TimeInv s) (hnow : timeInRange s.port.now = true) :
    nextDeadline s < 2 ^ 63 := by
  obtain ⟨-, -, -, -, -, htimeout⟩ := hcfg
  obtain ⟨-, hreset, hsent⟩ := htime
  simp only [timeInRange_iff] at hreset hsent hnow
  by_cases hnone : deadlineTerms s = []
  · rw [nextDeadline_keepAlive hnone, keepAlive]
    omega
  · obtain ⟨hmem, -⟩ := nextDeadline_least hnone
    rcases (mem_deadlineTerms _ _).mp hmem with htx | ⟨-, heq⟩ | ⟨-, heq⟩
    · rcases eq_of_txDeadline htx with heq | ⟨f, -, heq⟩
      · omega
      · have hslot := hsent (txIndex s f)
        rw [heq, dueTime]
        omega
    · omega
    · rw [heq, resendTime]
      omega

/-- Settles O32: the maximum lies between 0 and D52's bound, so its register holds it. -/
theorem rearmClampsWithoutOverflow : Obligations.RearmClampsWithoutOverflow := by
  intro s hcfg htime hnow hmin
  have hdeadline := nextDeadline_lt hcfg htime hnow
  rw [timeInRange_iff] at hnow
  exact ⟨rfl, timeOf_toInt (by omega) (by omega)⟩

end Sys2Proof.Proofs.Deadline
end

section
/-! PROOFS. The other statements of 45_facade_timer.md: INIT, LL_RECV, PROCESS, the status commands, FINALIZE, and the `wake` pulse (R265).
An accepted command is its procedure on `accepted s` or, in the processing context, on `entered s`. -/

namespace Sys2Proof.Proofs.Facade

open Sys2Proof Sys2Proof.Machine Sys2Proof.Laws Sys2Proof.Proofs.StateRules

/-! ### INIT (R250, R251) -/

/-- Before INIT an INIT is admitted. -/
theorem exec_init {s : State} (c : CfgRecord) (hlife : s.life = .uninit) (hdepth : s.ctx.cbDepth = 0) :
    exec (.init c) s = .next (initBody c s) := by
  show execInit c s = _
  rw [execInit, refusalOf_init c hlife hdepth]

/-- The configuration registers read as the rounded sizes of a valid record (R21, R250). -/
theorem cfgOf_sizes {p : Params} {c : CfgRecord} (h : cfgValid p c = true) :
    (cfgOf c).txFrameCountMax.toNat = pow2Ceil c.txWindowSize.toNat ∧
    (cfgOf c).rxWindowSize.toNat = pow2Ceil c.rxWindowSize.toNat ∧
    (cfgOf c).txLinkSize.toNat =
      if c.txLinkSize.toNat = 0 then pow2Ceil c.rxWindowSize.toNat else c.txLinkSize.toNat := by
  have hregister : ∀ w n : Nat, 11 ≤ w → n ≤ 1024 → (BitVec.ofNat w (pow2Ceil n)).toNat = pow2Ceil n := by
    intro w n hw hn
    obtain ⟨k, -, hreg, hpow⟩ := pow2Ceil_register w n hw hn
    exact hreg.trans hpow.symm
  obtain ⟨⟨-, htx⟩, ⟨-, hrx⟩, -⟩ := (cfgValid_iff _ _).mp h
  refine ⟨hregister 11 _ le_rfl htx, hregister 11 _ le_rfl hrx, ?_⟩
  have hzero : c.txLinkSize = 0 ↔ c.txLinkSize.toNat = 0 := BitVec.toNat_eq
  unfold cfgOf
  simp only [← hzero]
  split
  · exact hregister 32 _ (by norm_num) hrx
  · rfl

/-- INIT's registers and its local reset, as one update: the reset calls nobody, and its tick request finds the tick due now. -/
theorem localReset_initRegisters_eq {c : CfgRecord} {s : State} (h : cfgValid s.par c = true) :
    localReset (initRegisters c s) =
      { s with
        cfg := cfgOf c, life := .active, conn := ⟨.disconnected, false, s.port.now⟩
        tx := ⟨0, 0, 1, []⟩, rx := ⟨0, 0, []⟩, link := ⟨tablePut 0 [] 0 (linkWord s .reset 0), 0, 1, 0⟩
        eofPending := false, tickAt := s.port.now, ctx := ⟨false, 0, 1, s.port.now⟩
        stats := ⟨0, 0, 0, 0, 0, 0⟩, fs := s.par.framer.initial } := by
  obtain ⟨-, -, ⟨hsize, -⟩, -⟩ := cfgInv_initRegisters (s := s) h
  rw [localReset_initRegisters, Connection.resetQuiet_eq hsize]
  simp [initRegisters, tableMap, linkWord]

/-- Settles O52: `Valid(cfg)` decides between no write and `localReset_initRegisters_eq`. -/
theorem initLoadsAValidConfiguration : Obligations.InitLoadsAValidConfiguration := by
  intro s c hlife hdepth valid
  have hvalid : cfgValid s.par c = true ↔ valid := by
    rw [cfgValid_iff, ne_eq, ← imp_iff_not_or]
    exact ⟨fun ⟨⟨htx, htx'⟩, ⟨hrx, hrx'⟩, hrest⟩ => ⟨⟨htx, hrx⟩, ⟨htx', hrx'⟩, hrest⟩,
      fun ⟨⟨htx, hrx⟩, ⟨htx', hrx'⟩, hrest⟩ => ⟨⟨htx, htx'⟩, ⟨hrx, hrx'⟩, hrest⟩⟩
  rw [exec_init c hlife hdepth, ← hvalid]
  refine ⟨fun hbad => ?_, fun hgood => ?_⟩
  · rw [initBody, if_neg hbad]
    rfl
  · obtain ⟨htx, hrx, hlink⟩ := cfgOf_sizes hgood
    rw [initBody, if_pos hgood, localReset_initRegisters_eq hgood]
    exact ⟨_, _, _, _, rfl, htx, hrx, hlink, rfl, rfl, fun _ => rfl, fun _ => rfl, fun i => tableGet_put 0 [] 0 i _⟩

/-! ### LL_RECV (R253, R254) -/

/-- A command that runs `body` as an RX command, once it is admitted (R38, R170, R238). -/
theorem exec_of_rxCommand {i : Instr} {s : State} (body : State → State) (h : Ready s) (hi : isInit i = false)
    (hexec : exec i s = .next (accept i (rxCommand body) s)) : exec i s = .next (completed (body (entered s))) :=
  hexec.trans (congrArg Host.Outcome.next (accept_rxCommand body h hi))

/-- The direct command of a link frame is the row its type and id name, whose meaning is the demultiplexer's branch (R92, R93, R238). -/
theorem exec_decodeRxLink {s : State} (t : BitVec 5) (f : FrameId) (h : Ready s) :
    exec (decodeRxLink s.par.codes t f) s = .next (completed (rxLinkProc t f (entered s))) := by
  have hproc : rxLinkProc t f (entered s) =
      if t = s.par.codes.ackAll then ackAll f (entered s)
      else if t = s.par.codes.ackOne then ackOne f (entered s)
      else if t = s.par.codes.nackFrameId then nackFrame f (entered s)
      else if t = s.par.codes.nackFramingError then nackFrame f (entered s)
      else if t = s.par.codes.reset then onReset f (entered s)
      else entered s := rfl
  rw [hproc, decodeRxLink]
  split_ifs with hackAll hackOne hnackId hnackFraming hreset hreq hrsp
  · exact exec_of_rxCommand (ackAll f) h rfl rfl
  · exact exec_of_rxCommand (ackOne f) h rfl rfl
  · exact exec_of_rxCommand (nackFrame f) h rfl rfl
  · exact exec_of_rxCommand (nackFrame f) h rfl rfl
  · rw [hreq]
    exact exec_of_rxCommand (onReset Config.resetRequestId) h rfl rfl
  · rw [hrsp]
    exact exec_of_rxCommand (onReset Config.resetResponseId) h rfl rfl
  · exact exec_of_rxCommand (onReset f) h rfl rfl
  · have hunknown : t ∉ (entered s).par.codes.all := by simp [LinkCodes.all, entered, *]
    rw [Connection.exec_rxLink t f h, Connection.rxLinkProc_unknown f hunknown]

/-- Settles O53: the fold over the framer's events; a single event is the procedure of its direct command. -/
theorem llRecvRunsTheFramersEvents : Obligations.LlRecvRunsTheFramersEvents := by
  intro s data fs' events h hparse
  have hfold : exec (.llRecv data) s = .next (completed (events.foldl framerEvent { entered s with fs := fs' })) := by
    have hparse' : framerParse (entered s).par (entered s).fs data = (fs', events) := hparse
    rw [exec_of_rxCommand (llRecvProc data) h rfl rfl, llRecvProc, hparse']
  have hready : Ready { s with fs := fs' } := h
  refine ⟨hfold, ?dataEvent, ?linkEvent, ?framingError⟩
  case dataEvent =>
    rintro f m p rfl
    exact hfold.trans (RxEngine.exec_rxData f m p hready).symm
  case linkEvent =>
    rintro t f rfl
    exact hfold.trans (exec_decodeRxLink t f hready).symm
  case framingError =>
    rintro rfl
    exact hfold.trans (RxEngine.exec_rxFramingError hready).symm

/-! ### The `wake` pulse (R265) -/

/-- A command that runs its procedure in the processing context adds no `wake`. -/
theorem no_wake_of_exec {i : Instr} {s t : State} {body : State → State} (hbody : ∀ s, Same s (body s))
    (hexec : exec i s = .next (accept i (fun t => answer .success (inContext body t)) s)) (h : exec i s = .next t) :
    ∃ o, t.out = s.out ++ o ∧ Output.wake ∉ o := by
  rw [← Host.Outcome.next.inj (hexec.symm.trans h)]
  exact no_wake_context hbody

/-- Settles O59: each of the twelve commands is a procedure in the processing context, and each procedure keeps the frame. -/
theorem processingContextNeverPulsesWake : Obligations.ProcessingContextNeverPulsesWake := by
  intro i s t h hi
  rcases hi with rfl | ⟨d, rfl⟩ | ⟨f, m, p, rfl⟩ | ⟨c, f, rfl⟩ | ⟨f, rfl⟩ | ⟨f, rfl⟩ | ⟨f, rfl⟩ | ⟨f, rfl⟩ | rfl | rfl | ⟨f, rfl⟩ |
    rfl
  · exact no_wake_of_exec same_processSteps rfl h
  · exact no_wake_of_exec (fun s => same_llRecvProc s d) rfl h
  · exact no_wake_of_exec (fun s => same_rxDataProc s f m p) rfl h
  · exact no_wake_of_exec (fun s => same_rxLinkProc s c f) rfl h
  · exact no_wake_of_exec (fun s => same_ackAll s f) rfl h
  · exact no_wake_of_exec (fun s => same_ackOne s f) rfl h
  · exact no_wake_of_exec (fun s => same_nackFrame s f) rfl h
  · exact no_wake_of_exec (fun s => same_nackFrame s f) rfl h
  · exact no_wake_of_exec (fun s => same_onReset s Config.resetRequestId) rfl h
  · exact no_wake_of_exec (fun s => same_onReset s Config.resetResponseId) rfl h
  · exact no_wake_of_exec (fun s => same_onReset s f) rfl h
  · exact no_wake_of_exec same_rxFramingErrorProc rfl h

/-! ### PROCESS, the status commands, FINALIZE (R260, R266 to R269) -/

/-- Settles O27: an accepted PROCESS is its six steps in the processing context. -/
theorem processRunsItsSixSteps : Obligations.ProcessRunsItsSixSteps := fun _ h =>
  congrArg Host.Outcome.next (accept_rxCommand processSteps h rfl)

/-- R268's `max(0, tick_at - now)`, with the case of a tick that is due written out. -/
theorem serviceTicks_eq (s : State) : serviceTicks s =
    timeOf (if s.tickAt.toInt ≤ s.port.now.toInt then 0 else s.tickAt.toInt - s.port.now.toInt) := by
  unfold serviceTicks
  congr 1
  split <;> omega

/-- Settles O54: both commands may nest, and each is its two outputs on the accepted state. -/
theorem statusReadsReturnTheirValues : Obligations.StatusReadsReturnTheirValues := by
  intro s h c
  have hget : exec .statusGet s = .next (statusGetBody (accepted s)) :=
    congrArg Host.Outcome.next (accept_readyNested statusGetBody h rfl rfl)
  have hinterval : exec .serviceInterval s = .next (serviceIntervalBody (accepted s)) :=
    congrArg Host.Outcome.next (accept_readyNested serviceIntervalBody h rfl rfl)
  rw [hget, hinterval, statusGetBody, serviceIntervalBody, serviceTicks_eq]
  simp only [answer, emit, List.append_assoc]
  exact ⟨rfl, rfl⟩

/-- Settles O55: STATUS_CLEAR may nest, and is one update of the accepted state. -/
theorem statusClearZeroesTheCounters : Obligations.StatusClearZeroesTheCounters := fun _ h =>
  congrArg Host.Outcome.next (accept_readyNested statusClearBody h rfl rfl)

/-- Settles O56: FINALIZE's one write, and order 6 of R305 for every later command but INIT. -/
theorem finalizeEndsTheBlock : Obligations.FinalizeEndsTheBlock := by
  intro s h
  refine ⟨congrArg Host.Outcome.next (accept_ready finalizeBody h rfl), fun i t hlife hi => ?_⟩
  have hinit : isInit i = false := by
    rw [← Bool.not_eq_true, isInit_iff, not_exists]
    exact hi
  rw [exec_refused i t _ (Blocking.refusalOf_finalized hlife hinit)]
  rfl

end Sys2Proof.Proofs.Facade
end

section
/-! PROOFS. The statements of 60_exceptions.md: which refusal a command meets (R305), the times the block records (R315), and the commands
of callback handlers (R309, R310).

A refusal's statement is the branch of `refusalOf` that the state selects. A nested command is compared with the port's in two steps:
`exec_nested` for the run whose events are `upEvent`, and `nestedInstr_upEventInner` for the run inside a real callback, which differs only
in the event of a reset, made in a block that is Disconnected by then. -/

namespace Sys2Proof.Proofs.Exceptions

open Sys2Proof Sys2Proof.Machine Sys2Proof.Laws

/-! ### Refusals (R305, orders 4 to 8) -/

theorem isInit_eq_false_iff (i : Instr) : isInit i = false ↔ ∀ c, i ≠ .init c := by
  rw [← Bool.not_eq_true, isInit_iff, not_exists]

theorem refusalOf_alreadyInitialized {s : State} (c : CfgRecord) (hlife : s.life ≠ .uninit) :
    refusalOf (.init c) s = some .alreadyInitialized := by
  rw [refusalOf, if_neg (by simp [isInit]), if_pos ⟨rfl, hlife⟩]

/-- Order 7: orders 4 to 6 let INIT pass while Uninit, and every other command while Active. -/
theorem refusalOf_nestedCommand {i : Instr} {s : State}
    (hlife : (isInit i = true ∧ s.life = .uninit) ∨ (isInit i = false ∧ s.life = .active))
    (hdepth : s.ctx.cbDepth ≠ 0) (hnest : mayNest i = false) : refusalOf i s = some .nestedCommand := by
  rcases hlife with ⟨hi, hl⟩ | ⟨hi, hl⟩
  · rw [refusalOf, if_neg (by simp [hi]), if_neg (by simp [hl]), if_neg (by simp [hi]), if_pos ⟨hdepth, hnest⟩]
  · rw [refusalOf, if_neg (by simp [hl]), if_neg (by simp [hi]), if_neg (by simp [hl]), if_pos ⟨hdepth, hnest⟩]

/-- Settles O11: each clause is one branch of `refusalOf`, and a refused command is its refusal. -/
theorem refusalConditionsInOrder : Obligations.RefusalConditionsInOrder := by
  intro i s refusedWith nestable
  refine ⟨fun hi hlife => ?_, ?_, fun hi hlife => ?_, ?_, fun hi hlife hdepth hnest => ?_, fun hi hlife hdepth htime => ?_⟩
  · exact exec_refused i s _ (Blocking.refusalOf_uninit hlife ((isInit_eq_false_iff i).mpr hi))
  · rintro ⟨c, rfl⟩ hlife
    exact exec_refused _ s _ (refusalOf_alreadyInitialized c hlife)
  · exact exec_refused i s _ (Blocking.refusalOf_finalized hlife ((isInit_eq_false_iff i).mpr hi))
  · rintro ⟨c, rfl⟩ hlife hdepth
    exact exec_refused _ s _ (refusalOf_nestedCommand (.inl ⟨rfl, hlife⟩) hdepth rfl)
  · have hmay : mayNest i = false := by
      rw [← Bool.not_eq_true, mayNest_iff]
      exact hnest
    exact exec_refused i s _ (refusalOf_nestedCommand (.inr ⟨(isInit_eq_false_iff i).mpr hi, hlife⟩) hdepth hmay)
  · exact exec_refused i s _ (Blocking.refusalOf_timeRegression hlife hdepth htime ((isInit_eq_false_iff i).mpr hi))

/-- Settles O10: every step answers a next state, and a decoded command at an earlier time meets order 8. -/
theorem noInputStopsTheBlock : Obligations.NoInputStopsTheBlock := by
  refine ⟨step_next, fun s w x e rest i hinq hdecode hi hlife hdepth htime => ?_⟩
  have hrefused : refusalOf i (latch e rest s) = some .timeRegression :=
    Blocking.refusalOf_timeRegression hlife hdepth htime ((isInit_eq_false_iff i).mpr hi)
  calc step s
      = runWord w x (latch e rest s) := Encoding.step_command hinq
    _ = exec i (latch e rest s) := Encoding.runWord_of_ok hdecode
    _ = .next (refuse .timeRegression (latch e rest s)) := exec_refused i _ _ hrefused

/-! ### Recorded times (R315, D52) -/

/-- After a step that takes an input, the port holds that input's time. -/
theorem step_now {s t : State} (h : step s = .next t) : t = s ∨ ∃ x ∈ s.inq.head?, t.port.now = x.env.now := by
  rcases step_frame s t h with ⟨-, rfl⟩ | ⟨x, rest, hinq, hsame | ⟨i, hframe, -⟩⟩
  · exact .inl rfl
  · exact .inr ⟨x, by simp [hinq], hsame.now⟩
  · exact .inr ⟨x, by simp [hinq], hframe.now⟩

/-- INIT sets `last_now` to its own time and zeroes every slot. -/
theorem timeInv_freshBlock {c : CfgRecord} {s : State} (hnow : timeInRange s.port.now = true) (h : TimeInv s) :
    TimeInv (StateRules.freshBlock c s) := by
  obtain ⟨-, hreset, -⟩ := h
  have hinit : TimeInv (initRegisters c s) := ⟨hnow, hreset, fun _ => (by decide : timeInRange TxSlot.zero.lastSendTime = true)⟩
  exact (keeps_resetRegisters _).time hnow hinit

/-- Settles O22: no operation writes a time but the input's own, from the state found or from INIT's fresh block. -/
theorem stepKeepsTimesInRange : Obligations.StepKeepsTimesInRange := by
  intro s t hs hinput h
  rcases step_now h with rfl | ⟨x, hx, hnow⟩
  · exact hs
  have hrange : timeInRange t.port.now = true := hnow ▸ hinput x hx
  rcases StateRules.step_keeps h with rfl | ⟨e, rest, ⟨hkeeps, -⟩ | ⟨c, -, -, hkeeps⟩⟩
  · exact hs
  · exact hkeeps.time (hkeeps.now ▸ hrange) hs
  · have hlatched : timeInRange (latch e rest s).port.now = true := hkeeps.now ▸ hrange
    exact hkeeps.time hlatched (timeInv_freshBlock hlatched hs)

/-! ### Handlers in a Disconnected block (R309) -/

/-- A script that starts in a Disconnected block makes no event and leaves the block Disconnected. -/
theorem script_disconnected (event event' : EventKind → State → State) (script : List NestedCommand) {s : State}
    (h : s.conn.state = .disconnected) :
    script.foldl (fun t c => nestedCommand event c t) s = script.foldl (fun t c => nestedCommand event' c t) s ∧
      (script.foldl (fun t c => nestedCommand event c t) s).conn.state = .disconnected := by
  induction script generalizing s with
  | nil => exact ⟨rfl, h⟩
  | cons c script ih =>
    obtain ⟨hsame, hconn⟩ := nestedCommand_disconnected event event' c h
    rw [List.foldl_cons, List.foldl_cons, ← hsame]
    exact ih hconn

/-- Settles O57, by induction on the script. -/
theorem disconnectedHandlersRaiseNoEvent : Obligations.DisconnectedHandlersRaiseNoEvent :=
  fun _ script event event' h => script_disconnected event event' script h

/-- A callback of a Disconnected block does not depend on what its handler's events would do. -/
theorem callback_disconnected_eq (event event' : EventKind → State → State) (o : Output) {s : State}
    (h : s.conn.state = .disconnected) : callback (nestedCommand event) o s = callback (nestedCommand event') o s := by
  rw [callback_eq, callback_eq, (script_disconnected event event' _ (s := called o s) h).1]

/-! ### A nested command and the same command at the port (R309) -/

/-- The commands that may not nest are refused, with order 7's reason where no earlier one applies. -/
theorem nestedInstr_of_not_mayNest (event : EventKind → State → State) {i : Instr} (s : State) (h : mayNest i = false) :
    nestedInstr event i s = refuse ((refusalOf i s).getD .nestedCommand) s := by
  cases i
  case send | txWindowSet | statusGet | statusClear | resetTxFromEvent | serviceInterval => exact absurd h (by simp [mayNest])
  all_goals rfl

/-- The commands that may nest run as `exec` says, their events being the port's. -/
theorem exec_of_mayNest {i : Instr} (s : State) (h : mayNest i = true) : exec i s = .next (nestedInstr upEvent i s) := by
  rcases (mayNest_iff i).mp h with ⟨_, _, _, rfl⟩ | ⟨_, rfl⟩ | rfl | rfl | rfl | rfl <;> rfl

/-- Inside a callback a command that may not nest meets one of the orders 4 to 7. -/
theorem refusalOf_in_callback {i : Instr} {s : State} (hdepth : s.ctx.cbDepth ≠ 0) (hnest : mayNest i = false) :
    ∃ r, refusalOf i s = some r := by
  unfold refusalOf
  split_ifs with _ _ _ horder7
  · exact ⟨_, rfl⟩
  · exact ⟨_, rfl⟩
  · exact ⟨_, rfl⟩
  · exact ⟨_, rfl⟩
  all_goals exact absurd ⟨hdepth, hnest⟩ horder7

/-- Inside a callback the port's meaning of a command is its nested run. -/
theorem exec_nested {i : Instr} {s : State} (hdepth : s.ctx.cbDepth ≠ 0) : exec i s = .next (nestedInstr upEvent i s) := by
  cases hnest : mayNest i with
  | true => exact exec_of_mayNest s hnest
  | false =>
    obtain ⟨r, hr⟩ := refusalOf_in_callback hdepth hnest
    rw [exec_refused i s r hr, nestedInstr_of_not_mayNest _ s hnest, hr, Option.getD_some]

/-- Only RESET_TX_FROM_EVENT can make an event from inside a handler. -/
theorem nestedInstr_event_irrel {i : Instr} (s : State) (event event' : EventKind → State → State)
    (h : i ≠ .resetTxFromEvent) : nestedInstr event i s = nestedInstr event' i s := by
  cases i
  case resetTxFromEvent => exact absurd rfl h
  all_goals rfl

/-- The event of a local reset is made in a Disconnected block, where the handler's own events do not matter (R200, R309). -/
theorem localResetWith_upEventInner (s : State) : localResetWith upEventInner s = localResetWith upEvent s := by
  unfold localResetWith
  split
  · exact callback_disconnected_eq _ _ _ (by simp [resetQuiet])
  · rfl

/-- The run inside a real callback is the run with the port's events. -/
theorem nestedInstr_upEventInner (i : Instr) (s : State) : nestedInstr upEventInner i s = nestedInstr upEvent i s := by
  by_cases h : i = .resetTxFromEvent
  · subst h
    simp only [nestedInstr, localResetWith_upEventInner]
  · exact nestedInstr_event_irrel s _ _ h

/-! ### A callback runs its handler's commands as the port does (R309, R310) -/

/-- A handler's command is run as at the port, the decoder's refusals included. -/
theorem nestedCommand_eq_runScripted (c : NestedCommand) {s : State} (hdepth : s.ctx.cbDepth ≠ 0) :
    nestedCommand upEventInner c s = runScripted c s := by
  unfold nestedCommand runScripted
  cases decode s.par.codes c.word c.operand with
  | error r => rfl
  | ok i =>
    dsimp only
    rw [nestedInstr_upEventInner, exec_nested hdepth]

theorem same_handlerCommand (s : State) (c : NestedCommand) : Same s (nestedCommand upEventInner c s) :=
  same_nestedCommand s _ (fun k s => same_upEventInner s k) c

/-- A script is run as at the port, each of its commands at the depth at which the script starts. -/
theorem script_eq_runScripted (script : List NestedCommand) {s : State} (hdepth : s.ctx.cbDepth ≠ 0) :
    script.foldl (fun t c => nestedCommand upEventInner c t) s = script.foldl (fun t c => runScripted c t) s := by
  induction script generalizing s with
  | nil => rfl
  | cons c script ih =>
    have hdepth' : (nestedCommand upEventInner c s).ctx.cbDepth ≠ 0 := (same_handlerCommand s c).cbDepth ▸ hdepth
    rw [List.foldl_cons, List.foldl_cons, ih hdepth', nestedCommand_eq_runScripted c hdepth]

theorem called_depth_ne_zero (o : Output) {s : State} (h : s.ctx.cbDepth ≠ 255) : (called o s).ctx.cbDepth ≠ 0 := by
  show s.ctx.cbDepth + 1 ≠ 0
  bv_omega

/-- A callback is the entry, the handler's commands as the port runs them, and the return. -/
theorem callback_eq_runScripted (o : Output) {s : State} (h : s.ctx.cbDepth ≠ 255) :
    callback (nestedCommand upEventInner) o s =
      callbackReturn ((s.port.handlers.headD []).foldl (fun t c => runScripted c t) (called o s)) := by
  rw [callback_eq, script_eq_runScripted _ (called_depth_ne_zero o h)]

/-- Settles O58: the nested run of one command, then the callback that runs a script of them. -/
theorem nestedCommandsRunAsAtThePort : Obligations.NestedCommandsRunAsAtThePort := by
  refine ⟨fun _ _ => exec_nested, nestedInstr_upEventInner, fun i s h event => nestedInstr_event_irrel s event _ h, fun s h => ?_⟩
  refine ⟨fun k => callback_eq_runScripted (.upEvent k) h, fun m p => callback_eq_runScripted (.upRecv m p) h, fun o => ?_⟩
  have hframe : Same (called o s) ((s.port.handlers.headD []).foldl (fun t c => runScripted c t) (called o s)) := by
    rw [← script_eq_runScripted _ (called_depth_ne_zero o h)]
    exact same_foldl _ same_handlerCommand _ _
  exact ⟨hframe.cbDepth, hframe.now⟩

end Sys2Proof.Proofs.Exceptions
end

section
/-! PROOFS. The statement of 70_reset_and_hazards.md on the state at power-on (R330, R43): log entry 9's values meet the block's invariants. -/

namespace Sys2Proof.Proofs.PowerOn

open Sys2Proof Sys2Proof.Machine Sys2Proof.Laws

/-! ### The slots at power-on (log entry 9) -/

@[simp] theorem txSlot_reset (i : Nat) : txSlot State.reset i = TxSlot.zero := rfl

@[simp] theorem rxSlot_reset (i : Nat) : rxSlot State.reset i = RxSlot.zero := rfl

/-! ### The invariants at power-on -/

theorem quiescent_reset : Quiescent State.reset := ⟨rfl, rfl⟩

/-- Every table is empty, and so is every slot's memory. -/
theorem memoryInv_reset : MemoryInv State.reset := by
  refine ⟨tableWf_nil _, tableWf_nil _, tableWf_nil _, fun i => ?_, fun i => ?_⟩
  · rw [txSlot_reset]
    exact tableWf_nil _
  · rw [rxSlot_reset]
    exact tableWf_nil _

/-- Before INIT the protocol state has nothing to meet (R43). -/
theorem blockInv_reset : BlockInv State.reset :=
  ⟨quiescent_reset, memoryInv_reset, fun hlife => absurd rfl hlife⟩

/-- Every recorded time is 0. -/
theorem timeInv_reset : TimeInv State.reset := by
  have hzero : timeInRange 0 = true := by decide
  refine ⟨hzero, hzero, fun i => ?_⟩
  rw [txSlot_reset]
  exact hzero

theorem retryInv_reset : RetryInv State.reset := by
  intro i
  rw [txSlot_reset]
  exact Nat.zero_le _

/-- Settles O15: the registers that R330 and the queue's form fix are read off, and each invariant has its lemma. -/
theorem powerOnMeetsTheInvariants : Obligations.PowerOnMeetsTheInvariants :=
  ⟨rfl, rfl, rfl, blockInv_reset, timeInv_reset, retryInv_reset⟩

end Sys2Proof.Proofs.PowerOn
end
